-- ==== Sys2Proof/Word.lean ====
section
/-! DEFINITION. The bit-vector types of the VALU model: instruction words, registers, register numbers. -/

namespace Sys2Proof

/-- A memory byte (20_memory.md R50). -/
abbrev Byte := BitVec 8

/-- A 32-bit value: an instruction word, an R register, a data address, `pc` (R27, R28, R80). -/
abbrev Word := BitVec 32

/-- The contents of a D register (10_state.md R21). -/
abbrev DWord := BitVec 64

/-- A vector operand: a Q register's 128 bits, or a D register's 64 bits below 64 zero bits (10_state.md R22, R23). -/
abbrev Vec := BitVec 128

/-- A D register number, the 5-bit content of a vector register field (10_state.md R23). -/
abbrev DReg := BitVec 5

/-- An R register number, a 4-bit field (10_state.md R27). -/
abbrev RReg := BitVec 4

/-- The 8-bit immediate field (30_encoding.md R81). -/
abbrev Imm8 := BitVec 8

end Sys2Proof
end

