-- ==== Sys2Proof/Syntax.lean ====
section
/-! DEFINITION. The syntax of VALU instructions: one structure of operands per format of 30_encoding.md R84, one
constructor of `Instr` per row of spec/opcode_table.json. -/

namespace Sys2Proof

/-- The `sz` field: the lane width the instruction views its registers at (R81, R82). -/
inductive Sz where
  | s8
  | s16
  | s32
  | s64
deriving DecidableEq, Repr

/-- The lane width `w` in bits, `8 << sz` (R82). -/
def Sz.bits : Sz → Nat
  | .s8 => 8
  | .s16 => 16
  | .s32 => 32
  | .s64 => 64

/-- The lane width `B` in bytes, `w / 8` (R8). -/
def Sz.bytes : Sz → Nat
  | .s8 => 1
  | .s16 => 2
  | .s32 => 4
  | .s64 => 8

/-- `regbits(Q)` of R9: 64 for a D register, 128 for a Q register. -/
def regBits (q : Bool) : Nat := if q then 128 else 64

/-- `ec(Q, w)` of R9: the number of lanes in a register (10_state.md R24). -/
def laneCount (q : Bool) (sz : Sz) : Nat := regBits q / sz.bits

/-- The writeback mode `wb` of format `LS`, with the step register of mode 2 (R84, 40_load_store.md R122). Because `Rm`
must be 0 in the other modes (R88), they carry none. -/
inductive Writeback where
  /-- `wb = 0`: none. -/
  | keep
  /-- `wb = 1`: post-increment by the bytes moved. -/
  | postInc
  /-- `wb = 2`: post-add the byte step `R[Rm]`. -/
  | postAdd (rm : RReg)
  /-- `wb = 3`: post-decrement by the bytes moved. -/
  | postDec
deriving DecidableEq, Repr

/-- Operands of format `LS`: lane width, register kind, first register of the group, base register, writeback. The
group size (`nm1 + 1`) belongs to the constructor, as in the opcode table (R86). -/
structure LS where
  sz : Sz
  q : Bool
  vd : DReg
  rn : RReg
  wb : Writeback
deriving DecidableEq, Repr

/-- Operands of format `V3`. -/
structure V3 where
  sz : Sz
  q : Bool
  vd : DReg
  vn : DReg
  vm : DReg
deriving DecidableEq, Repr

/-- Operands of format `V3B` (`sz` is fixed at `0b00`; the operation has no lanes). -/
structure V3B where
  q : Bool
  vd : DReg
  vn : DReg
  vm : DReg
deriving DecidableEq, Repr

/-- Operands of format `V3W`: `sz` is the narrow width, `vd` a Q register, `vn` and `vm` D registers. -/
structure V3W where
  sz : Sz
  vd : DReg
  vn : DReg
  vm : DReg
deriving DecidableEq, Repr

/-- Operands of format `V3X`: `k` is the window offset in lanes. -/
structure V3X where
  sz : Sz
  q : Bool
  vd : DReg
  vn : DReg
  vm : DReg
  k : Imm8
deriving DecidableEq, Repr

/-- Operands of format `V3L`: `vm` is always a D register, `idx` one of its lanes. -/
structure V3L where
  sz : Sz
  q : Bool
  vd : DReg
  vn : DReg
  vm : DReg
  idx : Imm8
deriving DecidableEq, Repr

/-- Operands of format `V2`. -/
structure V2 where
  sz : Sz
  q : Bool
  vd : DReg
  vm : DReg
deriving DecidableEq, Repr

/-- Operands of format `V2B` (`sz` is fixed at `0b00`). -/
structure V2B where
  q : Bool
  vd : DReg
  vm : DReg
deriving DecidableEq, Repr

/-- Operands of format `V2I`, with the raw immediate; R85 says how each instruction reads it. -/
structure V2I where
  sz : Sz
  q : Bool
  vd : DReg
  vm : DReg
  imm : Imm8
deriving DecidableEq, Repr

/-- Operands of format `V2N`: `sz` is the narrow width, `vd` a D register, `vm` a Q register, `n` the shift. -/
structure V2N where
  sz : Sz
  vd : DReg
  vm : DReg
  n : Imm8
deriving DecidableEq, Repr

/-- Operands of format `V2F` (`sz` is fixed at `0b10`). -/
structure V2F where
  q : Bool
  vd : DReg
  vm : DReg
  fbits : Imm8
deriving DecidableEq, Repr

/-- Operands of format `V2S`: `di` and `mi` are the destination and the source lane. -/
structure V2S where
  vd : DReg
  vm : DReg
  di : Bool
  mi : Bool
deriving DecidableEq, Repr

/-- Operands of format `V2R`: `rs` is the R register that holds the shift amount. -/
structure V2R where
  sz : Sz
  q : Bool
  vd : DReg
  vm : DReg
  rs : RReg
deriving DecidableEq, Repr

/-- The instructions of VALU, one constructor per row of spec/opcode_table.json (R86). -/
inductive Instr where
  /-- `VLD1` (R124), format `LS`. -/
  | vld1 (o : LS)
  /-- `VLD2` (R125), format `LS`. -/
  | vld2 (o : LS)
  /-- `VLD3` (R126), format `LS`. -/
  | vld3 (o : LS)
  /-- `VLD4` (R127), format `LS`. -/
  | vld4 (o : LS)
  /-- `VST1` (R128), format `LS`. -/
  | vst1 (o : LS)
  /-- `VST2` (R129), format `LS`. -/
  | vst2 (o : LS)
  /-- `VST3` (R130), format `LS`. -/
  | vst3 (o : LS)
  /-- `VST4` (R131), format `LS`. -/
  | vst4 (o : LS)
  /-- `VLDDUP` (R132), format `LS`. -/
  | vlddup (o : LS)
  /-- `VADD` (R152), format `V3`. -/
  | vadd (o : V3)
  /-- `VSUB` (R153), format `V3`. -/
  | vsub (o : V3)
  /-- `VQADD` (R154), format `V3`. -/
  | vqadd (o : V3)
  /-- `VQSUB` (R155), format `V3`. -/
  | vqsub (o : V3)
  /-- `VNEG` (R156), format `V2`. -/
  | vneg (o : V2)
  /-- `VABS` (R157), format `V2`. -/
  | vabs (o : V2)
  /-- `VQNEG` (R158), format `V2`. -/
  | vqneg (o : V2)
  /-- `VQABS` (R159), format `V2`. -/
  | vqabs (o : V2)
  /-- `VQSHL` (R167), format `V2I`. -/
  | vqshl (o : V2I)
  /-- `VQSHLR` (R168), format `V2R`. -/
  | vqshlr (o : V2R)
  /-- `VRSHR` (R169), format `V2I`. -/
  | vrshr (o : V2I)
  /-- `VMIN` (R170), format `V3`. -/
  | vmin (o : V3)
  /-- `VMAX` (R171), format `V3`. -/
  | vmax (o : V3)
  /-- `VPADD` (R173), format `V3`. -/
  | vpadd (o : V3)
  /-- `VPMAX` (R174), format `V3`. -/
  | vpmax (o : V3)
  /-- `VPMIN` (R175), format `V3`. -/
  | vpmin (o : V3)
  /-- `VMUL` (R191), format `V3`. -/
  | vmul (o : V3)
  /-- `VMLA` (R192), format `V3`. -/
  | vmla (o : V3)
  /-- `VMLS` (R193), format `V3`. -/
  | vmls (o : V3)
  /-- `VMULL` (R195), format `V3W`. -/
  | vmull (o : V3W)
  /-- `VMLAL` (R196), format `V3W`. -/
  | vmlal (o : V3W)
  /-- `VMLSL` (R197), format `V3W`. -/
  | vmlsl (o : V3W)
  /-- `VQDMULH` (R200), format `V3`. -/
  | vqdmulh (o : V3)
  /-- `VQRDMULH` (R201), format `V3`. -/
  | vqrdmulh (o : V3)
  /-- `VQDMULH_LANE` (R203), format `V3L`. -/
  | vqdmulhLane (o : V3L)
  /-- `VQRDMULH_LANE` (R204), format `V3L`. -/
  | vqrdmulhLane (o : V3L)
  /-- `VREV` (R221), format `V2I`. -/
  | vrev (o : V2I)
  /-- `VZIP` (R223), format `V2`. -/
  | vzip (o : V2)
  /-- `VUZP` (R224), format `V2`. -/
  | vuzp (o : V2)
  /-- `VTRN` (R226), format `V2`. -/
  | vtrn (o : V2)
  /-- `VEXT` (R227), format `V3X`. -/
  | vext (o : V3X)
  /-- `VDUP` (R228), format `V2I`. -/
  | vdup (o : V2I)
  /-- `VSWP` (R229), format `V2B`. -/
  | vswp (o : V2B)
  /-- `VCGE` (R252), format `V3`. -/
  | vcge (o : V3)
  /-- `VCGT` (R253), format `V3`. -/
  | vcgt (o : V3)
  /-- `VCEQ` (R254), format `V3`. -/
  | vceq (o : V3)
  /-- `VCGEZ` (R255), format `V2`. -/
  | vcgez (o : V2)
  /-- `VCGTZ` (R256), format `V2`. -/
  | vcgtz (o : V2)
  /-- `VCEQZ` (R257), format `V2`. -/
  | vceqz (o : V2)
  /-- `VTST` (R258), format `V3`. -/
  | vtst (o : V3)
  /-- `VBIT` (R259), format `V3B`. -/
  | vbit (o : V3B)
  /-- `VCLZ` (R271), format `V2`. -/
  | vclz (o : V2)
  /-- `VCLS` (R272), format `V2`. -/
  | vcls (o : V2)
  /-- `VQRSHRN` (R273), format `V2N`. -/
  | vqrshrn (o : V2N)
  /-- `VCVT_F32_S32` (R275), format `V2F`. -/
  | vcvtF32S32 (o : V2F)
  /-- `VCVT_S32_F32` (R276), format `V2F`. -/
  | vcvtS32F32 (o : V2F)
  /-- `VSQRT` (R278), format `V2S`. -/
  | vsqrt (o : V2S)
deriving DecidableEq, Repr

end Sys2Proof
end

