-- ==== Sys2Proof/WellFormed.lean ====
section
/-! DEFINITION. Which instruction terms have an encoding: the admitted widths (30_encoding.md R87) and immediates (R85).
The register-number conditions of R89 are no part of it: a word that violates them is a legal encoding that raises
`RegisterGroupFault`, which the meanings take. -/

namespace Sys2Proof

/-- The doubling multiplies admit 16 and 32 bits (R87). -/
def Sz.isFractional : Sz → Bool
  | .s16 => true
  | .s32 => true
  | _ => false

/-- Widening and narrowing instructions admit the narrow widths 8, 16, 32 (R87). -/
def Sz.isNarrow : Sz → Bool
  | .s64 => false
  | _ => true

/-- `ec >= 2`: the pairwise and the zip, unzip and transpose instructions (R87). -/
def hasLanePairs (q : Bool) (sz : Sz) : Bool := decide (2 ≤ laneCount q sz)

/-- `VQSHL`: `-w <= s <= w-1` with `s = sint_8(imm8)` (R85). -/
def vqshlImmOk (sz : Sz) (imm : Imm8) : Bool :=
  decide (-(sz.bits : Int) ≤ imm.toInt) && decide (imm.toInt ≤ (sz.bits : Int) - 1)

/-- `VRSHR`: `1 <= n <= w` (R85). -/
def vrshrImmOk (sz : Sz) (imm : Imm8) : Bool :=
  decide (1 ≤ imm.toNat) && decide (imm.toNat ≤ sz.bits)

/-- `VQRSHRN`: `1 <= n <= 2w` (R85). -/
def vqrshrnImmOk (sz : Sz) (n : Imm8) : Bool :=
  decide (1 ≤ n.toNat) && decide (n.toNat ≤ 2 * sz.bits)

/-- `VREV`: `g` in {2, 4, 8} and `g <= ec` (R85). -/
def vrevImmOk (q : Bool) (sz : Sz) (g : Imm8) : Bool :=
  (g.toNat == 2 || g.toNat == 4 || g.toNat == 8) && decide (g.toNat ≤ laneCount q sz)

/-- `VEXT`: `0 <= k <= ec` (R85). -/
def vextImmOk (q : Bool) (sz : Sz) (k : Imm8) : Bool := decide (k.toNat ≤ laneCount q sz)

/-- `VDUP` and the by-lane multiplies: `0 <= idx < 64/w` (R85). -/
def laneIdxOk (sz : Sz) (idx : Imm8) : Bool := decide (idx.toNat < 64 / sz.bits)

/-- The conversions: `0 <= fbits <= 32` (R85). -/
def fbitsOk (fbits : Imm8) : Bool := decide (fbits.toNat ≤ 32)

/-- The instruction has an encoding: its width is admitted (R87) and its immediate is in range (R85). -/
def Instr.wellFormed : Instr → Bool
  | .vld1 _ | .vld2 _ | .vld3 _ | .vld4 _ => true
  | .vst1 _ | .vst2 _ | .vst3 _ | .vst4 _ => true
  | .vlddup _ => true
  | .vadd _ | .vsub _ | .vqadd _ | .vqsub _ => true
  | .vneg _ | .vabs _ | .vqneg _ | .vqabs _ => true
  | .vqshl o => vqshlImmOk o.sz o.imm
  | .vqshlr _ => true
  | .vrshr o => vrshrImmOk o.sz o.imm
  | .vmin _ | .vmax _ => true
  | .vpadd o => hasLanePairs o.q o.sz
  | .vpmax o => hasLanePairs o.q o.sz
  | .vpmin o => hasLanePairs o.q o.sz
  | .vmul _ | .vmla _ | .vmls _ => true
  | .vmull o => o.sz.isNarrow
  | .vmlal o => o.sz.isNarrow
  | .vmlsl o => o.sz.isNarrow
  | .vqdmulh o => o.sz.isFractional
  | .vqrdmulh o => o.sz.isFractional
  | .vqdmulhLane o => o.sz.isFractional && laneIdxOk o.sz o.idx
  | .vqrdmulhLane o => o.sz.isFractional && laneIdxOk o.sz o.idx
  | .vrev o => vrevImmOk o.q o.sz o.imm
  | .vzip o => hasLanePairs o.q o.sz
  | .vuzp o => hasLanePairs o.q o.sz
  | .vtrn o => hasLanePairs o.q o.sz
  | .vext o => vextImmOk o.q o.sz o.k
  | .vdup o => laneIdxOk o.sz o.imm
  | .vswp _ => true
  | .vcge _ | .vcgt _ | .vceq _ => true
  | .vcgez _ | .vcgtz _ | .vceqz _ => true
  | .vtst _ | .vbit _ => true
  | .vclz _ | .vcls _ => true
  | .vqrshrn o => o.sz.isNarrow && vqrshrnImmOk o.sz o.n
  | .vcvtF32S32 o => fbitsOk o.fbits
  | .vcvtS32F32 o => fbitsOk o.fbits
  | .vsqrt _ => true

end Sys2Proof
end

