-- ==== Sys2Proof/Decode.lean ====
section
/-! DEFINITION. The decoder of 30_encoding.md R90, steps (1) to (4), total on 32-bit words, and the encoder written from
the same tables (R81, R84, R86). Step (5), the register numbers, depends on the word alone too, but its failure is
`RegisterGroupFault`, which the meanings take (Machine/Operands.lean). -/

namespace Sys2Proof

/-- Why a word is no defined encoding. Every reason raises `IllegalInstruction` (R88). -/
inductive DecodeError where
  /-- A reserved `opc` value (R86). -/
  | reservedOpcode
  /-- A must-be-zero or fixed field holds something else (R84), or `nm1 != 0` in `VLDDUP` (R88). -/
  | fixedField
  /-- An `sz` or `Q` the instruction does not ok (R87). -/
  | widthNotAdmitted
  /-- An immediate out of range (R85). -/
  | immediateRange
  /-- `Rm != 0` with `wb != 2` in format `LS` (R88). -/
  | stepRegister
deriving DecidableEq, Repr

/-! Fields (R81, R84). -/

/-- The lane width an `sz` field names (R81). -/
def Sz.ofField (b : BitVec 2) : Sz :=
  match b.toNat with
  | 0 => .s8
  | 1 => .s16
  | 2 => .s32
  | _ => .s64

/-- The `sz` field that names a lane width (R81). -/
def Sz.field : Sz → BitVec 2
  | .s8 => 0#2
  | .s16 => 1#2
  | .s32 => 2#2
  | .s64 => 3#2

/-- Bits 31:26. -/
def fieldOpc (w : Word) : BitVec 6 := w.extractLsb' 26 6

/-- Bits 25:24. -/
def fieldSz (w : Word) : BitVec 2 := w.extractLsb' 24 2

/-- Bit 23. -/
def fieldQ (w : Word) : BitVec 1 := w.extractLsb' 23 1

/-- Bits 22:18. -/
def fieldVd (w : Word) : DReg := w.extractLsb' 18 5

/-- Bits 17:13. -/
def fieldVn (w : Word) : DReg := w.extractLsb' 13 5

/-- Bits 12:8. -/
def fieldVm (w : Word) : DReg := w.extractLsb' 8 5

/-- Bits 7:0. -/
def fieldImm (w : Word) : Imm8 := w.extractLsb' 0 8

/-- Bits 17:14 of format `LS`. -/
def fieldRn (w : Word) : RReg := w.extractLsb' 14 4

/-- Bits 13:12 of format `LS`. -/
def fieldWb (w : Word) : BitVec 2 := w.extractLsb' 12 2

/-- Bits 11:8 of format `LS`. -/
def fieldRm (w : Word) : RReg := w.extractLsb' 8 4

/-- Bits 7:6 of format `LS`. -/
def fieldNm1 (w : Word) : BitVec 2 := w.extractLsb' 6 2

/-- Bits 5:0 of format `LS`, which must be zero. -/
def fieldLow (w : Word) : BitVec 6 := w.extractLsb' 0 6

/-- Bit 17 of format `V2R`, which must be zero. -/
def fieldBit17 (w : Word) : BitVec 1 := w.extractLsb' 17 1

/-- Bits 16:13 of format `V2R`. -/
def fieldRs (w : Word) : RReg := w.extractLsb' 13 4

/-- Bits 7:2 of format `V2S`, which must be zero. -/
def fieldImmHigh (w : Word) : BitVec 6 := w.extractLsb' 2 6

/-- Bit 1 of format `V2S`. -/
def fieldDi (w : Word) : BitVec 1 := w.extractLsb' 1 1

/-- Bit 0 of format `V2S`. -/
def fieldMi (w : Word) : BitVec 1 := w.extractLsb' 0 1

/-- A one-bit field as a truth value. -/
def bitSet (b : BitVec 1) : Bool := b == 1#1

/-- The lane width of a word. -/
def wordSz (w : Word) : Sz := Sz.ofField (fieldSz w)

/-- The register width bit of a word. -/
def wordQ (w : Word) : Bool := bitSet (fieldQ w)

/-! One decoder per format. Each checks in the order of R90: the fixed fields, the widths, the immediate. -/

/-- The writeback mode of a format `LS` word. -/
def decodeWriteback (w : Word) : Writeback :=
  match (fieldWb w).toNat with
  | 0 => .keep
  | 1 => .postInc
  | 2 => .postAdd (fieldRm w)
  | _ => .postDec

/-- Format `LS`, for the constructor that the opcode and `nm1` select. -/
def decodeLS (mk : LS → Instr) (w : Word) : Except DecodeError Instr :=
  if fieldLow w ≠ 0 then .error .fixedField
  else if fieldRm w ≠ 0 ∧ fieldWb w ≠ 2 then .error .stepRegister
  else .ok (mk { sz := wordSz w, q := wordQ w, vd := fieldVd w, rn := fieldRn w, wb := decodeWriteback w })

/-- Opcode `0x01`: `nm1` selects the row (R86). -/
def decodeLoad (w : Word) : Except DecodeError Instr :=
  match (fieldNm1 w).toNat with
  | 0 => decodeLS .vld1 w
  | 1 => decodeLS .vld2 w
  | 2 => decodeLS .vld3 w
  | _ => decodeLS .vld4 w

/-- Opcode `0x02`: `nm1` selects the row (R86). -/
def decodeStore (w : Word) : Except DecodeError Instr :=
  match (fieldNm1 w).toNat with
  | 0 => decodeLS .vst1 w
  | 1 => decodeLS .vst2 w
  | 2 => decodeLS .vst3 w
  | _ => decodeLS .vst4 w

/-- Opcode `0x03`: `nm1` must be 0 (R84, R88). -/
def decodeDup (w : Word) : Except DecodeError Instr :=
  if fieldNm1 w ≠ 0 then .error .fixedField else decodeLS .vlddup w

/-- Format `V3`, for an instruction whose lane and register widths are the pairs of `ok`. -/
def decodeV3 (mk : V3 → Instr) (ok : Bool → Sz → Bool) (w : Word) : Except DecodeError Instr :=
  if fieldImm w ≠ 0 then .error .fixedField
  else if ok (wordQ w) (wordSz w) = false then .error .widthNotAdmitted
  else .ok (mk { sz := wordSz w, q := wordQ w, vd := fieldVd w, vn := fieldVn w, vm := fieldVm w })

/-- Format `V3B`. -/
def decodeV3B (mk : V3B → Instr) (w : Word) : Except DecodeError Instr :=
  if fieldImm w ≠ 0 ∨ fieldSz w ≠ 0 then .error .fixedField
  else .ok (mk { q := wordQ w, vd := fieldVd w, vn := fieldVn w, vm := fieldVm w })

/-- Format `V3W`. -/
def decodeV3W (mk : V3W → Instr) (w : Word) : Except DecodeError Instr :=
  if fieldImm w ≠ 0 ∨ fieldQ w ≠ 0 then .error .fixedField
  else if (wordSz w).isNarrow = false then .error .widthNotAdmitted
  else .ok (mk { sz := wordSz w, vd := fieldVd w, vn := fieldVn w, vm := fieldVm w })

/-- Format `V3X`. -/
def decodeV3X (mk : V3X → Instr) (immOk : Bool → Sz → Imm8 → Bool) (w : Word) : Except DecodeError Instr :=
  if immOk (wordQ w) (wordSz w) (fieldImm w) = false then .error .immediateRange
  else .ok (mk { sz := wordSz w, q := wordQ w, vd := fieldVd w, vn := fieldVn w, vm := fieldVm w, k := fieldImm w })

/-- Format `V3L`. -/
def decodeV3L (mk : V3L → Instr) (w : Word) : Except DecodeError Instr :=
  if (wordSz w).isFractional = false then .error .widthNotAdmitted
  else if laneIdxOk (wordSz w) (fieldImm w) = false then .error .immediateRange
  else .ok (mk { sz := wordSz w, q := wordQ w, vd := fieldVd w, vn := fieldVn w, vm := fieldVm w, idx := fieldImm w })

/-- Format `V2`, for an instruction whose lane and register widths are the pairs of `ok`. -/
def decodeV2 (mk : V2 → Instr) (ok : Bool → Sz → Bool) (w : Word) : Except DecodeError Instr :=
  if fieldVn w ≠ 0 ∨ fieldImm w ≠ 0 then .error .fixedField
  else if ok (wordQ w) (wordSz w) = false then .error .widthNotAdmitted
  else .ok (mk { sz := wordSz w, q := wordQ w, vd := fieldVd w, vm := fieldVm w })

/-- Format `V2B`. -/
def decodeV2B (mk : V2B → Instr) (w : Word) : Except DecodeError Instr :=
  if fieldVn w ≠ 0 ∨ fieldImm w ≠ 0 ∨ fieldSz w ≠ 0 then .error .fixedField
  else .ok (mk { q := wordQ w, vd := fieldVd w, vm := fieldVm w })

/-- Format `V2I`, for an instruction whose immediates are those of `immOk`. -/
def decodeV2I (mk : V2I → Instr) (immOk : Bool → Sz → Imm8 → Bool) (w : Word) : Except DecodeError Instr :=
  if fieldVn w ≠ 0 then .error .fixedField
  else if immOk (wordQ w) (wordSz w) (fieldImm w) = false then .error .immediateRange
  else .ok (mk { sz := wordSz w, q := wordQ w, vd := fieldVd w, vm := fieldVm w, imm := fieldImm w })

/-- Format `V2N`. -/
def decodeV2N (mk : V2N → Instr) (w : Word) : Except DecodeError Instr :=
  if fieldVn w ≠ 0 ∨ fieldQ w ≠ 0 then .error .fixedField
  else if (wordSz w).isNarrow = false then .error .widthNotAdmitted
  else if vqrshrnImmOk (wordSz w) (fieldImm w) = false then .error .immediateRange
  else .ok (mk { sz := wordSz w, vd := fieldVd w, vm := fieldVm w, n := fieldImm w })

/-- Format `V2F`. -/
def decodeV2F (mk : V2F → Instr) (w : Word) : Except DecodeError Instr :=
  if fieldVn w ≠ 0 ∨ fieldSz w ≠ 2 then .error .fixedField
  else if fbitsOk (fieldImm w) = false then .error .immediateRange
  else .ok (mk { q := wordQ w, vd := fieldVd w, vm := fieldVm w, fbits := fieldImm w })

/-- Format `V2S`. -/
def decodeV2S (mk : V2S → Instr) (w : Word) : Except DecodeError Instr :=
  if fieldVn w ≠ 0 ∨ fieldSz w ≠ 2 ∨ fieldQ w ≠ 0 ∨ fieldImmHigh w ≠ 0 then .error .fixedField
  else .ok (mk { vd := fieldVd w, vm := fieldVm w, di := bitSet (fieldDi w), mi := bitSet (fieldMi w) })

/-- Format `V2R`. -/
def decodeV2R (mk : V2R → Instr) (w : Word) : Except DecodeError Instr :=
  if fieldBit17 w ≠ 0 ∨ fieldImm w ≠ 0 then .error .fixedField
  else .ok (mk { sz := wordSz w, q := wordQ w, vd := fieldVd w, vm := fieldVm w, rs := fieldRs w })

/-- An instruction that admits every lane and register width (R87). -/
def anyWidth (_ : Bool) (_ : Sz) : Bool := true

/-- The doubling multiplies: 16 and 32 bits, both register widths (R87). -/
def fractionalWidth (_ : Bool) (sz : Sz) : Bool := sz.isFractional

/-- The decoder: step (1) of R90 selects by `opc` (R86), the format's decoder does steps (2) to (4). -/
def decode (w : Word) : Except DecodeError Instr :=
  match (fieldOpc w).toNat with
  | 0x01 => decodeLoad w
  | 0x02 => decodeStore w
  | 0x03 => decodeDup w
  | 0x08 => decodeV3 .vadd anyWidth w
  | 0x09 => decodeV3 .vsub anyWidth w
  | 0x0A => decodeV3 .vqadd anyWidth w
  | 0x0B => decodeV3 .vqsub anyWidth w
  | 0x0C => decodeV2 .vneg anyWidth w
  | 0x0D => decodeV2 .vabs anyWidth w
  | 0x0E => decodeV2 .vqneg anyWidth w
  | 0x0F => decodeV2 .vqabs anyWidth w
  | 0x10 => decodeV2I .vqshl (fun _ sz imm => vqshlImmOk sz imm) w
  | 0x11 => decodeV2R .vqshlr w
  | 0x12 => decodeV2I .vrshr (fun _ sz imm => vrshrImmOk sz imm) w
  | 0x13 => decodeV3 .vmin anyWidth w
  | 0x14 => decodeV3 .vmax anyWidth w
  | 0x15 => decodeV3 .vpadd hasLanePairs w
  | 0x16 => decodeV3 .vpmax hasLanePairs w
  | 0x17 => decodeV3 .vpmin hasLanePairs w
  | 0x18 => decodeV3 .vmul anyWidth w
  | 0x19 => decodeV3 .vmla anyWidth w
  | 0x1A => decodeV3 .vmls anyWidth w
  | 0x1B => decodeV3W .vmull w
  | 0x1C => decodeV3W .vmlal w
  | 0x1D => decodeV3W .vmlsl w
  | 0x1E => decodeV3 .vqdmulh fractionalWidth w
  | 0x1F => decodeV3 .vqrdmulh fractionalWidth w
  | 0x20 => decodeV3L .vqdmulhLane w
  | 0x21 => decodeV3L .vqrdmulhLane w
  | 0x24 => decodeV2I .vrev vrevImmOk w
  | 0x25 => decodeV2 .vzip hasLanePairs w
  | 0x26 => decodeV2 .vuzp hasLanePairs w
  | 0x27 => decodeV2 .vtrn hasLanePairs w
  | 0x28 => decodeV3X .vext vextImmOk w
  | 0x29 => decodeV2I .vdup (fun _ sz imm => laneIdxOk sz imm) w
  | 0x2A => decodeV2B .vswp w
  | 0x2C => decodeV3 .vcge anyWidth w
  | 0x2D => decodeV3 .vcgt anyWidth w
  | 0x2E => decodeV3 .vceq anyWidth w
  | 0x2F => decodeV2 .vcgez anyWidth w
  | 0x30 => decodeV2 .vcgtz anyWidth w
  | 0x31 => decodeV2 .vceqz anyWidth w
  | 0x32 => decodeV3 .vtst anyWidth w
  | 0x33 => decodeV3B .vbit w
  | 0x34 => decodeV2 .vclz anyWidth w
  | 0x35 => decodeV2 .vcls anyWidth w
  | 0x36 => decodeV2N .vqrshrn w
  | 0x37 => decodeV2F .vcvtF32S32 w
  | 0x38 => decodeV2F .vcvtS32F32 w
  | 0x39 => decodeV2S .vsqrt w
  | _ => .error .reservedOpcode

/-! The encoder. -/

/-- A word of the common layout (R81). -/
def packV (opc : BitVec 6) (sz : BitVec 2) (q : BitVec 1) (vd vn vm : DReg) (imm : Imm8) : Word :=
  opc ++ sz ++ q ++ vd ++ vn ++ vm ++ imm

/-- A word of format `LS` (R84). -/
def packLS (opc : BitVec 6) (sz : BitVec 2) (q : BitVec 1) (vd : DReg) (rn : RReg) (wb : BitVec 2) (rm : RReg)
    (nm1 : BitVec 2) : Word :=
  opc ++ sz ++ q ++ vd ++ rn ++ wb ++ rm ++ nm1 ++ 0#6

/-- The `wb` field of a writeback mode. -/
def Writeback.field : Writeback → BitVec 2
  | .keep => 0#2
  | .postInc => 1#2
  | .postAdd _ => 2#2
  | .postDec => 3#2

/-- The `Rm` field of a writeback mode: 0 unless `wb = 2` (R84). -/
def Writeback.stepField : Writeback → RReg
  | .postAdd rm => rm
  | _ => 0#4

/-- Format `LS` with the given opcode and `nm1`. -/
def LS.word (o : LS) (opc : BitVec 6) (nm1 : BitVec 2) : Word :=
  packLS opc o.sz.field (BitVec.ofBool o.q) o.vd o.rn o.wb.field o.wb.stepField nm1

/-- Format `V3`. -/
def V3.word (o : V3) (opc : BitVec 6) : Word :=
  packV opc o.sz.field (BitVec.ofBool o.q) o.vd o.vn o.vm 0#8

/-- Format `V3B`. -/
def V3B.word (o : V3B) (opc : BitVec 6) : Word :=
  packV opc 0#2 (BitVec.ofBool o.q) o.vd o.vn o.vm 0#8

/-- Format `V3W`. -/
def V3W.word (o : V3W) (opc : BitVec 6) : Word :=
  packV opc o.sz.field 0#1 o.vd o.vn o.vm 0#8

/-- Format `V3X`. -/
def V3X.word (o : V3X) (opc : BitVec 6) : Word :=
  packV opc o.sz.field (BitVec.ofBool o.q) o.vd o.vn o.vm o.k

/-- Format `V3L`. -/
def V3L.word (o : V3L) (opc : BitVec 6) : Word :=
  packV opc o.sz.field (BitVec.ofBool o.q) o.vd o.vn o.vm o.idx

/-- Format `V2`. -/
def V2.word (o : V2) (opc : BitVec 6) : Word :=
  packV opc o.sz.field (BitVec.ofBool o.q) o.vd 0#5 o.vm 0#8

/-- Format `V2B`. -/
def V2B.word (o : V2B) (opc : BitVec 6) : Word :=
  packV opc 0#2 (BitVec.ofBool o.q) o.vd 0#5 o.vm 0#8

/-- Format `V2I`. -/
def V2I.word (o : V2I) (opc : BitVec 6) : Word :=
  packV opc o.sz.field (BitVec.ofBool o.q) o.vd 0#5 o.vm o.imm

/-- Format `V2N`. -/
def V2N.word (o : V2N) (opc : BitVec 6) : Word :=
  packV opc o.sz.field 0#1 o.vd 0#5 o.vm o.n

/-- Format `V2F`. -/
def V2F.word (o : V2F) (opc : BitVec 6) : Word :=
  packV opc 2#2 (BitVec.ofBool o.q) o.vd 0#5 o.vm o.fbits

/-- Format `V2S`. -/
def V2S.word (o : V2S) (opc : BitVec 6) : Word :=
  packV opc 2#2 0#1 o.vd 0#5 o.vm (0#6 ++ BitVec.ofBool o.di ++ BitVec.ofBool o.mi)

/-- Format `V2R`. -/
def V2R.word (o : V2R) (opc : BitVec 6) : Word :=
  packV opc o.sz.field (BitVec.ofBool o.q) o.vd (0#1 ++ o.rs) o.vm 0#8

/-- The word of an instruction (R86); of a well-formed one, its encoding. -/
def encode : Instr → Word
  | .vld1 o => o.word 0x01#6 0#2
  | .vld2 o => o.word 0x01#6 1#2
  | .vld3 o => o.word 0x01#6 2#2
  | .vld4 o => o.word 0x01#6 3#2
  | .vst1 o => o.word 0x02#6 0#2
  | .vst2 o => o.word 0x02#6 1#2
  | .vst3 o => o.word 0x02#6 2#2
  | .vst4 o => o.word 0x02#6 3#2
  | .vlddup o => o.word 0x03#6 0#2
  | .vadd o => o.word 0x08#6
  | .vsub o => o.word 0x09#6
  | .vqadd o => o.word 0x0A#6
  | .vqsub o => o.word 0x0B#6
  | .vneg o => o.word 0x0C#6
  | .vabs o => o.word 0x0D#6
  | .vqneg o => o.word 0x0E#6
  | .vqabs o => o.word 0x0F#6
  | .vqshl o => o.word 0x10#6
  | .vqshlr o => o.word 0x11#6
  | .vrshr o => o.word 0x12#6
  | .vmin o => o.word 0x13#6
  | .vmax o => o.word 0x14#6
  | .vpadd o => o.word 0x15#6
  | .vpmax o => o.word 0x16#6
  | .vpmin o => o.word 0x17#6
  | .vmul o => o.word 0x18#6
  | .vmla o => o.word 0x19#6
  | .vmls o => o.word 0x1A#6
  | .vmull o => o.word 0x1B#6
  | .vmlal o => o.word 0x1C#6
  | .vmlsl o => o.word 0x1D#6
  | .vqdmulh o => o.word 0x1E#6
  | .vqrdmulh o => o.word 0x1F#6
  | .vqdmulhLane o => o.word 0x20#6
  | .vqrdmulhLane o => o.word 0x21#6
  | .vrev o => o.word 0x24#6
  | .vzip o => o.word 0x25#6
  | .vuzp o => o.word 0x26#6
  | .vtrn o => o.word 0x27#6
  | .vext o => o.word 0x28#6
  | .vdup o => o.word 0x29#6
  | .vswp o => o.word 0x2A#6
  | .vcge o => o.word 0x2C#6
  | .vcgt o => o.word 0x2D#6
  | .vceq o => o.word 0x2E#6
  | .vcgez o => o.word 0x2F#6
  | .vcgtz o => o.word 0x30#6
  | .vceqz o => o.word 0x31#6
  | .vtst o => o.word 0x32#6
  | .vbit o => o.word 0x33#6
  | .vclz o => o.word 0x34#6
  | .vcls o => o.word 0x35#6
  | .vqrshrn o => o.word 0x36#6
  | .vcvtF32S32 o => o.word 0x37#6
  | .vcvtS32F32 o => o.word 0x38#6
  | .vsqrt o => o.word 0x39#6

/-- The instruction the decoder reads from a row's bits. VALU has one 32-bit word per instruction and no byte order for
it (R52, R80): bits from `nbits` up are 0. -/
def decodeTableWord (nbits w : Nat) : Option Instr :=
  match decode (BitVec.ofNat 32 (w % 2 ^ nbits)) with
  | .ok i => some i
  | .error _ => none

end Sys2Proof
end

