-- ==== Sys2Proof/Machine/Lane.lean ====
section
/-! DEFINITION. The pseudocode primitives of 00_scope.md R9 that need no state (lanes, wrapping, saturation, shifts) and
the lane functions of the arithmetic, multiply and counting rules. Arithmetic is on unbounded integers and is narrowed
only by `wrap` and `sat` (R8). -/

namespace Sys2Proof.Machine

/-! Lanes. -/

/-- `lane_w(v, i)` (R9, R24): bits `[w*i + w - 1 : w*i]` of `v`. -/
def lane (w : Nat) (v : Vec) (i : Nat) : BitVec w := v.extractLsb' (w * i) w

/-- The vector whose lanes `0 .. n-1` of width `w` are `f 0 .. f (n-1)` and whose other bits are zero. -/
def ofLanes (w : Nat) : (n : Nat) → (Nat → BitVec w) → Vec
  | 0, _ => 0
  | n + 1, f => ofLanes w n f ||| ((f n).setWidth 128 <<< (w * n))

/-! Wrapping, saturation, shift (R9). -/

/-- `wrap_w(z)`: two's-complement truncation. -/
def wrap (w : Nat) (z : Int) : BitVec w := BitVec.ofInt w z

/-- `MIN_w`. -/
def minInt (w : Nat) : Int := -(2 ^ (w - 1))

/-- `MAX_w`. -/
def maxInt (w : Nat) : Int := 2 ^ (w - 1) - 1

/-- `sat_w(z)`: signed saturation of an integer to `w` bits. -/
def sat (w : Nat) (z : Int) : BitVec w := wrap w (min (max z (minInt w)) (maxInt w))

/-- `asr(z, n) = floor(z / 2^n)`. -/
def asr (z : Int) (n : Nat) : Int := z / 2 ^ n

/-! Lane functions of 41_arithmetic.md. -/

/-- R152. -/
def laneAdd {w : Nat} (x y : BitVec w) : BitVec w := wrap w (x.toInt + y.toInt)

/-- R153. -/
def laneSub {w : Nat} (x y : BitVec w) : BitVec w := wrap w (x.toInt - y.toInt)

/-- R154. -/
def laneQadd {w : Nat} (x y : BitVec w) : BitVec w := sat w (x.toInt + y.toInt)

/-- R155. -/
def laneQsub {w : Nat} (x y : BitVec w) : BitVec w := sat w (x.toInt - y.toInt)

/-- R156. -/
def laneNeg {w : Nat} (x : BitVec w) : BitVec w := wrap w (-x.toInt)

/-- R157. -/
def laneAbs {w : Nat} (x : BitVec w) : BitVec w := wrap w |x.toInt|

/-- R158. -/
def laneQneg {w : Nat} (x : BitVec w) : BitVec w := sat w (-x.toInt)

/-- R159. -/
def laneQabs {w : Nat} (x : BitVec w) : BitVec w := sat w |x.toInt|

/-- `shl_sat_w(x, s)` of R165. The amount is cut off at `w` in both directions, past which the result no longer changes
(DEDUCED, assumption log 16), so that the 32-bit amounts of `VQSHLR` need no astronomically large powers. -/
def shlSat {w : Nat} (x : BitVec w) (s : Int) : BitVec w :=
  if 0 ≤ s then sat w (x.toInt * 2 ^ min s.toNat w) else wrap w (asr x.toInt (min (-s).toNat w))

/-- R169: the rounding right shift; the sum is on unbounded integers. -/
def laneRshr {w : Nat} (x : BitVec w) (n : Nat) : BitVec w := wrap w (asr (x.toInt + 2 ^ (n - 1)) n)

/-- R170, R175. -/
def laneMin {w : Nat} (x y : BitVec w) : BitVec w := if x.toInt ≤ y.toInt then x else y

/-- R171, R174. -/
def laneMax {w : Nat} (x y : BitVec w) : BitVec w := if y.toInt ≤ x.toInt then x else y

/-! Lane functions of 42_multiply.md. -/

/-- R191. -/
def laneMul {w : Nat} (x y : BitVec w) : BitVec w := wrap w (x.toInt * y.toInt)

/-- R192: `d` is the accumulator lane. -/
def laneMla {w : Nat} (d x y : BitVec w) : BitVec w := wrap w (d.toInt + x.toInt * y.toInt)

/-- R193. -/
def laneMls {w : Nat} (d x y : BitVec w) : BitVec w := wrap w (d.toInt - x.toInt * y.toInt)

/-- R195: narrow by narrow to wide. -/
def laneMull {w : Nat} (x y : BitVec w) : BitVec (2 * w) := wrap (2 * w) (x.toInt * y.toInt)

/-- R196. -/
def laneMlal {w : Nat} (d : BitVec (2 * w)) (x y : BitVec w) : BitVec (2 * w) :=
  wrap (2 * w) (d.toInt + x.toInt * y.toInt)

/-- R197. -/
def laneMlsl {w : Nat} (d : BitVec (2 * w)) (x y : BitVec w) : BitVec (2 * w) :=
  wrap (2 * w) (d.toInt - x.toInt * y.toInt)

/-- `qdmulh_w` of R198. -/
def qdmulh {w : Nat} (x y : BitVec w) : BitVec w := sat w (asr (x.toInt * y.toInt) (w - 1))

/-- `qrdmulh_w` of R199. -/
def qrdmulh {w : Nat} (x y : BitVec w) : BitVec w := sat w (asr (x.toInt * y.toInt + 2 ^ (w - 2)) (w - 1))

/-! Counting and narrowing, 45_conversion_misc.md. -/

/-- How many consecutive bits of `x`, counted down from bit `n - 1`, equal `b`. -/
def countDown {w : Nat} (x : BitVec w) (b : Bool) : Nat → Nat
  | 0 => 0
  | n + 1 => if x.getLsbD n = b then countDown x b n + 1 else 0

/-- `clz_w` of R271: the 0 bits counted down from bit `w - 1`. -/
def clz {w : Nat} (x : BitVec w) : Nat := countDown x false w

/-- `cls_w` of R272: the bits counted down from bit `w - 2` that equal bit `w - 1`. -/
def cls {w : Nat} (x : BitVec w) : Nat := countDown x x.msb (w - 1)

/-- R271. -/
def laneClz {w : Nat} (x : BitVec w) : BitVec w := wrap w (clz x)

/-- R272. -/
def laneCls {w : Nat} (x : BitVec w) : BitVec w := wrap w (cls x)

/-- R273: a wide lane shifted right by `n` with rounding, saturated to the narrow width. -/
def laneNarrow {w : Nat} (x : BitVec (2 * w)) (n : Nat) : BitVec w := sat w (asr (x.toInt + 2 ^ (n - 1)) n)

end Sys2Proof.Machine
end

