-- ==== Sys2Proof/Machine/Flags.lean ====
section
/-! DEFINITION. VALU has no flags, no condition codes and no sticky saturation bit (10_state.md R30): a compare's outcome
is a lane mask in an ordinary vector register. This file holds the mask convention of 44_compare_select.md R250 and the
conditions of R252 to R258, and the bit merge of R259. -/

namespace Sys2Proof.Machine

/-- `mask_w(p)` of R250: all-ones when `p` holds, zero otherwise. -/
def mask (w : Nat) (p : Bool) : BitVec w := if p then wrap w (-1) else 0

/-- R252: signed `>=`. -/
def laneCge {w : Nat} (x y : BitVec w) : BitVec w := mask w (decide (y.toInt ≤ x.toInt))

/-- R253: signed `>`. -/
def laneCgt {w : Nat} (x y : BitVec w) : BitVec w := mask w (decide (y.toInt < x.toInt))

/-- R254: equality of the patterns. -/
def laneCeq {w : Nat} (x y : BitVec w) : BitVec w := mask w (decide (x = y))

/-- R255. -/
def laneCgez {w : Nat} (x : BitVec w) : BitVec w := mask w (decide (0 ≤ x.toInt))

/-- R256. -/
def laneCgtz {w : Nat} (x : BitVec w) : BitVec w := mask w (decide (0 < x.toInt))

/-- R257. -/
def laneCeqz {w : Nat} (x : BitVec w) : BitVec w := mask w (decide (x = 0))

/-- R258. -/
def laneTst {w : Nat} (x y : BitVec w) : BitVec w := mask w (decide (x &&& y ≠ 0))

/-- R259: `dst`'s unmasked bits are preserved. -/
def bitSelect (d s m : Vec) : Vec := (s &&& m) ||| (d &&& ~~~m)

end Sys2Proof.Machine
end

