-- ==== Sys2Proof/Config.lean ====
section
/-! DEFINITION. What the spec leaves to an implementation: the open configuration functions (00_scope.md R7) and the
free values a reset leaves in the registers (10_state.md R35). None has a body: nothing can be proved of their values. -/

namespace Sys2Proof

/-- `SQRT_FN` of 45_conversion_misc.md R277: total on its domain `[0, 0x7FFFFFFF]`, the 31-bit patterns; the spec gives
no other constraint. OPEN parameter (decision D29), assumption log 10. -/
opaque Config.sqrtFn : BitVec 31 → Word

/-- `CVT_FIX2FLT` of R274 where (E1) does not fix it: the encoding given to an inexact value. OPEN parameter (decision
D28), assumption log 8. -/
opaque Config.fixToFloatOpen : Word → Nat → Word

/-- `CVT_FLT2FIX` of R274 where (E2) does not fix it: fractions, out-of-range values, infinities, NaN. OPEN parameter
(decision D28), assumption log 8. -/
opaque Config.floatToFixOpen : Word → Nat → Word

/-- What a D register holds after the host's `k`-th reset: UNSPECIFIED (R35, R330). Free value, assumption log 6. -/
opaque Config.dAfterReset : Nat → DReg → DWord

/-- What an R register holds after the host's `k`-th reset: UNSPECIFIED (R35, R330). Free value, assumption log 6. -/
opaque Config.rAfterReset : Nat → RReg → Word

end Sys2Proof
end

