-- ==== Sys2Proof/Machine/Memory.lean ====
section
/-! DEFINITION. Data memory (20_memory.md R50 to R54): a list of (address, byte) cells in one canonical form, addresses
strictly rising and no cell equal to what an unlisted address reads as, so that equal memories are equal lists. -/

namespace Sys2Proof.Machine

/-- What a byte nothing has written reads as. The spec leaves memory at power-up UNSPECIFIED (R35); DESIGN CHOICE 0,
unsafe, assumption log 4. -/
def Memory.unlisted : Byte := 0

/-- The canonical form: addresses strictly rising, no cell holding the unlisted byte. -/
def Memory.wf : List Host.Cell → Bool
  | [] => true
  | c :: m => c.2 != Memory.unlisted && m.all (fun c' => decide (c.1 < c'.1)) && Memory.wf m

/-- One byte of memory (R50). -/
def Memory.read : List Host.Cell → Nat → Byte
  | [], _ => Memory.unlisted
  | c :: m, a => if c.1 = a then c.2 else Memory.read m a

/-- Put a cell at its place in a list that does not hold its address; the unlisted byte is not put. -/
def Memory.insert (a : Nat) (b : Byte) : List Host.Cell → List Host.Cell
  | [] => if b = Memory.unlisted then [] else [(a, b)]
  | c :: m =>
    if a < c.1 then (if b = Memory.unlisted then c :: m else (a, b) :: c :: m) else c :: Memory.insert a b m

/-- Write one byte of memory (R50). -/
def Memory.write (m : List Host.Cell) (a : Nat) (b : Byte) : List Host.Cell :=
  Memory.insert a b (m.filter fun c => c.1 != a)

/-- Write the bytes `f 0 .. f (n-1)` at `a .. a+n-1`, in ascending order. -/
def Memory.writeBytes (m : List Host.Cell) (a : Nat) : (n : Nat) → (Nat → Byte) → List Host.Cell
  | 0, _ => m
  | n + 1, f => Memory.write (Memory.writeBytes m a n f) (a + n) (f n)

/-- `MemRead(a, w/8)` of R9, R52: little-endian, bits `[8j+7 : 8j]` are the byte at `a + j`. -/
def Memory.readElem (m : List Host.Cell) (a w : Nat) : BitVec w :=
  (ofLanes 8 (w / 8) fun j => Memory.read m (a + j)).setWidth w

/-- `MemWrite(a, w/8, v)` of R9, R52: little-endian. -/
def Memory.writeElem (m : List Host.Cell) (a w : Nat) (v : BitVec w) : List Host.Cell :=
  Memory.writeBytes m a (w / 8) fun j => lane 8 (v.setWidth 128) j

/-- The element writes of R123 for `e = 0 .. n-1`, in ascending order (R58 lets a model choose the order): element `e`
at `a + e*(w/8)` (R53). -/
def Memory.writeElems (m : List Host.Cell) (a w : Nat) : (n : Nat) → (Nat → BitVec w) → List Host.Cell
  | 0, _ => m
  | n + 1, elem => Memory.writeElem (Memory.writeElems m a w n elem) (a + n * (w / 8)) w (elem n)

end Sys2Proof.Machine
end

