-- ==== Sys2Proof/Machine/State.lean ====
section
/-! DEFINITION. The state of VALU (10_state.md R20, R29), the host's moves (60_exceptions.md R317), the fault causes
(R290), the model's own stops, and the state after reset (R35, R330). -/

namespace Sys2Proof.Machine

/-- A move of the host between instructions (00_scope.md R14, R16, R17; 60_exceptions.md R317). Reading is no move: it
changes nothing. -/
inductive HostMove where
  /-- Present one instruction word at the issue port (R14). -/
  | issue (w : Word)
  /-- Write a D register (R16). -/
  | writeD (i : DReg) (v : DWord)
  /-- Write an R register (R16). -/
  | writeR (i : RReg) (v : Word)
  /-- Write a byte of data memory (R16). -/
  | writeByte (a : Word) (b : Byte)
  /-- Reset the block (R17, R330). -/
  | reset
deriving DecidableEq, Repr

/-- The causes of a VALU fault, in the order of their codes (R290). They are taken as next states (R296). -/
inductive Cause where
  /-- Code 1: the word is no defined encoding (R291). -/
  | illegalInstruction
  /-- Code 2: an odd number in a Q-typed field, a group past `D31`, or `Vd = Vm` where forbidden (R292). -/
  | registerGroup
  /-- Code 3: a misaligned base address (R293). -/
  | alignment
  /-- Code 4: a transfer not inside the data memory (R294). -/
  | access
  /-- Code 5: the square root of a negative lane (R295). -/
  | domain
deriving DecidableEq, Repr

/-- What stops the model itself. A VALU fault is no such stop: it is a next state with the fault recorded (R296). -/
inductive Fault where
  /-- The host port raises it: a word is presented in state FAULTED, where the block accepts none until reset (R14, R31,
  R298). Safe: the block never executes it (R317). -/
  | stoppedUntilReset
  /-- The host port raises it: the host writes a byte at an address not below `MEM_BYTES`, which does not exist (R50,
  R59). Safe: it is no move the spec gives the host. -/
  | noSuchByte
deriving DecidableEq, Repr

/-- Why the model gives no meaning. -/
inductive Refusal where
  /-- `exec` would raise it for an instruction without a meaning, by its table mnemonic; no arm does. Safe. -/
  | notModelled (mnemonic : String)
deriving DecidableEq, Repr

/-- The architectural state of VALU (R20), with three fields of the model's own: `memTop`, `host`, `resets`. -/
structure State where
  /-- `D0` .. `D31` (R21); `Qk` is `D(2k+1) : D(2k)` (R22). -/
  d : Vector DWord 32
  /-- `R0` .. `R15` (R27). -/
  r : Vector Word 16
  /-- The issue index (R28), read as `VPC` (R32). -/
  pc : Word
  /-- `VSTATE.F`: false is READY, true is FAULTED (R31). -/
  faulted : Bool
  /-- `FCAUSE.CAUSE` (R32, R290). -/
  fcause : BitVec 3
  /-- `FPC` (R32). -/
  fpc : Word
  /-- `FINST` (R32). -/
  finst : Word
  /-- `FADDR` (R32). -/
  faddr : Word
  /-- Data memory (R50), in the canonical form of Machine/Memory.lean. -/
  mem : List Host.Cell
  /-- The model's own: `MEM_BYTES - 1`, the open parameter of R7, which no step changes (assumption log 5). -/
  memTop : Word
  /-- The model's own: the host's pending moves, first move first (assumption log 1). -/
  host : List HostMove
  /-- The model's own: how many resets the host has applied, the index of the free values of a reset (assumption log 6). -/
  resets : Nat
deriving DecidableEq, Repr

/-- The machine right after reset (R35, R330): READY, `pc = 0`, no fault recorded, as the spec says; `D` and `R` at zero
and no memory byte listed (DESIGN CHOICE, assumption log 2, 3, 4); `MEM_BYTES = 0x1000` (DESIGN CHOICE, log 5); no move of
the host pending (log 1). -/
def State.reset : State where
  d := Vector.replicate 32 0
  r := Vector.replicate 16 0
  pc := 0
  faulted := false
  fcause := 0
  fpc := 0
  finst := 0
  faddr := 0
  mem := []
  memTop := 0xFFF
  host := []
  resets := 0

/-- The outcome of a meaning. -/
abbrev Result := Host.Outcome State Fault Refusal

end Sys2Proof.Machine
end

