-- ==== Sys2Proof/Machine/Ops.lean ====
section
/-! DEFINITION. The operations every meaning is made of: register and memory access, completion, taking a fault
(60_exceptions.md R296), the reset event (70_reset_and_hazards.md R330), and the host's read-back (10_state.md R32). -/

namespace Sys2Proof.Machine

/-! Registers. -/

/-- `D[i]` (R9, R21). -/
def State.readD (s : State) (i : DReg) : DWord := s.d[i.toNat]'i.isLt

/-- `D[i] <- v` (R9, R21). -/
def State.writeD (s : State) (i : DReg) (v : DWord) : State := { s with d := s.d.set i.toNat v i.isLt }

/-- `R[i]` (R9, R27). -/
def State.readR (s : State) (i : RReg) : Word := s.r[i.toNat]'i.isLt

/-- `R[i] <- v` (R9, R27). -/
def State.writeR (s : State) (i : RReg) (v : Word) : State := { s with r := s.r.set i.toNat v i.isLt }

/-! Data memory. -/

/-- `MEM_BYTES`, between 1 and `2^32` (R7). -/
def State.memBytes (s : State) : Nat := s.memTop.toNat + 1

/-- One byte of data memory (R50). Only an address below `MEM_BYTES` has a byte: no instruction and no host read asks for
another. For those the spec says nothing, and this look-up of the list, total for the statements' sake, answers the
unlisted byte (DESIGN CHOICE, assumption log 22). -/
def State.readMem (s : State) (a : Nat) : Byte := Memory.read s.mem a

/-- Replace the data memory. -/
def State.setMem (s : State) (m : List Host.Cell) : State := { s with mem := m }

/-! Completion and faults. -/

/-- Completion without fault: `pc <- (pc + 1) mod 2^32` (R28). -/
def State.advance (s : State) : State := { s with pc := s.pc + 1 }

/-- The code of a cause (R290). -/
def Cause.code : Cause → BitVec 3
  | .illegalInstruction => 1
  | .registerGroup => 2
  | .alignment => 3
  | .access => 4
  | .domain => 5

/-- Taking a fault (R296): cause, `pc`, word and address are recorded, the block becomes FAULTED, nothing else changes.
There is no handler and no return (R300): only `State.hostReset` leaves FAULTED. -/
def State.takeFault (s : State) (c : Cause) (inst addr : Word) : State :=
  { s with fcause := c.code, fpc := s.pc, finst := inst, faddr := addr, faulted := true }

/-- An instruction raises a fault: the next state is the fault's entry. -/
def raise (c : Cause) (inst addr : Word) (s : State) : Result := .next (s.takeFault c inst addr)

/-- The reset event (R330): READY, `pc` and the fault record 0, memory unchanged, every D and R register UNSPECIFIED (free
values, new at every reset, assumption log 6). -/
def State.hostReset (s : State) : State :=
  { s with
    d := Vector.ofFn fun i => Config.dAfterReset s.resets (BitVec.ofNat 5 i.val)
    r := Vector.ofFn fun i => Config.rAfterReset s.resets (BitVec.ofNat 4 i.val)
    pc := 0
    faulted := false
    fcause := 0
    fpc := 0
    finst := 0
    faddr := 0
    resets := s.resets + 1 }

/-! The host's read-back. -/

/-- The host's read of a byte of data memory (R16, R317). At an address not below `MEM_BYTES` there is no byte (R59) and
the spec gives the host no such read: it gives no value (DESIGN CHOICE, assumption log 22). -/
def State.readByte (s : State) (a : Word) : Option Byte :=
  if a.toNat < s.memBytes then some (s.readMem a.toNat) else none

/-- A status register by its number (R32): `VSTATE`, `VPC`, `FCAUSE`, `FPC`, `FINST`, `FADDR`. Numbers 6 and above do not
exist (assumption log 18). -/
def State.readStatus (s : State) (n : Nat) : Option Word :=
  match n with
  | 0 => some ((BitVec.ofBool s.faulted).setWidth 32)
  | 1 => some s.pc
  | 2 => some (s.fcause.setWidth 32)
  | 3 => some s.fpc
  | 4 => some s.finst
  | 5 => some s.faddr
  | _ => none

end Sys2Proof.Machine
end

