-- ==== Sys2Proof/Machine/Operands.lean ====
section
/-! DEFINITION. Operand forms: vector operands `V(r, Q)` (00_scope.md R9), register groups (10_state.md R26), the register
conditions of 30_encoding.md R89 per format, writeback (40_load_store.md R122), and the templates that the meanings
share. Every template reads all sources from the state it is given and writes afterwards (R10). -/

namespace Sys2Proof.Machine

/-! Vector operands. -/

/-- `V(r, Q)` (R9): `D[r]`, or `D[r+1] : D[r]`. -/
def State.readV (s : State) (r : DReg) (q : Bool) : Vec :=
  if q then s.readD (r + 1#5) ++ s.readD r else (s.readD r).setWidth 128

/-- `V(r, Q) <- v` (R9). -/
def State.writeV (s : State) (r : DReg) (q : Bool) (v : Vec) : State :=
  if q then (s.writeD r (v.setWidth 64)).writeD (r + 1#5) (v.extractLsb' 64 64) else s.writeD r (v.setWidth 64)

/-- Distance in D numbers between registers of a group (R120). -/
def groupStride (q : Bool) : Nat := if q then 2 else 1

/-- The D number of register `k` of the group that starts at `vd` (R26, R120). -/
def groupReg (vd : DReg) (q : Bool) (k : Nat) : DReg := vd + BitVec.ofNat 5 (k * groupStride q)

/-- Write registers `0 .. n-1` of a group. -/
def State.writeGroup (s : State) (vd : DReg) (q : Bool) : (n : Nat) → (Nat → Vec) → State
  | 0, _ => s
  | n + 1, f => (s.writeGroup vd q n f).writeV (groupReg vd q n) q (f n)

/-! Register conditions (R89, R292). -/

/-- A field that names a Q register holds an even number (R23); a D field holds any. -/
def kindOk (q : Bool) (r : DReg) : Bool := !q || r.toNat % 2 == 0

end Sys2Proof.Machine

namespace Sys2Proof

/-- A group of `n` registers fits the register file: `Vd` even when `Q=1`, `Vd + (n-1)*stride + Q <= 31` (R120). -/
def LS.regsOk (o : LS) (n : Nat) : Bool :=
  Machine.kindOk o.q o.vd && decide (o.vd.toNat + (n - 1) * Machine.groupStride o.q + o.q.toNat ≤ 31)

/-- All three fields are of the kind of `Q` (R83). -/
def V3.regsOk (o : V3) : Bool := Machine.kindOk o.q o.vd && Machine.kindOk o.q o.vn && Machine.kindOk o.q o.vm

/-- As format `V3`. -/
def V3B.regsOk (o : V3B) : Bool := Machine.kindOk o.q o.vd && Machine.kindOk o.q o.vn && Machine.kindOk o.q o.vm

/-- `Vd` is a Q register (R194). -/
def V3W.regsOk (o : V3W) : Bool := Machine.kindOk true o.vd

/-- As format `V3`. -/
def V3X.regsOk (o : V3X) : Bool := Machine.kindOk o.q o.vd && Machine.kindOk o.q o.vn && Machine.kindOk o.q o.vm

/-- `Vm` is a D register whatever `Q` is (R202). -/
def V3L.regsOk (o : V3L) : Bool := Machine.kindOk o.q o.vd && Machine.kindOk o.q o.vn

/-- Both fields are of the kind of `Q`. -/
def V2.regsOk (o : V2) : Bool := Machine.kindOk o.q o.vd && Machine.kindOk o.q o.vm

/-- The two registers of `VZIP`, `VUZP`, `VTRN` must also differ (R220). -/
def V2.pairOk (o : V2) : Bool := o.regsOk && decide (o.vd ≠ o.vm)

/-- `VSWP` (R220, R229). -/
def V2B.pairOk (o : V2B) : Bool := Machine.kindOk o.q o.vd && Machine.kindOk o.q o.vm && decide (o.vd ≠ o.vm)

/-- Both fields are of the kind of `Q`. -/
def V2I.regsOk (o : V2I) : Bool := Machine.kindOk o.q o.vd && Machine.kindOk o.q o.vm

/-- `VDUP`: `Vm` is a D register whatever `Q` is (R228). -/
def V2I.dupOk (o : V2I) : Bool := Machine.kindOk o.q o.vd

/-- `Vm` is a Q register (R273). -/
def V2N.regsOk (o : V2N) : Bool := Machine.kindOk true o.vm

/-- Both fields are of the kind of `Q`. -/
def V2F.regsOk (o : V2F) : Bool := Machine.kindOk o.q o.vd && Machine.kindOk o.q o.vm

/-- Both fields are of the kind of `Q`. -/
def V2R.regsOk (o : V2R) : Bool := Machine.kindOk o.q o.vd && Machine.kindOk o.q o.vm

end Sys2Proof

namespace Sys2Proof.Machine

/-! Templates. `inst` is the instruction word, for `FINST` (R296). -/

/-- Complete with the state `t` when the register conditions hold; otherwise `RegisterGroupFault` (R90 step 5, R292). -/
def completeIf (regsOk : Bool) (inst : Word) (s t : State) : Result :=
  if regsOk then .next t.advance else raise .registerGroup inst 0 s

/-- The three-register template of 41_arithmetic.md R150. -/
def lanewise3 (inst : Word) (o : V3) (f : BitVec o.sz.bits → BitVec o.sz.bits → BitVec o.sz.bits) (s : State) : Result :=
  completeIf o.regsOk inst s <|
    s.writeV o.vd o.q <| ofLanes o.sz.bits (laneCount o.q o.sz) fun i =>
      f (lane o.sz.bits (s.readV o.vn o.q) i) (lane o.sz.bits (s.readV o.vm o.q) i)

/-- The accumulating form of the template: the destination lane is the first operand (R192). -/
def accumulate3 (inst : Word) (o : V3)
    (f : BitVec o.sz.bits → BitVec o.sz.bits → BitVec o.sz.bits → BitVec o.sz.bits) (s : State) : Result :=
  completeIf o.regsOk inst s <|
    s.writeV o.vd o.q <| ofLanes o.sz.bits (laneCount o.q o.sz) fun i =>
      f (lane o.sz.bits (s.readV o.vd o.q) i) (lane o.sz.bits (s.readV o.vn o.q) i) (lane o.sz.bits (s.readV o.vm o.q) i)

/-- The pairwise template of R172: the lower half from `Vn`'s pairs, the upper half from `Vm`'s. -/
def pairwise3 (inst : Word) (o : V3) (g : BitVec o.sz.bits → BitVec o.sz.bits → BitVec o.sz.bits) (s : State) : Result :=
  completeIf o.regsOk inst s <|
    s.writeV o.vd o.q <| ofLanes o.sz.bits (laneCount o.q o.sz) fun i =>
      if i < laneCount o.q o.sz / 2 then
        g (lane o.sz.bits (s.readV o.vn o.q) (2 * i)) (lane o.sz.bits (s.readV o.vn o.q) (2 * i + 1))
      else
        g (lane o.sz.bits (s.readV o.vm o.q) (2 * (i - laneCount o.q o.sz / 2)))
          (lane o.sz.bits (s.readV o.vm o.q) (2 * (i - laneCount o.q o.sz / 2) + 1))

/-- The two-register template of R150, over the operands any two-register format has. -/
def lanewise2 (inst : Word) (regsOk : Bool) (sz : Sz) (q : Bool) (vd vm : DReg) (f : BitVec sz.bits → BitVec sz.bits)
    (s : State) : Result :=
  completeIf regsOk inst s <|
    s.writeV vd q <| ofLanes sz.bits (laneCount q sz) fun i => f (lane sz.bits (s.readV vm q) i)

/-- The widening template of 42_multiply.md R194: lane `i` of `2w` bits from the accumulator lane and the narrow lanes. -/
def widening (inst : Word) (o : V3W)
    (f : BitVec (2 * o.sz.bits) → BitVec o.sz.bits → BitVec o.sz.bits → BitVec (2 * o.sz.bits)) (s : State) : Result :=
  completeIf o.regsOk inst s <|
    s.writeV o.vd true <| ofLanes (2 * o.sz.bits) (64 / o.sz.bits) fun i =>
      f (lane (2 * o.sz.bits) (s.readV o.vd true) i) (lane o.sz.bits (s.readV o.vn false) i)
        (lane o.sz.bits (s.readV o.vm false) i)

/-- The by-lane template of R202: one lane of the D register `Vm` is the scalar. -/
def byLane (inst : Word) (o : V3L) (f : BitVec o.sz.bits → BitVec o.sz.bits → BitVec o.sz.bits) (s : State) : Result :=
  completeIf o.regsOk inst s <|
    s.writeV o.vd o.q <| ofLanes o.sz.bits (laneCount o.q o.sz) fun i =>
      f (lane o.sz.bits (s.readV o.vn o.q) i) (lane o.sz.bits (s.readV o.vm false) o.idx.toNat)

/-- The two-destination template of 43_shuffle.md: destination lanes from the lanes of both operands. -/
def shufflePair (inst : Word) (o : V2) (ra rb : (Nat → BitVec o.sz.bits) → (Nat → BitVec o.sz.bits) → Nat → BitVec o.sz.bits)
    (s : State) : Result :=
  completeIf o.pairOk inst s <|
    (s.writeV o.vd o.q <| ofLanes o.sz.bits (laneCount o.q o.sz) fun i =>
      ra (lane o.sz.bits (s.readV o.vd o.q)) (lane o.sz.bits (s.readV o.vm o.q)) i).writeV o.vm o.q <|
    ofLanes o.sz.bits (laneCount o.q o.sz) fun i =>
      rb (lane o.sz.bits (s.readV o.vd o.q)) (lane o.sz.bits (s.readV o.vm o.q)) i

/-! Transfers. -/

end Sys2Proof.Machine

namespace Sys2Proof

/-- The base address `A` of a transfer (R120). -/
def LS.base (o : LS) (s : Machine.State) : Word := s.readR o.rn

/-- The number of bytes moved by a group transfer, `T = n * regbits(Q)/8` (R57, R120). -/
def LS.bytes (o : LS) (n : Nat) : Nat := n * (regBits o.q / 8)

/-- What a transfer of `t` bytes at the base address raises, alignment before access (R51, R55, R299). -/
def LS.transferFault (o : LS) (t : Nat) (s : Machine.State) : Option Machine.Cause :=
  if (o.base s).toNat % o.sz.bytes ≠ 0 then some .alignment
  else if s.memBytes < (o.base s).toNat + t then some .access
  else none

/-- What the writeback leaves in `R[Rn]` after `n` bytes moved, modulo `2^32` (R122); base and step are read from the
state before the instruction. -/
def LS.newBase (o : LS) (n : Nat) (s : Machine.State) : Word :=
  match o.wb with
  | .keep => o.base s
  | .postInc => o.base s + BitVec.ofNat 32 n
  | .postAdd rm => o.base s + s.readR rm
  | .postDec => o.base s - BitVec.ofNat 32 n

/-- The base writeback (R122): `s` is the state before the instruction, `t` the state with the transfer done. -/
def LS.writeback (o : LS) (n : Nat) (s t : Machine.State) : Machine.State :=
  if o.wb = .keep then t else t.writeR o.rn (o.newBase n s)

end Sys2Proof

namespace Sys2Proof.Machine

/-- The shared shape of every load and store (40_load_store.md sections 2 to 4): the register condition of a group of `n`,
then alignment, then access, then the transfer's effect `t` and the writeback. -/
def transfer (inst : Word) (o : LS) (n bytes : Nat) (s t : State) : Result :=
  if o.regsOk n then
    match o.transferFault bytes s with
    | some c => raise c inst (o.base s) s
    | none => .next (o.writeback bytes s t).advance
  else raise .registerGroup inst 0 s

/-- The structured load of `n` registers (R121): lane `i` of register `k` gets element `i*n + k`. -/
def loadGroup (inst : Word) (o : LS) (n : Nat) (s : State) : Result :=
  transfer inst o n (o.bytes n) s <|
    s.writeGroup o.vd o.q n fun k => ofLanes o.sz.bits (laneCount o.q o.sz) fun i =>
      Memory.readElem s.mem ((o.base s).toNat + (i * n + k) * o.sz.bytes) o.sz.bits

/-- The structured store of `n` registers (R123): element `i*n + k` is lane `i` of register `k`. -/
def storeGroup (inst : Word) (o : LS) (n : Nat) (s : State) : Result :=
  transfer inst o n (o.bytes n) s <|
    s.setMem <| Memory.writeElems s.mem (o.base s).toNat o.sz.bits (n * laneCount o.q o.sz) fun e =>
      lane o.sz.bits (s.readV (groupReg o.vd o.q (e % n)) o.q) (e / n)

end Sys2Proof.Machine
end

