-- ==== Sys2Proof/Machine/Arithmetic.lean ====
section
/-! DEFINITION. vector_alu arithmetic (41_arithmetic.md): add, subtract, negate, absolute value, shifts, minimum, maximum,
pairwise reduce. -/

namespace Sys2Proof.Machine

/-- `VADD` (R152): wrapping add. -/
def execVadd (o : V3) (s : State) : Result := lanewise3 (encode (.vadd o)) o laneAdd s

/-- `VSUB` (R153): wrapping subtract, minuend `Vn`. -/
def execVsub (o : V3) (s : State) : Result := lanewise3 (encode (.vsub o)) o laneSub s

/-- `VQADD` (R154): the saturating adder. -/
def execVqadd (o : V3) (s : State) : Result := lanewise3 (encode (.vqadd o)) o laneQadd s

/-- `VQSUB` (R155): the saturating subtractor. -/
def execVqsub (o : V3) (s : State) : Result := lanewise3 (encode (.vqsub o)) o laneQsub s

/-- `VNEG` (R156). -/
def execVneg (o : V2) (s : State) : Result :=
  lanewise2 (encode (.vneg o)) o.regsOk o.sz o.q o.vd o.vm laneNeg s

/-- `VABS` (R157). -/
def execVabs (o : V2) (s : State) : Result :=
  lanewise2 (encode (.vabs o)) o.regsOk o.sz o.q o.vd o.vm laneAbs s

/-- `VQNEG` (R158). -/
def execVqneg (o : V2) (s : State) : Result :=
  lanewise2 (encode (.vqneg o)) o.regsOk o.sz o.q o.vd o.vm laneQneg s

/-- `VQABS` (R159). -/
def execVqabs (o : V2) (s : State) : Result :=
  lanewise2 (encode (.vqabs o)) o.regsOk o.sz o.q o.vd o.vm laneQabs s

/-- `VQSHL` (R167): the immediate is the signed amount. -/
def execVqshl (o : V2I) (s : State) : Result :=
  lanewise2 (encode (.vqshl o)) o.regsOk o.sz o.q o.vd o.vm (fun x => shlSat x o.imm.toInt) s

/-- `VQSHLR` (R168): the whole R register is the signed amount. -/
def execVqshlr (o : V2R) (s : State) : Result :=
  lanewise2 (encode (.vqshlr o)) o.regsOk o.sz o.q o.vd o.vm (fun x => shlSat x (s.readR o.rs).toInt) s

/-- `VRSHR` (R169): the rounding right shift. -/
def execVrshr (o : V2I) (s : State) : Result :=
  lanewise2 (encode (.vrshr o)) o.regsOk o.sz o.q o.vd o.vm (fun x => laneRshr x o.imm.toNat) s

/-- `VMIN` (R170). -/
def execVmin (o : V3) (s : State) : Result := lanewise3 (encode (.vmin o)) o laneMin s

/-- `VMAX` (R171). -/
def execVmax (o : V3) (s : State) : Result := lanewise3 (encode (.vmax o)) o laneMax s

/-- `VPADD` (R173). -/
def execVpadd (o : V3) (s : State) : Result := pairwise3 (encode (.vpadd o)) o laneAdd s

/-- `VPMAX` (R174). -/
def execVpmax (o : V3) (s : State) : Result := pairwise3 (encode (.vpmax o)) o laneMax s

/-- `VPMIN` (R175). -/
def execVpmin (o : V3) (s : State) : Result := pairwise3 (encode (.vpmin o)) o laneMin s

end Sys2Proof.Machine
end

