-- ==== Sys2Proof/Machine/Compare.lean ====
section
/-! DEFINITION. vector_compare_select (44_compare_select.md): relational tests, bit test, bit merge. -/

namespace Sys2Proof.Machine

/-- `VCGE` (R252). -/
def execVcge (o : V3) (s : State) : Result := lanewise3 (encode (.vcge o)) o laneCge s

/-- `VCGT` (R253). -/
def execVcgt (o : V3) (s : State) : Result := lanewise3 (encode (.vcgt o)) o laneCgt s

/-- `VCEQ` (R254). -/
def execVceq (o : V3) (s : State) : Result := lanewise3 (encode (.vceq o)) o laneCeq s

/-- `VCGEZ` (R255). -/
def execVcgez (o : V2) (s : State) : Result :=
  lanewise2 (encode (.vcgez o)) o.regsOk o.sz o.q o.vd o.vm laneCgez s

/-- `VCGTZ` (R256). -/
def execVcgtz (o : V2) (s : State) : Result :=
  lanewise2 (encode (.vcgtz o)) o.regsOk o.sz o.q o.vd o.vm laneCgtz s

/-- `VCEQZ` (R257). -/
def execVceqz (o : V2) (s : State) : Result :=
  lanewise2 (encode (.vceqz o)) o.regsOk o.sz o.q o.vd o.vm laneCeqz s

/-- `VTST` (R258). -/
def execVtst (o : V3) (s : State) : Result := lanewise3 (encode (.vtst o)) o laneTst s

/-- `VBIT` (R259): `dst` is `Vd`, `src` is `Vn`, `mask` is `Vm`. -/
def execVbit (o : V3B) (s : State) : Result :=
  completeIf o.regsOk (encode (.vbit o)) s <|
    s.writeV o.vd o.q (bitSelect (s.readV o.vd o.q) (s.readV o.vn o.q) (s.readV o.vm o.q))

end Sys2Proof.Machine
end

