-- ==== Sys2Proof/Machine/Convert.lean ====
section
/-! DEFINITION. The conversion/misc unit (45_conversion_misc.md): leading-bit counts, saturating narrow, fixed/float
conversion, scalar square root. -/

namespace Sys2Proof.Machine

/-! The conversions of R274: what (E1) and (E2) fix is computed, the rest is an open function of Config. -/

/-- A normal binary32 pattern: sign, biased exponent, and the 24-bit significand with its leading one. -/
def floatPattern (sign : Bool) (biased significand : Nat) : Word :=
  BitVec.ofBool sign ++ BitVec.ofNat 8 biased ++ BitVec.ofNat 23 significand

/-- `CVT_FIX2FLT` (R274). With `l` the index of the highest 1 bit of the magnitude, `x * 2^(-fbits)` is representable in
binary32 exactly when the bits below the 24 highest are zero; then (E1) gives the encoding, otherwise the value is open. -/
def fixToFloat (x : Word) (fbits : Nat) : Word :=
  let mag := x.toInt.natAbs
  let l := mag.log2
  if mag = 0 then 0
  else if mag % 2 ^ (l - 23) = 0 then floatPattern (decide (x.toInt < 0)) (l + 127 - fbits) (mag * 2 ^ 23 / 2 ^ l)
  else Config.fixToFloatOpen x fbits

/-- The fields of a binary32 pattern: sign (bit 31), biased exponent (30:23), fraction (22:0). -/
def floatSign (f : Word) : Bool := f.msb

/-- The biased exponent. -/
def floatExp (f : Word) : Nat := (f.extractLsb' 23 8).toNat

/-- The fraction. -/
def floatFrac (f : Word) : Nat := (f.extractLsb' 0 23).toNat

/-- `v * 2^fbits` for the value `v` that `f` encodes, when `f` is finite and that number is an integer. A subnormal `f`
is its exact value. -/
def floatScaled (f : Word) (fbits : Nat) : Option Int :=
  let e := floatExp f
  let significand := if e = 0 then floatFrac f else floatFrac f + 2 ^ 23
  let scale := (if e = 0 then 1 else e) + fbits
  let sign : Int := if floatSign f then -1 else 1
  if e = 255 then none
  else if 150 ≤ scale then some (sign * (significand * 2 ^ (scale - 150) : Nat))
  else if significand % 2 ^ (150 - scale) = 0 then some (sign * (significand / 2 ^ (150 - scale) : Nat))
  else none

/-- `CVT_FLT2FIX` (R274): (E2) where it applies, open otherwise. -/
def floatToFix (f : Word) (fbits : Nat) : Word :=
  match floatScaled f fbits with
  | some z => if minInt 32 ≤ z ∧ z ≤ maxInt 32 then wrap 32 z else Config.floatToFixOpen f fbits
  | none => Config.floatToFixOpen f fbits

/-! Instructions. -/

/-- `VCLZ` (R271). -/
def execVclz (o : V2) (s : State) : Result :=
  lanewise2 (encode (.vclz o)) o.regsOk o.sz o.q o.vd o.vm laneClz s

/-- `VCLS` (R272). -/
def execVcls (o : V2) (s : State) : Result :=
  lanewise2 (encode (.vcls o)) o.regsOk o.sz o.q o.vd o.vm laneCls s

/-- `VQRSHRN` (R273): the lanes of the Q register `Vm` narrowed into the D register `Vd`. -/
def execVqrshrn (o : V2N) (s : State) : Result :=
  completeIf o.regsOk (encode (.vqrshrn o)) s <|
    s.writeV o.vd false <| ofLanes o.sz.bits (64 / o.sz.bits) fun i =>
      laneNarrow (lane (2 * o.sz.bits) (s.readV o.vm true) i) o.n.toNat

/-- `VCVT_F32_S32` (R275). -/
def execVcvtF32S32 (o : V2F) (s : State) : Result :=
  lanewise2 (encode (.vcvtF32S32 o)) o.regsOk .s32 o.q o.vd o.vm (fun x => fixToFloat x o.fbits.toNat) s

/-- `VCVT_S32_F32` (R276). -/
def execVcvtS32F32 (o : V2F) (s : State) : Result :=
  lanewise2 (encode (.vcvtS32F32 o)) o.regsOk .s32 o.q o.vd o.vm (fun x => floatToFix x o.fbits.toNat) s

/-- `setlane_32` on a D register (R9): lane 1 or lane 0 replaced. -/
def setLane32 (v : DWord) (i : Bool) (x : Word) : DWord :=
  if i then x ++ v.extractLsb' 0 32 else v.extractLsb' 32 32 ++ x

/-- `VSQRT` (R278): a negative source lane raises `DomainFault`; otherwise lane `di` of `Dd` gets `SQRT_FN` of it and the
other lane is kept. -/
def execVsqrt (o : V2S) (s : State) : Result :=
  let x := lane 32 (s.readV o.vm false) o.mi.toNat
  if x.toInt < 0 then raise .domain (encode (.vsqrt o)) 0 s
  else .next (s.writeD o.vd (setLane32 (s.readD o.vd) o.di (Config.sqrtFn (x.setWidth 31)))).advance

end Sys2Proof.Machine
end

