-- ==== Sys2Proof/Machine/LoadStore.lean ====
section
/-! DEFINITION. vector_load_store_unit (40_load_store.md). -/

namespace Sys2Proof.Machine

/-- `VLD1` (R124). -/
def execVld1 (o : LS) (s : State) : Result := loadGroup (encode (.vld1 o)) o 1 s

/-- `VLD2` (R125). -/
def execVld2 (o : LS) (s : State) : Result := loadGroup (encode (.vld2 o)) o 2 s

/-- `VLD3` (R126). -/
def execVld3 (o : LS) (s : State) : Result := loadGroup (encode (.vld3 o)) o 3 s

/-- `VLD4` (R127). -/
def execVld4 (o : LS) (s : State) : Result := loadGroup (encode (.vld4 o)) o 4 s

/-- `VST1` (R128). -/
def execVst1 (o : LS) (s : State) : Result := storeGroup (encode (.vst1 o)) o 1 s

/-- `VST2` (R129). -/
def execVst2 (o : LS) (s : State) : Result := storeGroup (encode (.vst2 o)) o 2 s

/-- `VST3` (R130). -/
def execVst3 (o : LS) (s : State) : Result := storeGroup (encode (.vst3 o)) o 3 s

/-- `VST4` (R131). -/
def execVst4 (o : LS) (s : State) : Result := storeGroup (encode (.vst4 o)) o 4 s

/-- `VLDDUP` (R132): one element into every lane of one register, `T = B`. -/
def execVlddup (o : LS) (s : State) : Result :=
  transfer (encode (.vlddup o)) o 1 o.sz.bytes s <|
    s.writeV o.vd o.q <| ofLanes o.sz.bits (laneCount o.q o.sz) fun _ =>
      Memory.readElem s.mem (o.base s).toNat o.sz.bits

end Sys2Proof.Machine
end

