-- ==== Sys2Proof/Machine/Multiply.lean ====
section
/-! DEFINITION. vector_alu multiply (42_multiply.md): the same-width multiplies, the widening multiplies, the doubling
saturating multiply-high in vector and by-lane forms. -/

namespace Sys2Proof.Machine

/-- `VMUL` (R191). -/
def execVmul (o : V3) (s : State) : Result := lanewise3 (encode (.vmul o)) o laneMul s

/-- `VMLA` (R192). -/
def execVmla (o : V3) (s : State) : Result := accumulate3 (encode (.vmla o)) o laneMla s

/-- `VMLS` (R193). -/
def execVmls (o : V3) (s : State) : Result := accumulate3 (encode (.vmls o)) o laneMls s

/-- `VMULL` (R195). -/
def execVmull (o : V3W) (s : State) : Result := widening (encode (.vmull o)) o (fun _ => laneMull) s

/-- `VMLAL` (R196). -/
def execVmlal (o : V3W) (s : State) : Result := widening (encode (.vmlal o)) o laneMlal s

/-- `VMLSL` (R197). -/
def execVmlsl (o : V3W) (s : State) : Result := widening (encode (.vmlsl o)) o laneMlsl s

/-- `VQDMULH` (R200). -/
def execVqdmulh (o : V3) (s : State) : Result := lanewise3 (encode (.vqdmulh o)) o qdmulh s

/-- `VQRDMULH` (R201). -/
def execVqrdmulh (o : V3) (s : State) : Result := lanewise3 (encode (.vqrdmulh o)) o qrdmulh s

/-- `VQDMULH_LANE` (R203). -/
def execVqdmulhLane (o : V3L) (s : State) : Result := byLane (encode (.vqdmulhLane o)) o qdmulh s

/-- `VQRDMULH_LANE` (R204). -/
def execVqrdmulhLane (o : V3L) (s : State) : Result := byLane (encode (.vqrdmulhLane o)) o qrdmulh s

end Sys2Proof.Machine
end

