-- ==== Sys2Proof/Machine/Shuffle.lean ====
section
/-! DEFINITION. vector_shuffle_unit (43_shuffle.md): reverse, zip, unzip, transpose, extract, broadcast, swap. -/

namespace Sys2Proof.Machine

/-- `zipseq(a, b)` of R222: `[a0, b0, a1, b1, ..]`. -/
def zipSeq {α : Type} (a b : Nat → α) (i : Nat) : α := if i % 2 = 0 then a (i / 2) else b (i / 2)

/-- `cat(a, b)` of R222 for registers of `ec` lanes. -/
def catSeq {α : Type} (ec : Nat) (a b : Nat → α) (i : Nat) : α := if i < ec then a i else b (i - ec)

/-- Where lane `i` comes from when every group of `g` lanes is reversed in place (R221). -/
def reverseIndex (g i : Nat) : Nat := i / g * g + (g - 1 - i % g)

/-- `VREV` (R221): the immediate is the group size. -/
def execVrev (o : V2I) (s : State) : Result :=
  completeIf o.regsOk (encode (.vrev o)) s <|
    s.writeV o.vd o.q <| ofLanes o.sz.bits (laneCount o.q o.sz) fun i =>
      lane o.sz.bits (s.readV o.vm o.q) (reverseIndex o.imm.toNat i)

/-- `VZIP` (R223): the lower half of the interleaved sequence in `Vd`, the upper half in `Vm`. -/
def execVzip (o : V2) (s : State) : Result :=
  shufflePair (encode (.vzip o)) o zipSeq (fun a b i => zipSeq a b (laneCount o.q o.sz + i)) s

/-- `VUZP` (R224): the even-numbered elements of `cat(Vd, Vm)` in `Vd`, the odd-numbered in `Vm`. -/
def execVuzp (o : V2) (s : State) : Result :=
  shufflePair (encode (.vuzp o)) o (fun a b i => catSeq (laneCount o.q o.sz) a b (2 * i))
    (fun a b i => catSeq (laneCount o.q o.sz) a b (2 * i + 1)) s

/-- `VTRN` (R226, 90_conflicts.md C2): every pair of lanes of the two registers is a 2x2 matrix, transposed. -/
def execVtrn (o : V2) (s : State) : Result :=
  shufflePair (encode (.vtrn o)) o (fun a b i => if i % 2 = 0 then a i else b (i - 1))
    (fun a b i => if i % 2 = 0 then a (i + 1) else b i) s

/-- `VEXT` (R227): the window of `ec` lanes of `cat(Vn, Vm)` at offset `k`. -/
def execVext (o : V3X) (s : State) : Result :=
  completeIf o.regsOk (encode (.vext o)) s <|
    s.writeV o.vd o.q <| ofLanes o.sz.bits (laneCount o.q o.sz) fun i =>
      catSeq (laneCount o.q o.sz) (lane o.sz.bits (s.readV o.vn o.q)) (lane o.sz.bits (s.readV o.vm o.q)) (o.k.toNat + i)

/-- `VDUP` (R228): one lane of the D register `Vm` in every lane of `Vd`. -/
def execVdup (o : V2I) (s : State) : Result :=
  completeIf o.dupOk (encode (.vdup o)) s <|
    s.writeV o.vd o.q <| ofLanes o.sz.bits (laneCount o.q o.sz) fun _ =>
      lane o.sz.bits (s.readV o.vm false) o.imm.toNat

/-- `VSWP` (R229): exchange the full contents. -/
def execVswp (o : V2B) (s : State) : Result :=
  completeIf o.pairOk (encode (.vswp o)) s <|
    (s.writeV o.vd o.q (s.readV o.vm o.q)).writeV o.vm o.q (s.readV o.vd o.q)

end Sys2Proof.Machine
end

