-- ==== Sys2Proof/Machine/Dispatch.lean ====
section
/-! DEFINITION. The dispatch: one arm per constructor of `Instr`, each one direct call of the instruction's meaning. -/

namespace Sys2Proof.Machine

def exec (i : Instr) (s : State) : Host.Outcome State Fault Refusal :=
  match i with
  | .vld1 o => Sys2Proof.Machine.execVld1 o s
  | .vld2 o => Sys2Proof.Machine.execVld2 o s
  | .vld3 o => Sys2Proof.Machine.execVld3 o s
  | .vld4 o => Sys2Proof.Machine.execVld4 o s
  | .vst1 o => Sys2Proof.Machine.execVst1 o s
  | .vst2 o => Sys2Proof.Machine.execVst2 o s
  | .vst3 o => Sys2Proof.Machine.execVst3 o s
  | .vst4 o => Sys2Proof.Machine.execVst4 o s
  | .vlddup o => Sys2Proof.Machine.execVlddup o s
  | .vadd o => Sys2Proof.Machine.execVadd o s
  | .vsub o => Sys2Proof.Machine.execVsub o s
  | .vqadd o => Sys2Proof.Machine.execVqadd o s
  | .vqsub o => Sys2Proof.Machine.execVqsub o s
  | .vneg o => Sys2Proof.Machine.execVneg o s
  | .vabs o => Sys2Proof.Machine.execVabs o s
  | .vqneg o => Sys2Proof.Machine.execVqneg o s
  | .vqabs o => Sys2Proof.Machine.execVqabs o s
  | .vqshl o => Sys2Proof.Machine.execVqshl o s
  | .vqshlr o => Sys2Proof.Machine.execVqshlr o s
  | .vrshr o => Sys2Proof.Machine.execVrshr o s
  | .vmin o => Sys2Proof.Machine.execVmin o s
  | .vmax o => Sys2Proof.Machine.execVmax o s
  | .vpadd o => Sys2Proof.Machine.execVpadd o s
  | .vpmax o => Sys2Proof.Machine.execVpmax o s
  | .vpmin o => Sys2Proof.Machine.execVpmin o s
  | .vmul o => Sys2Proof.Machine.execVmul o s
  | .vmla o => Sys2Proof.Machine.execVmla o s
  | .vmls o => Sys2Proof.Machine.execVmls o s
  | .vmull o => Sys2Proof.Machine.execVmull o s
  | .vmlal o => Sys2Proof.Machine.execVmlal o s
  | .vmlsl o => Sys2Proof.Machine.execVmlsl o s
  | .vqdmulh o => Sys2Proof.Machine.execVqdmulh o s
  | .vqrdmulh o => Sys2Proof.Machine.execVqrdmulh o s
  | .vqdmulhLane o => Sys2Proof.Machine.execVqdmulhLane o s
  | .vqrdmulhLane o => Sys2Proof.Machine.execVqrdmulhLane o s
  | .vrev o => Sys2Proof.Machine.execVrev o s
  | .vzip o => Sys2Proof.Machine.execVzip o s
  | .vuzp o => Sys2Proof.Machine.execVuzp o s
  | .vtrn o => Sys2Proof.Machine.execVtrn o s
  | .vext o => Sys2Proof.Machine.execVext o s
  | .vdup o => Sys2Proof.Machine.execVdup o s
  | .vswp o => Sys2Proof.Machine.execVswp o s
  | .vcge o => Sys2Proof.Machine.execVcge o s
  | .vcgt o => Sys2Proof.Machine.execVcgt o s
  | .vceq o => Sys2Proof.Machine.execVceq o s
  | .vcgez o => Sys2Proof.Machine.execVcgez o s
  | .vcgtz o => Sys2Proof.Machine.execVcgtz o s
  | .vceqz o => Sys2Proof.Machine.execVceqz o s
  | .vtst o => Sys2Proof.Machine.execVtst o s
  | .vbit o => Sys2Proof.Machine.execVbit o s
  | .vclz o => Sys2Proof.Machine.execVclz o s
  | .vcls o => Sys2Proof.Machine.execVcls o s
  | .vqrshrn o => Sys2Proof.Machine.execVqrshrn o s
  | .vcvtF32S32 o => Sys2Proof.Machine.execVcvtF32S32 o s
  | .vcvtS32F32 o => Sys2Proof.Machine.execVcvtS32F32 o s
  | .vsqrt o => Sys2Proof.Machine.execVsqrt o s

end Sys2Proof.Machine
end

