-- ==== Sys2Proof/Machine/HostPort.lean ====
section
/-! DEFINITION. The issue port and the host's other moves (00_scope.md R14, R16, R17; 60_exceptions.md R317). -/

namespace Sys2Proof.Machine

/-- A word is presented (R14). In FAULTED none is accepted (R31, R298). In READY it is decoded (R90): an undefined encoding
raises `IllegalInstruction` (R88, R291), a defined one executes completely. -/
def issueWord (w : Word) (s : State) : Result :=
  if s.faulted then .fault .stoppedUntilReset
  else
    match decode w with
    | .error _ => raise .illegalInstruction w 0 s
    | .ok i => exec i s

/-- One move of the host (R317), applied to the state it finds. -/
def hostMove (m : HostMove) (s : State) : Result :=
  match m with
  | .issue w => issueWord w s
  | .writeD i v => .next (s.writeD i v)
  | .writeR i v => .next (s.writeR i v)
  | .writeByte a b =>
    if a.toNat < s.memBytes then .next (s.setMem (Memory.write s.mem a.toNat b)) else .fault .noSuchByte
  | .reset => .next s.hostReset

/-- The state with the given moves of the host still pending. -/
def State.setHost (s : State) (ms : List HostMove) : State := { s with host := ms }

/-- Take the host's next pending move; with none pending the block waits and nothing changes (R316, R317). -/
def takeMove (s : State) : Result :=
  match s.host with
  | [] => .next s
  | m :: ms => hostMove m (s.setHost ms)

/-- Present the instruction whose bits are `w` (those from `nbits` up zero) as the host's next move. -/
def State.presentWord (s : State) (nbits w : Nat) : State :=
  s.setHost (.issue (BitVec.ofNat 32 (w % 2 ^ nbits)) :: s.host)

end Sys2Proof.Machine
end

