-- ==== Sys2Proof/Machine/Step.lean ====
section
/-! DEFINITION. One step of the machine: the block takes the host's next move (00_scope.md R13, R14). -/

namespace Sys2Proof.Machine

/-- One step: an issued word executes to completion or takes its fault; another move of the host has its effect. -/
def step (s : State) : Host.Outcome State Fault Refusal := takeMove s

/-- `s` with an instruction placed where `step` takes its next instruction: at the issue port. Words are never fetched
from memory (20_memory.md R62); assumption log 1. -/
def State.withFetchWord (s : State) (nbits w : Nat) : State := s.presentWord nbits w

end Sys2Proof.Machine
end

