-- ==== Sys2Proof/Safety.lean ====
section
/-! DEFINITION. What the statements about the machine say it with: frames, completion and fault entry, the invariant of
the state, the reserved encodings, and the value of a binary32 pattern. Written from the rules, not from the meanings. -/

namespace Sys2Proof.Machine

/-! Registers. -/

/-- `D[j]` is, or is one half of, the vector operand `V(r, q)` (00_scope.md R9, 10_state.md R22). -/
def inOperand (r : DReg) (q : Bool) (j : DReg) : Prop := j = r ∨ (q = true ∧ j = r + 1#5)

/-- A register field that names a Q register holds an even number (R23). -/
def kindLegal (q : Bool) (r : DReg) : Prop := q = true → r.toNat % 2 = 0

/-- The D number of register `k` of a group of D or Q registers that starts at `vd` (40_load_store.md R120). -/
def groupMember (vd : DReg) (q : Bool) (k : Nat) : DReg := BitVec.ofNat 5 (vd.toNat + k * (if q then 2 else 1))

/-- The group of `n` registers at `vd` is named by an even number if it is of Q registers and does not run past `D31`
(R120). -/
def groupLegal (vd : DReg) (q : Bool) (n : Nat) : Prop :=
  kindLegal q vd ∧ vd.toNat + (n - 1) * (if q then 2 else 1) + (if q then 1 else 0) ≤ 31

/-- `D[j]` belongs to the group of `n` registers at `vd`. -/
def inGroup (vd : DReg) (q : Bool) (n : Nat) (j : DReg) : Prop := ∃ k, k < n ∧ inOperand (groupMember vd q k) q j

/-! Frames. -/

/-- Neither the fault record and the state bit nor the model's own fields differ. -/
def sameControl (s t : State) : Prop :=
  t.faulted = s.faulted ∧ t.fcause = s.fcause ∧ t.fpc = s.fpc ∧ t.finst = s.finst ∧ t.faddr = s.faddr ∧
    t.memTop = s.memTop ∧ t.host = s.host ∧ t.resets = s.resets

/-- Outside the given D registers, R registers and memory bytes, registers and memory hold what they held. -/
def sameOutside (dst : DReg → Prop) (base : RReg → Prop) (bytes : Nat → Prop) (s t : State) : Prop :=
  (∀ j, ¬dst j → t.readD j = s.readD j) ∧ (∀ j, ¬base j → t.readR j = s.readR j) ∧
    ∀ a, ¬bytes a → t.readMem a = s.readMem a

/-- `t` is `s` after an instruction that completed: `pc` is one higher modulo `2^32` (R28), no fault was recorded, and
nothing outside the named destinations changed. -/
def completed (dst : DReg → Prop) (base : RReg → Prop) (bytes : Nat → Prop) (s t : State) : Prop :=
  t.pc = s.pc + 1 ∧ sameControl s t ∧ sameOutside dst base bytes s t

/-- Completion of an instruction whose only destinations are D registers. -/
def completedD (dst : DReg → Prop) (s t : State) : Prop := completed dst (fun _ => False) (fun _ => False) s t

/-- `t` is `s` after a fault was taken (60_exceptions.md R296): the record is written, the block is FAULTED, and `pc`,
every register and every byte are as before. -/
def faultEntered (code : BitVec 3) (inst addr : Word) (s t : State) : Prop :=
  t.fcause = code ∧ t.fpc = s.pc ∧ t.finst = inst ∧ t.faddr = addr ∧ t.faulted = true ∧ t.pc = s.pc ∧
    sameOutside (fun _ => False) (fun _ => False) (fun _ => False) s t ∧
    t.memTop = s.memTop ∧ t.host = s.host ∧ t.resets = s.resets

/-- The instruction ends in the given fault, with its own word in `FINST`. -/
def endsInFault (i : Instr) (code : BitVec 3) (addr : Word) (s : State) : Prop :=
  ∃ t, exec i s = .next t ∧ faultEntered code (encode i) addr s t

/-! Numbers. -/

/-- `r = wrap_w(z)` (R9): `r` is the `w`-bit pattern congruent to `z` modulo `2^w`. -/
def wrapsTo {w : Nat} (r : BitVec w) (z : Int) : Prop := (2 : Int) ^ w ∣ r.toInt - z

/-- `r = sat_w(z)` (R9): `r` read as signed is `z` clamped to `MIN_w .. MAX_w`. -/
def satsTo {w : Nat} (r : BitVec w) (z : Int) : Prop := r.toInt = min (max z (-(2 ^ (w - 1)))) (2 ^ (w - 1) - 1)

/-- `r = mask_w(p)` (44_compare_select.md R250): every bit of `r` says whether `p` holds. -/
def isMask {w : Nat} (r : BitVec w) (p : Prop) : Prop := ∀ b, b < w → (r.getLsbD b = true ↔ p)

/-- The number a binary32 pattern encodes, for the finite ones (R274). -/
def floatValue (f : Word) : Option ℚ :=
  let sign : ℚ := if f.msb then -1 else 1
  let e := (f.extractLsb' 23 8).toNat
  let frac := (f.extractLsb' 0 23).toNat
  if e = 255 then none
  else if e = 0 then some (sign * frac * 2 ^ (-149 : Int))
  else some (sign * (2 ^ 23 + frac : Nat) * 2 ^ ((e : Int) - 150))

/-! The templates of the instruction rules. In each, `i` is the instruction and `f` relates the lanes of the state before
to the lane of the destination after. Where the registers are not legal the instruction ends in `RegisterGroupFault`. -/

/-- Two registers, lane by lane (41_arithmetic.md R150). -/
def rule2 (i : Instr) (sz : Sz) (q : Bool) (vd vm : DReg) (s : State) (f : BitVec sz.bits → BitVec sz.bits → Prop) :
    Prop :=
  (kindLegal q vd ∧ kindLegal q vm →
    ∃ t, exec i s = .next t ∧ completedD (inOperand vd q) s t ∧
      ∀ k, k < laneCount q sz → f (lane sz.bits (s.readV vm q) k) (lane sz.bits (t.readV vd q) k)) ∧
  (¬(kindLegal q vd ∧ kindLegal q vm) → endsInFault i 2 0 s)

/-- Three registers, lane by lane (R150); `f` also gets the destination's lane before, first, for the instructions that
accumulate (42_multiply.md R192). -/
def rule3 (i : Instr) (o : V3) (s : State)
    (f : BitVec o.sz.bits → BitVec o.sz.bits → BitVec o.sz.bits → BitVec o.sz.bits → Prop) : Prop :=
  (kindLegal o.q o.vd ∧ kindLegal o.q o.vn ∧ kindLegal o.q o.vm →
    ∃ t, exec i s = .next t ∧ completedD (inOperand o.vd o.q) s t ∧
      ∀ k, k < laneCount o.q o.sz →
        f (lane o.sz.bits (s.readV o.vd o.q) k) (lane o.sz.bits (s.readV o.vn o.q) k)
          (lane o.sz.bits (s.readV o.vm o.q) k) (lane o.sz.bits (t.readV o.vd o.q) k)) ∧
  (¬(kindLegal o.q o.vd ∧ kindLegal o.q o.vn ∧ kindLegal o.q o.vm) → endsInFault i 2 0 s)

/-- Pairs of adjacent lanes (R172): lane `k` of the lower half from pair `k` of `Vn`, of the upper half from pair `k` of
`Vm`. -/
def rulePairs (i : Instr) (o : V3) (s : State) (f : BitVec o.sz.bits → BitVec o.sz.bits → BitVec o.sz.bits → Prop) :
    Prop :=
  (kindLegal o.q o.vd ∧ kindLegal o.q o.vn ∧ kindLegal o.q o.vm →
    ∃ t, exec i s = .next t ∧ completedD (inOperand o.vd o.q) s t ∧
      ∀ k, k < laneCount o.q o.sz / 2 →
        f (lane o.sz.bits (s.readV o.vn o.q) (2 * k)) (lane o.sz.bits (s.readV o.vn o.q) (2 * k + 1))
          (lane o.sz.bits (t.readV o.vd o.q) k) ∧
        f (lane o.sz.bits (s.readV o.vm o.q) (2 * k)) (lane o.sz.bits (s.readV o.vm o.q) (2 * k + 1))
          (lane o.sz.bits (t.readV o.vd o.q) (laneCount o.q o.sz / 2 + k))) ∧
  (¬(kindLegal o.q o.vd ∧ kindLegal o.q o.vn ∧ kindLegal o.q o.vm) → endsInFault i 2 0 s)

/-- Widening (R194): the lanes of two D registers and, first, the destination's wide lane before. -/
def ruleWide (i : Instr) (o : V3W) (s : State)
    (f : BitVec (2 * o.sz.bits) → BitVec o.sz.bits → BitVec o.sz.bits → BitVec (2 * o.sz.bits) → Prop) : Prop :=
  (kindLegal true o.vd →
    ∃ t, exec i s = .next t ∧ completedD (inOperand o.vd true) s t ∧
      ∀ k, k < 64 / o.sz.bits →
        f (lane (2 * o.sz.bits) (s.readV o.vd true) k) (lane o.sz.bits (s.readV o.vn false) k)
          (lane o.sz.bits (s.readV o.vm false) k) (lane (2 * o.sz.bits) (t.readV o.vd true) k)) ∧
  (¬kindLegal true o.vd → endsInFault i 2 0 s)

/-- By lane (R202): lane `idx` of the D register `Vm` is the second operand of every lane. -/
def ruleByLane (i : Instr) (o : V3L) (s : State) (f : BitVec o.sz.bits → BitVec o.sz.bits → BitVec o.sz.bits → Prop) :
    Prop :=
  (kindLegal o.q o.vd ∧ kindLegal o.q o.vn →
    ∃ t, exec i s = .next t ∧ completedD (inOperand o.vd o.q) s t ∧
      ∀ k, k < laneCount o.q o.sz →
        f (lane o.sz.bits (s.readV o.vn o.q) k) (lane o.sz.bits (s.readV o.vm false) o.idx.toNat)
          (lane o.sz.bits (t.readV o.vd o.q) k)) ∧
  (¬(kindLegal o.q o.vd ∧ kindLegal o.q o.vn) → endsInFault i 2 0 s)

/-- Two registers in place (43_shuffle.md R220): both are destinations, and they must differ. `f` relates the states. -/
def ruleInPlace (i : Instr) (q : Bool) (vd vm : DReg) (s : State) (f : State → State → Prop) : Prop :=
  (kindLegal q vd ∧ kindLegal q vm ∧ vd ≠ vm →
    ∃ t, exec i s = .next t ∧ completedD (fun j => inOperand vd q j ∨ inOperand vm q j) s t ∧ f s t) ∧
  (¬(kindLegal q vd ∧ kindLegal q vm ∧ vd ≠ vm) → endsInFault i 2 0 s)

/-- Element `e` of `cat(V(a, q), V(b, q))` (R222). -/
def catLane (s : State) (sz : Sz) (q : Bool) (a b : DReg) (e : Nat) : BitVec sz.bits :=
  if e < laneCount q sz then lane sz.bits (s.readV a q) e else lane sz.bits (s.readV b q) (e - laneCount q sz)

/-! Transfers (40_load_store.md). -/

/-- The conditions of a transfer of `T` bytes (R51, R55): an aligned base and no byte at or past `MEM_BYTES`. -/
def transferLegal (o : LS) (T : Nat) (s : State) : Prop :=
  (o.base s).toNat % o.sz.bytes = 0 ∧ (o.base s).toNat + T ≤ s.memBytes

/-- By how much the writeback moves the base (R122). -/
def writebackAmount (o : LS) (T : Nat) (s : State) : Int :=
  match o.wb with
  | .keep => 0
  | .postInc => T
  | .postAdd rm => (s.readR rm).toInt
  | .postDec => -(T : Int)

/-- `R[Rn]` after the instruction is the base moved by that amount, modulo `2^32` (R122). -/
def writtenBack (o : LS) (T : Nat) (s t : State) : Prop :=
  ((t.readR o.rn).toNat : Int) = ((o.base s).toNat + writebackAmount o T s) % 2 ^ 32

/-- `T`, the bytes a transfer of `n` whole registers moves (R57). -/
def groupBytes (o : LS) (n : Nat) : Nat := n * (if o.q then 16 else 8)

/-- `t` is `s` after a load of a group of `n` registers completed: only the group and the base register changed, the base
by the writeback (R122). -/
def loadCompleted (o : LS) (n : Nat) (s t : State) : Prop :=
  completed (inGroup o.vd o.q n) (fun j => j = o.rn) (fun _ => False) s t ∧ writtenBack o (groupBytes o n) s t

/-- `t` is `s` after a store of a group of `n` registers completed: only the bytes `A .. A+T-1` and the base register
changed, the base by the writeback (R122). -/
def storeCompleted (o : LS) (n : Nat) (s t : State) : Prop :=
  completed (fun _ => False) (fun j => j = o.rn)
    (fun a => (o.base s).toNat ≤ a ∧ a < (o.base s).toNat + groupBytes o n) s t ∧ writtenBack o (groupBytes o n) s t

/-- A structured load of `n` registers (R121, with R52 and R53 for the bytes): byte `b` of lane `k` of register `m` is byte
`b` of element `k*n + m`. -/
def ruleLoad (i : Instr) (o : LS) (n : Nat) (s : State) : Prop :=
  groupLegal o.vd o.q n → transferLegal o (groupBytes o n) s →
    ∃ t, exec i s = .next t ∧ loadCompleted o n s t ∧
      ∀ m k b, m < n → k < laneCount o.q o.sz → b < o.sz.bytes →
        (lane o.sz.bits (t.readV (groupMember o.vd o.q m) o.q) k).extractLsb' (8 * b) 8 =
          s.readMem ((o.base s).toNat + (k * n + m) * o.sz.bytes + b)

/-- A structured store of `n` registers (R123): the inverse map; only the bytes `A .. A+T-1` change. -/
def ruleStore (i : Instr) (o : LS) (n : Nat) (s : State) : Prop :=
  groupLegal o.vd o.q n → transferLegal o (groupBytes o n) s →
    ∃ t, exec i s = .next t ∧ storeCompleted o n s t ∧
      ∀ m k b, m < n → k < laneCount o.q o.sz → b < o.sz.bytes →
        t.readMem ((o.base s).toNat + (k * n + m) * o.sz.bytes + b) =
          (lane o.sz.bits (s.readV (groupMember o.vd o.q m) o.q) k).extractLsb' (8 * b) 8

/-- What stops a load or store (R292 to R294, R299): the register group before the alignment before the range. -/
def ruleTransferFaults (i : Instr) (o : LS) (n T : Nat) (s : State) : Prop :=
  (¬groupLegal o.vd o.q n → endsInFault i 2 0 s) ∧
  (groupLegal o.vd o.q n → (o.base s).toNat % o.sz.bytes ≠ 0 → endsInFault i 3 (o.base s) s) ∧
  (groupLegal o.vd o.q n → (o.base s).toNat % o.sz.bytes = 0 → s.memBytes < (o.base s).toNat + T →
    endsInFault i 4 (o.base s) s)

/-- The loads and stores, with their operands, group size and bytes moved (R57, R120). -/
def transferOf : Instr → Option (LS × Nat × Nat)
  | .vld1 o | .vst1 o => some (o, 1, groupBytes o 1)
  | .vld2 o | .vst2 o => some (o, 2, groupBytes o 2)
  | .vld3 o | .vst3 o => some (o, 3, groupBytes o 3)
  | .vld4 o | .vst4 o => some (o, 4, groupBytes o 4)
  | .vlddup o => some (o, 1, o.sz.bytes)
  | _ => none

/-- The stores. -/
def isStore : Instr → Bool
  | .vst1 _ | .vst2 _ | .vst3 _ | .vst4 _ => true
  | _ => false

/-! Encodings (30_encoding.md). -/

/-- The opcodes in use (R86). -/
def usedOpcodes : List Nat :=
  [0x01, 0x02, 0x03, 0x08, 0x09, 0x0A, 0x0B, 0x0C, 0x0D, 0x0E, 0x0F, 0x10, 0x11, 0x12, 0x13, 0x14, 0x15, 0x16, 0x17] ++
    [0x18, 0x19, 0x1A, 0x1B, 0x1C, 0x1D, 0x1E, 0x1F, 0x20, 0x21, 0x24, 0x25, 0x26, 0x27, 0x28, 0x29, 0x2A] ++
    [0x2C, 0x2D, 0x2E, 0x2F, 0x30, 0x31, 0x32, 0x33, 0x34, 0x35, 0x36, 0x37, 0x38, 0x39]

/-- The opcodes whose format requires `imm8 = 0` (R84: `V3`, `V3B`, `V3W`, `V2`, `V2B`, `V2R`). -/
def noImmediate : List Nat :=
  [0x08, 0x09, 0x0A, 0x0B, 0x0C, 0x0D, 0x0E, 0x0F, 0x11, 0x13, 0x14, 0x15, 0x16, 0x17, 0x18, 0x19, 0x1A, 0x1B, 0x1C] ++
    [0x1D, 0x1E, 0x1F, 0x25, 0x26, 0x27, 0x2A, 0x2C, 0x2D, 0x2E, 0x2F, 0x30, 0x31, 0x32, 0x33, 0x34, 0x35]

/-- The opcodes whose format requires bits 17:13 to be zero (R84: `V2`, `V2B`, `V2I`, `V2N`, `V2F`, `V2S`). -/
def noSecondSource : List Nat :=
  [0x0C, 0x0D, 0x0E, 0x0F, 0x10, 0x12, 0x24, 0x25, 0x26, 0x27, 0x29, 0x2A, 0x2F, 0x30, 0x31, 0x34, 0x35, 0x36, 0x37] ++
    [0x38, 0x39]

/-- The `opc` field as a number. -/
def opcOf (word : Word) : Nat := (word.extractLsb' 26 6).toNat

/-- The `sz` field as a number. -/
def szOf (word : Word) : Nat := (word.extractLsb' 24 2).toNat

/-- The `Q` field as a number. -/
def qOf (word : Word) : Nat := (word.extractLsb' 23 1).toNat

/-- The `imm8` field as an unsigned number. -/
def immOf (word : Word) : Nat := (word.extractLsb' 0 8).toNat

/-- `w = 8 << sz` (R82). -/
def widthOf (word : Word) : Nat := 2 ^ (3 + szOf word)

/-- `ec = regbits(Q) / w` (R82). -/
def lanesOf (word : Word) : Nat := (if qOf word = 1 then 128 else 64) / widthOf word

/-- A bit or field that the format fixes has another value (R84, and the `LS` conditions of R88). -/
def fixedFieldWrong (word : Word) : Prop :=
  (opcOf word ∈ [0x01, 0x02, 0x03] ∧
    (word.extractLsb' 0 6 ≠ 0 ∨ (word.extractLsb' 8 4 ≠ 0 ∧ word.extractLsb' 12 2 ≠ 2))) ∨
  (opcOf word = 0x03 ∧ word.extractLsb' 6 2 ≠ 0) ∨
  (opcOf word ∈ noImmediate ∧ immOf word ≠ 0) ∨
  (opcOf word ∈ noSecondSource ∧ word.extractLsb' 13 5 ≠ 0) ∨
  (opcOf word = 0x11 ∧ word.extractLsb' 17 1 ≠ 0) ∨
  (opcOf word ∈ [0x1B, 0x1C, 0x1D, 0x36, 0x39] ∧ qOf word = 1) ∨
  (opcOf word ∈ [0x2A, 0x33] ∧ szOf word ≠ 0) ∨
  (opcOf word ∈ [0x37, 0x38, 0x39] ∧ szOf word ≠ 2) ∨
  (opcOf word = 0x39 ∧ 4 ≤ immOf word)

/-- A lane or register width that the instruction does not admit (R87). -/
def widthNotAdmitted (word : Word) : Prop :=
  (opcOf word ∈ [0x15, 0x16, 0x17, 0x25, 0x26, 0x27] ∧ lanesOf word < 2) ∨
  (opcOf word ∈ [0x1B, 0x1C, 0x1D, 0x36] ∧ szOf word = 3) ∨
  (opcOf word ∈ [0x1E, 0x1F, 0x20, 0x21] ∧ szOf word ≠ 1 ∧ szOf word ≠ 2)

/-- An immediate out of range (R85). -/
def immediateOutOfRange (word : Word) : Prop :=
  (opcOf word = 0x10 ∧
    ((word.extractLsb' 0 8).toInt < -(widthOf word : Int) ∨ (widthOf word : Int) - 1 < (word.extractLsb' 0 8).toInt)) ∨
  (opcOf word = 0x12 ∧ (immOf word = 0 ∨ widthOf word < immOf word)) ∨
  (opcOf word = 0x36 ∧ (immOf word = 0 ∨ 2 * widthOf word < immOf word)) ∨
  (opcOf word = 0x24 ∧ ((immOf word ≠ 2 ∧ immOf word ≠ 4 ∧ immOf word ≠ 8) ∨ lanesOf word < immOf word)) ∨
  (opcOf word = 0x28 ∧ lanesOf word < immOf word) ∨
  (opcOf word ∈ [0x20, 0x21, 0x29] ∧ 64 / widthOf word ≤ immOf word) ∨
  (opcOf word ∈ [0x37, 0x38] ∧ 32 < immOf word)

/-- A word that no rule defines (R88). -/
def reservedEncoding (word : Word) : Prop :=
  opcOf word ∉ usedOpcodes ∨ fixedFieldWrong word ∨ widthNotAdmitted word ∨ immediateOutOfRange word

/-- The number of an `sz` field (R81). -/
def widthCode : Sz → Nat
  | .s8 => 0
  | .s16 => 1
  | .s32 => 2
  | .s64 => 3

/-- A field of a word: its lowest bit, its length, its value. -/
abbrev FieldValue := Nat × Nat × Nat

/-- The fields every format begins with (R81): `opc`, `sz`, `Q`, `Vd`. -/
def headFields (opc sz : Nat) (q : Bool) (vd : DReg) : List FieldValue :=
  [(26, 6, opc), (24, 2, sz), (23, 1, q.toNat), (18, 5, vd.toNat)]

/-- The three fields below them in every format but `LS` and `V2R` (R81). -/
def tailFields (vn vm imm : Nat) : List FieldValue := [(13, 5, vn), (8, 5, vm), (0, 8, imm)]

/-- Format `LS` (R84). -/
def fieldsLS (opc nm1 : Nat) (o : LS) : List FieldValue :=
  headFields opc (widthCode o.sz) o.q o.vd ++ [(14, 4, o.rn.toNat), (6, 2, nm1), (0, 6, 0)] ++
    match o.wb with
    | .keep => [(12, 2, 0), (8, 4, 0)]
    | .postInc => [(12, 2, 1), (8, 4, 0)]
    | .postAdd rm => [(12, 2, 2), (8, 4, rm.toNat)]
    | .postDec => [(12, 2, 3), (8, 4, 0)]

/-- Format `V3`. -/
def fieldsV3 (opc : Nat) (o : V3) : List FieldValue :=
  headFields opc (widthCode o.sz) o.q o.vd ++ tailFields o.vn.toNat o.vm.toNat 0

/-- Format `V3W`. -/
def fieldsV3W (opc : Nat) (o : V3W) : List FieldValue :=
  headFields opc (widthCode o.sz) false o.vd ++ tailFields o.vn.toNat o.vm.toNat 0

/-- Format `V3L`. -/
def fieldsV3L (opc : Nat) (o : V3L) : List FieldValue :=
  headFields opc (widthCode o.sz) o.q o.vd ++ tailFields o.vn.toNat o.vm.toNat o.idx.toNat

/-- Format `V2`. -/
def fieldsV2 (opc : Nat) (o : V2) : List FieldValue :=
  headFields opc (widthCode o.sz) o.q o.vd ++ tailFields 0 o.vm.toNat 0

/-- Format `V2I`. -/
def fieldsV2I (opc : Nat) (o : V2I) : List FieldValue :=
  headFields opc (widthCode o.sz) o.q o.vd ++ tailFields 0 o.vm.toNat o.imm.toNat

/-- Format `V2F`. -/
def fieldsV2F (opc : Nat) (o : V2F) : List FieldValue :=
  headFields opc 2 o.q o.vd ++ tailFields 0 o.vm.toNat o.fbits.toNat

/-- Every field of an instruction's word, by the opcode map (R86) and the formats (R84). -/
def fieldsOf : Instr → List FieldValue
  | .vld1 o => fieldsLS 0x01 0 o
  | .vld2 o => fieldsLS 0x01 1 o
  | .vld3 o => fieldsLS 0x01 2 o
  | .vld4 o => fieldsLS 0x01 3 o
  | .vst1 o => fieldsLS 0x02 0 o
  | .vst2 o => fieldsLS 0x02 1 o
  | .vst3 o => fieldsLS 0x02 2 o
  | .vst4 o => fieldsLS 0x02 3 o
  | .vlddup o => fieldsLS 0x03 0 o
  | .vadd o => fieldsV3 0x08 o
  | .vsub o => fieldsV3 0x09 o
  | .vqadd o => fieldsV3 0x0A o
  | .vqsub o => fieldsV3 0x0B o
  | .vneg o => fieldsV2 0x0C o
  | .vabs o => fieldsV2 0x0D o
  | .vqneg o => fieldsV2 0x0E o
  | .vqabs o => fieldsV2 0x0F o
  | .vqshl o => fieldsV2I 0x10 o
  | .vqshlr o =>
    headFields 0x11 (widthCode o.sz) o.q o.vd ++ [(17, 1, 0), (13, 4, o.rs.toNat), (8, 5, o.vm.toNat), (0, 8, 0)]
  | .vrshr o => fieldsV2I 0x12 o
  | .vmin o => fieldsV3 0x13 o
  | .vmax o => fieldsV3 0x14 o
  | .vpadd o => fieldsV3 0x15 o
  | .vpmax o => fieldsV3 0x16 o
  | .vpmin o => fieldsV3 0x17 o
  | .vmul o => fieldsV3 0x18 o
  | .vmla o => fieldsV3 0x19 o
  | .vmls o => fieldsV3 0x1A o
  | .vmull o => fieldsV3W 0x1B o
  | .vmlal o => fieldsV3W 0x1C o
  | .vmlsl o => fieldsV3W 0x1D o
  | .vqdmulh o => fieldsV3 0x1E o
  | .vqrdmulh o => fieldsV3 0x1F o
  | .vqdmulhLane o => fieldsV3L 0x20 o
  | .vqrdmulhLane o => fieldsV3L 0x21 o
  | .vrev o => fieldsV2I 0x24 o
  | .vzip o => fieldsV2 0x25 o
  | .vuzp o => fieldsV2 0x26 o
  | .vtrn o => fieldsV2 0x27 o
  | .vext o => headFields 0x28 (widthCode o.sz) o.q o.vd ++ tailFields o.vn.toNat o.vm.toNat o.k.toNat
  | .vdup o => fieldsV2I 0x29 o
  | .vswp o => headFields 0x2A 0 o.q o.vd ++ tailFields 0 o.vm.toNat 0
  | .vcge o => fieldsV3 0x2C o
  | .vcgt o => fieldsV3 0x2D o
  | .vceq o => fieldsV3 0x2E o
  | .vcgez o => fieldsV2 0x2F o
  | .vcgtz o => fieldsV2 0x30 o
  | .vceqz o => fieldsV2 0x31 o
  | .vtst o => fieldsV3 0x32 o
  | .vbit o => headFields 0x33 0 o.q o.vd ++ tailFields o.vn.toNat o.vm.toNat 0
  | .vclz o => fieldsV2 0x34 o
  | .vcls o => fieldsV2 0x35 o
  | .vqrshrn o => headFields 0x36 (widthCode o.sz) false o.vd ++ tailFields 0 o.vm.toNat o.n.toNat
  | .vcvtF32S32 o => fieldsV2F 0x37 o
  | .vcvtS32F32 o => fieldsV2F 0x38 o
  | .vsqrt o => headFields 0x39 2 false o.vd ++ tailFields 0 o.vm.toNat (2 * o.di.toNat + o.mi.toNat)

/-- The word has that field value. -/
def hasField (word : Word) (f : FieldValue) : Prop := word.toNat / 2 ^ f.1 % 2 ^ f.2.1 = f.2.2

/-- The register condition of R89 and R292, for every instruction: what makes it end in `RegisterGroupFault`. -/
def registersLegal : Instr → Prop
  | .vld1 o | .vst1 o | .vlddup o => groupLegal o.vd o.q 1
  | .vld2 o | .vst2 o => groupLegal o.vd o.q 2
  | .vld3 o | .vst3 o => groupLegal o.vd o.q 3
  | .vld4 o | .vst4 o => groupLegal o.vd o.q 4
  | .vadd o | .vsub o | .vqadd o | .vqsub o | .vmin o | .vmax o | .vpadd o | .vpmax o | .vpmin o | .vmul o | .vmla o
  | .vmls o | .vqdmulh o | .vqrdmulh o | .vcge o | .vcgt o | .vceq o | .vtst o =>
    kindLegal o.q o.vd ∧ kindLegal o.q o.vn ∧ kindLegal o.q o.vm
  | .vbit o => kindLegal o.q o.vd ∧ kindLegal o.q o.vn ∧ kindLegal o.q o.vm
  | .vext o => kindLegal o.q o.vd ∧ kindLegal o.q o.vn ∧ kindLegal o.q o.vm
  | .vmull o | .vmlal o | .vmlsl o => kindLegal true o.vd
  | .vqdmulhLane o | .vqrdmulhLane o => kindLegal o.q o.vd ∧ kindLegal o.q o.vn
  | .vneg o | .vabs o | .vqneg o | .vqabs o | .vcgez o | .vcgtz o | .vceqz o | .vclz o | .vcls o =>
    kindLegal o.q o.vd ∧ kindLegal o.q o.vm
  | .vqshl o | .vrshr o | .vrev o => kindLegal o.q o.vd ∧ kindLegal o.q o.vm
  | .vqshlr o => kindLegal o.q o.vd ∧ kindLegal o.q o.vm
  | .vcvtF32S32 o | .vcvtS32F32 o => kindLegal o.q o.vd ∧ kindLegal o.q o.vm
  | .vdup o => kindLegal o.q o.vd
  | .vzip o | .vuzp o | .vtrn o => kindLegal o.q o.vd ∧ kindLegal o.q o.vm ∧ o.vd ≠ o.vm
  | .vswp o => kindLegal o.q o.vd ∧ kindLegal o.q o.vm ∧ o.vd ≠ o.vm
  | .vqrshrn o => kindLegal true o.vm
  | .vsqrt _ => True

/-- A word issued in READY that raises `IllegalInstruction` (R291). -/
def issueIsIllegal (word : Word) (s : State) : Prop :=
  ∃ t, issueWord word s = .next t ∧ faultEntered 1 word 0 s t

/-- Every word with opcode `opc` for which `bad` holds is an `IllegalInstruction`. -/
def refuses (opc : Nat) (bad : Word → Prop) : Prop :=
  ∀ word s, s.faulted = false → opcOf word = opc → bad word → issueIsIllegal word s

/-! The invariant and the ends of a run. -/

/-- What every step keeps: with no fault recorded the record is zero (R298, R318); a recorded fault has a defined cause, the
`pc` it stopped at, and an address only for a transfer (R290, R296), and its word is undefined exactly for
`IllegalInstruction`; the memory list is canonical and holds no byte past `MEM_BYTES` (R50). -/
def Inv (s : State) : Prop :=
  (s.faulted = false → s.fcause = 0 ∧ s.fpc = 0 ∧ s.finst = 0 ∧ s.faddr = 0) ∧
  (s.faulted = true →
    1 ≤ s.fcause.toNat ∧ s.fcause.toNat ≤ 5 ∧ s.fpc = s.pc ∧ (s.faddr ≠ 0 → s.fcause = 3 ∨ s.fcause = 4) ∧
      (s.fcause = 1 ↔ ∃ e, decode s.finst = .error e)) ∧
  Memory.wf s.mem = true ∧ ∀ c ∈ s.mem, c.1 < s.memBytes

/-- A normal end of a run of `n` words from `s` (00_scope.md R18). -/
def endsNormally (n : Nat) (s t : State) : Prop :=
  t.faulted = false ∧ t.pc = s.pc + BitVec.ofNat 32 n ∧ t.host = []

/-- The end of a run in a fault of its word number `k` (R18): the words after it stay unexecuted. -/
def endsFaulted (prog : List Word) (k : Nat) (s t : State) : Prop :=
  t.faulted = true ∧ t.pc = s.pc + BitVec.ofNat 32 k ∧ t.fpc = t.pc ∧ prog[k]? = some t.finst ∧
    t.host = (prog.drop (k + 1)).map .issue

end Sys2Proof.Machine
end

