-- ==== Sys2Proof/Certificates/Slice0/Obligations.lean ====
section
/-! DEFINITION. The statements for the provers, from the numbered rules of spec/. The vocabulary (`rule2`, `completedD`,
`faultEntered`, ..) is that of Sys2Proof/Safety.lean. -/

open Sys2Proof Sys2Proof.Machine

/-! Encoding (30_encoding.md). -/

/-- Decode and encode agree, for every well-formed instruction. -/
def Obligations.DecodeOfEncode : Prop := ∀ i : Instr, i.wellFormed = true → decode (encode i) = .ok i

/-- Every word that decodes is the encoding of what it decodes to: each defined word has one meaning, and only well-formed
instructions are decoded. -/
def Obligations.EncodeOfDecode : Prop :=
  ∀ (w : Word) (i : Instr), decode w = .ok i → encode i = w ∧ i.wellFormed = true

/-- R81, R84, R86: what decodes to `i` has the opcode of `i`'s row and every field of its format at its place, the fixed
ones included. -/
def Obligations.DecodedFields : Prop :=
  ∀ (w : Word) (i : Instr), decode w = .ok i → ∀ f ∈ fieldsOf i, hasField w f

/-- R88, R291: a word raises `IllegalInstruction` exactly when its encoding is reserved; any other word decodes and its
instruction executes. -/
def Obligations.ReservedEncodingsAreIllegal : Prop :=
  (∀ (w : Word) (s : State), s.faulted = false →
    (reservedEncoding w → issueIsIllegal w s) ∧
    (¬reservedEncoding w → ∃ i, decode w = .ok i ∧ i.wellFormed = true ∧ issueWord w s = exec i s)) ∧
  reservedEncoding 0x00000000 ∧ reservedEncoding 0xFFFFFFFF

/-- R93: the three encodings worked by hand. -/
def Obligations.WorkedEncodings : Prop :=
  decode 0x2A804400 = .ok (.vqadd { sz := .s32, q := true, vd := 0, vn := 2, vm := 4 }) ∧
  decode 0x06801040 = .ok (.vld2 { sz := .s32, q := true, vd := 0, rn := 0, wb := .postInc }) ∧
  decode 0x410C05FE = .ok (.vqshl { sz := .s16, q := false, vd := 3, vm := 5, imm := 0xFE }) ∧
  encode (.vqadd { sz := .s32, q := true, vd := 0, vn := 2, vm := 4 }) = 0x2A804400 ∧
  encode (.vld2 { sz := .s32, q := true, vd := 0, rn := 0, wb := .postInc }) = 0x06801040 ∧
  encode (.vqshl { sz := .s16, q := false, vd := 3, vm := 5, imm := 0xFE }) = 0x410C05FE

/-! The machine. -/

/-- A step runs the decoded instruction: with a word presented in READY that decodes to `i`, the step is `exec i` of the
state from which that move of the host (assumption log 1) is taken, and `i` is well-formed. -/
def Obligations.StepRunsDecoded : Prop :=
  ∀ (s : State) (w : Word) (ms : List HostMove) (i : Instr), s.host = .issue w :: ms → s.faulted = false →
    decode w = .ok i → i.wellFormed = true → step s = exec i { s with host := ms }

/-- The model's choice (assumption log 13, 14): a word presented in FAULTED stops the model and is not executed; with no
move of the host pending, the block waits and nothing changes. -/
def Obligations.StepWithoutAcceptedWord : Prop :=
  (∀ (s : State) (w : Word) (ms : List HostMove), s.host = .issue w :: ms → s.faulted = true →
    step s = .fault .stoppedUntilReset) ∧
  ∀ s : State, s.host = [] → step s = .next s

/-- Between instructions, in either state, the host writes one D register, one R register or one existing memory byte, and
nothing else changes (R16, R317). -/
def Obligations.HostWrites : Prop :=
  ∀ (s : State) (ms : List HostMove),
    (∀ i v, s.host = .writeD i v :: ms → ∃ t, step s = .next t ∧ t.readD i = v ∧ t.pc = s.pc ∧
      sameControl { s with host := ms } t ∧ sameOutside (· = i) (fun _ => False) (fun _ => False) s t) ∧
    (∀ i v, s.host = .writeR i v :: ms → ∃ t, step s = .next t ∧ t.readR i = v ∧ t.pc = s.pc ∧
      sameControl { s with host := ms } t ∧ sameOutside (fun _ => False) (· = i) (fun _ => False) s t) ∧
    (∀ a b, s.host = .writeByte a b :: ms → a.toNat < s.memBytes → ∃ t, step s = .next t ∧ t.readMem a.toNat = b ∧
      t.pc = s.pc ∧ sameControl { s with host := ms } t ∧
      sameOutside (fun _ => False) (fun _ => False) (· = a.toNat) s t)

/-- The reset event (R330): READY, `pc` and the fault record zero, memory unchanged; nothing is said of the registers. -/
def Obligations.ResetEvent : Prop :=
  ∀ (s : State) (ms : List HostMove), s.host = .reset :: ms →
    ∃ t, step s = .next t ∧ t.faulted = false ∧ t.pc = 0 ∧ t.fcause = 0 ∧ t.fpc = 0 ∧ t.finst = 0 ∧ t.faddr = 0 ∧
      (∀ a, t.readMem a = s.readMem a) ∧ t.memTop = s.memTop ∧ t.host = ms

/-- R298: faults are sticky. From FAULTED every step keeps `F`, the record and `pc`, or applies a reset, which clears them;
the host's accesses still succeed. -/
def Obligations.FaultsAreSticky : Prop :=
  ∀ s : State, s.faulted = true →
    (∀ t, step s = .next t →
      (t.faulted = true ∧ t.fcause = s.fcause ∧ t.fpc = s.fpc ∧ t.finst = s.finst ∧ t.faddr = s.faddr ∧ t.pc = s.pc) ∨
      (s.host.head? = some .reset ∧ t.faulted = false ∧ t.fcause = 0 ∧ t.fpc = 0 ∧ t.finst = 0 ∧ t.faddr = 0 ∧ t.pc = 0)) ∧
    ∀ ms, (∃ i v, s.host = .writeD i v :: ms) ∨ (∃ i v, s.host = .writeR i v :: ms) ∨
        (∃ a b, s.host = .writeByte a b :: ms ∧ a.toNat < s.memBytes) →
      ∃ t, step s = .next t ∧ t.faulted = true

/-- The status registers the host reads (R32). -/
def Obligations.StatusRegisters : Prop :=
  ∀ s : State,
    s.readStatus 0 = some (if s.faulted then 1 else 0) ∧ s.readStatus 1 = some s.pc ∧
    (∃ v, s.readStatus 2 = some v ∧ v.toNat = s.fcause.toNat) ∧
    s.readStatus 3 = some s.fpc ∧ s.readStatus 4 = some s.finst ∧ s.readStatus 5 = some s.faddr

/-- The state after reset, where the spec gives it a value: every status register reads zero (R32, R35). The registers' zeros
are the model's choice (assumption log 2, 3) and no part of this. -/
def Obligations.StatusAfterReset : Prop := ∀ n, n < 6 → State.reset.readStatus n = some 0

/-- R22: `Qk` is `D(2k+1) : D(2k)`; writing it writes both, and writing either changes its half. -/
def Obligations.QRegisterIsDPair : Prop :=
  ∀ (s : State) (k : Nat), k < 16 →
    s.readV (BitVec.ofNat 5 (2 * k)) true = s.readD (BitVec.ofNat 5 (2 * k + 1)) ++ s.readD (BitVec.ofNat 5 (2 * k)) ∧
    (∀ hi lo : DWord,
      (s.writeV (BitVec.ofNat 5 (2 * k)) true (hi ++ lo)).readD (BitVec.ofNat 5 (2 * k)) = lo ∧
      (s.writeV (BitVec.ofNat 5 (2 * k)) true (hi ++ lo)).readD (BitVec.ofNat 5 (2 * k + 1)) = hi ∧
      ∀ j : DReg, j.toNat / 2 ≠ k →
        (s.writeV (BitVec.ofNat 5 (2 * k)) true (hi ++ lo)).readD j = s.readD j) ∧
    ∀ v : DWord,
      (s.writeD (BitVec.ofNat 5 (2 * k)) v).readV (BitVec.ofNat 5 (2 * k)) true =
        s.readD (BitVec.ofNat 5 (2 * k + 1)) ++ v ∧
      (s.writeD (BitVec.ofNat 5 (2 * k + 1)) v).readV (BitVec.ofNat 5 (2 * k)) true =
        v ++ s.readD (BitVec.ofNat 5 (2 * k))

/-- Every instruction terminates in a next state: it completes, with `pc` one higher and no fault recorded, or it enters a
fault without any other effect (R28, R296, R297). -/
def Obligations.CompletesOrFaultsPrecisely : Prop :=
  ∀ (i : Instr) (s : State), ∃ t, exec i s = .next t ∧
    ((t.pc = s.pc + 1 ∧ sameControl s t) ∨
      ∃ code addr, 2 ≤ code.toNat ∧ code.toNat ≤ 5 ∧ faultEntered code (encode i) addr s t)

/-- R29: which instructions touch which state. -/
def Obligations.WhoWritesWhat : Prop :=
  ∀ (i : Instr) (s t : State), exec i s = .next t →
    (isStore i = false → ∀ a, t.readMem a = s.readMem a) ∧
    (isStore i = true → ∀ j, t.readD j = s.readD j) ∧
    (transferOf i = none → ∀ j, t.readR j = s.readR j) ∧
    ∀ o n T, transferOf i = some (o, n, T) → ∀ j, o.wb = .keep ∨ j ≠ o.rn → t.readR j = s.readR j

/-- Every step from a state of the invariant gives a state of the invariant. -/
def Obligations.StepKeepsInv : Prop := ∀ s t : State, Inv s → step s = .next t → Inv t

/-- The invariant holds after reset. -/
def Obligations.InvAtReset : Prop := Inv State.reset

/-- R18: a run of words from READY with no fault recorded ends normally after all of them, or in a fault of one of them, and
in no other way. The words wait as the host's pending moves, the model's form of the issue port (assumption log 1). -/
def Obligations.RunEnds : Prop :=
  ∀ (prog : List Word) (s : State), s.faulted = false → s.host = prog.map .issue →
    (∃ t, Sys2Proof.core.run prog.length s = .next t ∧ endsNormally prog.length s t) ∨
    ∃ k t, k < prog.length ∧ Sys2Proof.core.run (k + 1) s = .next t ∧ endsFaulted prog k s t

/-! Faults (60_exceptions.md). -/

/-- R292: `RegisterGroupFault` is raised exactly by the instructions whose register fields are not legal, whatever the
state. -/
def Obligations.RegisterGroupFault : Prop :=
  ∀ (i : Instr) (s : State),
    (¬registersLegal i → endsInFault i 2 0 s) ∧
    (registersLegal i → ¬endsInFault i 2 0 s)

/-- R293, R294: the faults of the loads and stores, alignment before range, with the base address in `FADDR`. -/
def Obligations.TransferFaults : Prop :=
  ∀ (i : Instr) (s : State) (o : LS) (n T : Nat), transferOf i = some (o, n, T) → ruleTransferFaults i o n T s

/-! Loads and stores (40_load_store.md). -/

/-- R121, R124 to R127: the structured loads. -/
def Obligations.StructuredLoads : Prop :=
  ∀ (o : LS) (s : State),
    ruleLoad (.vld1 o) o 1 s ∧ ruleLoad (.vld2 o) o 2 s ∧ ruleLoad (.vld3 o) o 3 s ∧ ruleLoad (.vld4 o) o 4 s

/-- R123, R128 to R131: the structured stores. -/
def Obligations.StructuredStores : Prop :=
  ∀ (o : LS) (s : State),
    ruleStore (.vst1 o) o 1 s ∧ ruleStore (.vst2 o) o 2 s ∧ ruleStore (.vst3 o) o 3 s ∧ ruleStore (.vst4 o) o 4 s

/-- R132: the duplicate load, its effect and its faults. -/
def Obligations.DuplicateLoad : Prop :=
  (∀ (o : LS) (s : State),
    (groupLegal o.vd o.q 1 → transferLegal o o.sz.bytes s →
      ∃ t, exec (.vlddup o) s = .next t ∧ completed (inOperand o.vd o.q) (fun j => j = o.rn) (fun _ => False) s t ∧
        writtenBack o o.sz.bytes s t ∧
        ∀ k b, k < laneCount o.q o.sz → b < o.sz.bytes →
          (lane o.sz.bits (t.readV o.vd o.q) k).extractLsb' (8 * b) 8 = s.readMem ((o.base s).toNat + b)) ∧
    ruleTransferFaults (.vlddup o) o 1 o.sz.bytes s) ∧
  refuses 0x03 fun w =>
    w.extractLsb' 6 2 ≠ 0 ∨ (w.extractLsb' 8 4 ≠ 0 ∧ w.extractLsb' 12 2 ≠ 2) ∨ w.extractLsb' 0 6 ≠ 0

/-- R122: the base writeback of every load and store that completes; one that faults performs none. -/
def Obligations.BaseWriteback : Prop :=
  ∀ (i : Instr) (s : State) (o : LS) (n T : Nat), transferOf i = some (o, n, T) →
    (registersLegal i ∧ transferLegal o T s →
      ∃ t, exec i s = .next t ∧ t.pc = s.pc + 1 ∧ writtenBack o T s t ∧ ∀ j, j ≠ o.rn → t.readR j = s.readR j) ∧
    (¬(registersLegal i ∧ transferLegal o T s) →
      ∃ t, exec i s = .next t ∧ t.pc = s.pc ∧ ∀ j, t.readR j = s.readR j)

/-- R65: a group loaded and then stored reproduces at the second base the bytes of the first, whether or not the two places
overlap, and at the same base leaves memory as it was; a group stored and then loaded again from there holds the stored
registers, in the same or another group. For each group size and every writeback of both instructions; both complete. -/
def Obligations.LoadStoreRoundTrip : Prop :=
  ∀ (ld st : LS → Instr) (n : Nat),
    (ld, st, n) ∈ [(Instr.vld1, Instr.vst1, 1), (Instr.vld2, Instr.vst2, 2), (Instr.vld3, Instr.vst3, 3),
      (Instr.vld4, Instr.vst4, 4)] →
    ∀ (o p : LS) (s : State), p.sz = o.sz → p.q = o.q → o.wb = .keep ∨ p.rn ≠ o.rn →
      groupLegal o.vd o.q n → groupLegal p.vd p.q n →
      transferLegal o (groupBytes o n) s → transferLegal p (groupBytes p n) s →
      (p.vd = o.vd →
        ∃ t u, exec (ld o) s = .next t ∧ loadCompleted o n s t ∧ exec (st p) t = .next u ∧ storeCompleted p n t u ∧
          (∀ b, b < groupBytes o n → u.readMem ((p.base s).toNat + b) = s.readMem ((o.base s).toNat + b)) ∧
          (p.base s = o.base s → ∀ a, u.readMem a = s.readMem a)) ∧
      (p.base s = o.base s →
        ∃ t u, exec (st o) s = .next t ∧ storeCompleted o n s t ∧ exec (ld p) t = .next u ∧ loadCompleted p n t u ∧
          (∀ m, m < n → u.readV (groupMember p.vd p.q m) p.q = s.readV (groupMember o.vd o.q m) o.q) ∧
          (p.vd = o.vd → ∀ j, u.readD j = s.readD j))

/-- `VLD1` and `VST1` move the same bits at every lane width (R54). -/
def Obligations.SingleTransfersIgnoreWidth : Prop :=
  ∀ (o : LS) (sz : Sz) (s : State), groupLegal o.vd o.q 1 → transferLegal o (groupBytes o 1) s →
    transferLegal { o with sz := sz } (groupBytes o 1) s →
    (∃ t u, exec (.vld1 o) s = .next t ∧ exec (.vld1 { o with sz := sz }) s = .next u ∧ t = u) ∧
    ∃ t u, exec (.vst1 o) s = .next t ∧ exec (.vst1 { o with sz := sz }) s = .next u ∧
      (∀ a, t.readMem a = u.readMem a) ∧ t.r = u.r

/-! Arithmetic (41_arithmetic.md). -/

/-- R152, R153: the wrapping add and subtract. -/
def Obligations.WrappingAddSubtract : Prop :=
  ∀ (o : V3) (s : State),
    rule3 (.vadd o) o s (fun _ x y r => wrapsTo r (x.toInt + y.toInt)) ∧
    rule3 (.vsub o) o s (fun _ x y r => wrapsTo r (x.toInt - y.toInt))

/-- R154, R155: the saturating adder and subtractor. -/
def Obligations.SaturatingAddSubtract : Prop :=
  ∀ (o : V3) (s : State),
    rule3 (.vqadd o) o s (fun _ x y r => satsTo r (x.toInt + y.toInt)) ∧
    rule3 (.vqsub o) o s (fun _ x y r => satsTo r (x.toInt - y.toInt))

/-- R156, R157: the wrapping negate and absolute value. -/
def Obligations.WrappingNegateAbsolute : Prop :=
  ∀ (o : V2) (s : State),
    rule2 (.vneg o) o.sz o.q o.vd o.vm s (fun x r => wrapsTo r (-x.toInt)) ∧
    rule2 (.vabs o) o.sz o.q o.vd o.vm s (fun x r => wrapsTo r |x.toInt|)

/-- R158, R159: the saturating negate and absolute value. -/
def Obligations.SaturatingNegateAbsolute : Prop :=
  ∀ (o : V2) (s : State),
    rule2 (.vqneg o) o.sz o.q o.vd o.vm s (fun x r => satsTo r (-x.toInt)) ∧
    rule2 (.vqabs o) o.sz o.q o.vd o.vm s (fun x r => satsTo r |x.toInt|)

/-- R167 with R165: the shift by an immediate; left with saturation, right with the floor. -/
def Obligations.ShiftImmediate : Prop :=
  (∀ (o : V2I) (s : State), (Instr.vqshl o).wellFormed = true →
    rule2 (.vqshl o) o.sz o.q o.vd o.vm s fun x r =>
      (0 ≤ o.imm.toInt → satsTo r (x.toInt * 2 ^ o.imm.toInt.toNat)) ∧
      (o.imm.toInt < 0 → r.toInt = x.toInt / 2 ^ (-o.imm.toInt).toNat)) ∧
  refuses 0x10 fun w =>
    (w.extractLsb' 0 8).toInt < -(widthOf w : Int) ∨ (widthOf w : Int) - 1 < (w.extractLsb' 0 8).toInt

/-- R168 with R165: the shift by all 32 bits of an R register, total in the amount. -/
def Obligations.ShiftRegister : Prop :=
  ∀ (o : V2R) (s : State),
    rule2 (.vqshlr o) o.sz o.q o.vd o.vm s fun x r =>
      (0 ≤ (s.readR o.rs).toInt → satsTo r (x.toInt * 2 ^ (s.readR o.rs).toInt.toNat)) ∧
      ((s.readR o.rs).toInt < 0 → r.toInt = x.toInt / 2 ^ (-(s.readR o.rs).toInt).toNat)

/-- A left shift saturates exactly past the headroom that `VCLS` counts (R165, R272). -/
def Obligations.ShiftSaturatesPastHeadroom : Prop :=
  ∀ (o : V2R) (c : V2) (s : State), c.sz = o.sz → c.q = o.q → c.vm = o.vm → kindLegal o.q o.vd → kindLegal o.q o.vm →
    kindLegal c.q c.vd → 0 ≤ (s.readR o.rs).toInt →
    ∃ t u, exec (.vqshlr o) s = .next t ∧ exec (.vcls c) s = .next u ∧
      ∀ k, k < laneCount o.q o.sz →
        let x := (lane o.sz.bits (s.readV o.vm o.q) k).toInt
        let r := (lane o.sz.bits (t.readV o.vd o.q) k).toInt
        let headroom := (lane o.sz.bits (u.readV c.vd o.q) k).toNat
        (x = 0 ∨ (s.readR o.rs).toInt ≤ headroom → r = x * 2 ^ (s.readR o.rs).toInt.toNat) ∧
        (0 < x → headroom < (s.readR o.rs).toInt → r = 2 ^ (o.sz.bits - 1) - 1) ∧
        (x < 0 → headroom < (s.readR o.rs).toInt → r = -(2 ^ (o.sz.bits - 1)))

/-- R169: the rounding right shift, on unbounded integers. -/
def Obligations.RoundingShift : Prop :=
  (∀ (o : V2I) (s : State), (Instr.vrshr o).wellFormed = true →
    rule2 (.vrshr o) o.sz o.q o.vd o.vm s fun x r =>
      r.toInt = (x.toInt + 2 ^ (o.imm.toNat - 1)) / 2 ^ o.imm.toNat) ∧
  refuses 0x12 fun w => immOf w = 0 ∨ widthOf w < immOf w

/-- R170, R171: the signed minimum and maximum. -/
def Obligations.MinimumMaximum : Prop :=
  ∀ (o : V3) (s : State),
    rule3 (.vmin o) o s (fun _ x y r => (x.toInt ≤ y.toInt → r = x) ∧ (y.toInt < x.toInt → r = y)) ∧
    rule3 (.vmax o) o s (fun _ x y r => (y.toInt ≤ x.toInt → r = x) ∧ (x.toInt < y.toInt → r = y))

/-- R172 to R175: the pairwise instructions. -/
def Obligations.PairwiseReduce : Prop :=
  (∀ (o : V3) (s : State), hasLanePairs o.q o.sz = true →
    rulePairs (.vpadd o) o s (fun x y r => wrapsTo r (x.toInt + y.toInt)) ∧
    rulePairs (.vpmax o) o s (fun x y r => (y.toInt ≤ x.toInt → r = x) ∧ (x.toInt < y.toInt → r = y)) ∧
    rulePairs (.vpmin o) o s (fun x y r => (x.toInt ≤ y.toInt → r = x) ∧ (y.toInt < x.toInt → r = y))) ∧
  ∀ opc ∈ [0x15, 0x16, 0x17], refuses opc fun w => szOf w = 3 ∧ qOf w = 0

/-! Multiply (42_multiply.md). -/

/-- R191 to R193: multiply, multiply-accumulate and multiply-subtract at the lane width. -/
def Obligations.MultiplyAccumulate : Prop :=
  ∀ (o : V3) (s : State),
    rule3 (.vmul o) o s (fun _ x y r => wrapsTo r (x.toInt * y.toInt)) ∧
    rule3 (.vmla o) o s (fun d x y r => wrapsTo r (d.toInt + x.toInt * y.toInt)) ∧
    rule3 (.vmls o) o s (fun d x y r => wrapsTo r (d.toInt - x.toInt * y.toInt))

/-- R194 to R197: the widening multiplies; the plain product is exact. -/
def Obligations.WideningMultiply : Prop :=
  (∀ (o : V3W) (s : State), o.sz.isNarrow = true →
    ruleWide (.vmull o) o s (fun _ x y r => r.toInt = x.toInt * y.toInt) ∧
    ruleWide (.vmlal o) o s (fun d x y r => wrapsTo r (d.toInt + x.toInt * y.toInt)) ∧
    ruleWide (.vmlsl o) o s (fun d x y r => wrapsTo r (d.toInt - x.toInt * y.toInt))) ∧
  ∀ opc ∈ [0x1B, 0x1C, 0x1D], refuses opc fun w =>
    szOf w = 3 ∨ qOf w = 1 ∨ immOf w ≠ 0

/-- R200, R201 with R198, R199: the doubling saturating multiply high, truncated and rounded. -/
def Obligations.DoublingMultiplyHigh : Prop :=
  (∀ (o : V3) (s : State), o.sz.isFractional = true →
    rule3 (.vqdmulh o) o s (fun _ x y r => satsTo r (2 * x.toInt * y.toInt / 2 ^ o.sz.bits)) ∧
    rule3 (.vqrdmulh o) o s (fun _ x y r =>
      satsTo r ((x.toInt * y.toInt + 2 ^ (o.sz.bits - 2)) / 2 ^ (o.sz.bits - 1)))) ∧
  ∀ opc ∈ [0x1E, 0x1F], refuses opc fun w => szOf w = 0 ∨ szOf w = 3

/-- R202 to R204: the by-lane forms. -/
def Obligations.DoublingMultiplyHighByLane : Prop :=
  (∀ (o : V3L) (s : State), (Instr.vqdmulhLane o).wellFormed = true →
    ruleByLane (.vqdmulhLane o) o s (fun x y r => satsTo r (2 * x.toInt * y.toInt / 2 ^ o.sz.bits)) ∧
    ruleByLane (.vqrdmulhLane o) o s (fun x y r =>
      satsTo r ((x.toInt * y.toInt + 2 ^ (o.sz.bits - 2)) / 2 ^ (o.sz.bits - 1)))) ∧
  ∀ opc ∈ [0x20, 0x21], refuses opc fun w =>
    szOf w = 0 ∨ szOf w = 3 ∨ 64 / widthOf w ≤ immOf w

/-- R198, R199: the one saturating case of the doubling multiplies is `MIN * MIN`; every other result is exact, in either
form of the formulas. -/
def Obligations.DoublingSaturatesOnlyAtMinimum : Prop :=
  ∀ (o : V3) (s : State), o.sz.isFractional = true → kindLegal o.q o.vd → kindLegal o.q o.vn → kindLegal o.q o.vm →
    ∃ t u, exec (.vqdmulh o) s = .next t ∧ exec (.vqrdmulh o) s = .next u ∧
      ∀ k, k < laneCount o.q o.sz →
        let w := o.sz.bits
        let x := (lane w (s.readV o.vn o.q) k).toInt
        let y := (lane w (s.readV o.vm o.q) k).toInt
        let truncated := (lane w (t.readV o.vd o.q) k).toInt
        let rounded := (lane w (u.readV o.vd o.q) k).toInt
        (x = -(2 ^ (w - 1)) ∧ y = -(2 ^ (w - 1)) → truncated = 2 ^ (w - 1) - 1 ∧ rounded = 2 ^ (w - 1) - 1) ∧
        (¬(x = -(2 ^ (w - 1)) ∧ y = -(2 ^ (w - 1))) →
          truncated = x * y / 2 ^ (w - 1) ∧ truncated = 2 * x * y / 2 ^ w ∧
          rounded = (x * y + 2 ^ (w - 2)) / 2 ^ (w - 1) ∧ rounded = (2 * x * y + 2 ^ (w - 1)) / 2 ^ w)

/-! Shuffle (43_shuffle.md). -/

/-- R221: every group of `g` lanes is reversed in place. -/
def Obligations.ReverseLanes : Prop :=
  (∀ (o : V2I) (s : State), (Instr.vrev o).wellFormed = true →
    (kindLegal o.q o.vd ∧ kindLegal o.q o.vm →
      ∃ t, exec (.vrev o) s = .next t ∧ completedD (inOperand o.vd o.q) s t ∧
        ∀ j i, j < laneCount o.q o.sz / o.imm.toNat → i < o.imm.toNat →
          lane o.sz.bits (t.readV o.vd o.q) (j * o.imm.toNat + i) =
            lane o.sz.bits (s.readV o.vm o.q) (j * o.imm.toNat + (o.imm.toNat - 1 - i))) ∧
    (¬(kindLegal o.q o.vd ∧ kindLegal o.q o.vm) → endsInFault (.vrev o) 2 0 s)) ∧
  refuses 0x24 fun w =>
    (immOf w ≠ 2 ∧ immOf w ≠ 4 ∧ immOf w ≠ 8) ∨ lanesOf w < immOf w

/-- R223, R224: element `2i` of the pair of registers after `VZIP` is lane `i` of `Vd` before, element `2i + 1` lane `i` of
`Vm`; `VUZP` is the inverse map. -/
def Obligations.ZipUnzip : Prop :=
  (∀ (o : V2) (s : State), hasLanePairs o.q o.sz = true →
    ruleInPlace (.vzip o) o.q o.vd o.vm s (fun s t => ∀ i, i < laneCount o.q o.sz →
      catLane t o.sz o.q o.vd o.vm (2 * i) = lane o.sz.bits (s.readV o.vd o.q) i ∧
      catLane t o.sz o.q o.vd o.vm (2 * i + 1) = lane o.sz.bits (s.readV o.vm o.q) i) ∧
    ruleInPlace (.vuzp o) o.q o.vd o.vm s (fun s t => ∀ i, i < laneCount o.q o.sz →
      lane o.sz.bits (t.readV o.vd o.q) i = catLane s o.sz o.q o.vd o.vm (2 * i) ∧
      lane o.sz.bits (t.readV o.vm o.q) i = catLane s o.sz o.q o.vd o.vm (2 * i + 1))) ∧
  ∀ opc ∈ [0x25, 0x26], refuses opc fun w => szOf w = 3 ∧ qOf w = 0

/-- R225: `VZIP` then `VUZP`, and `VUZP` then `VZIP`, restore every register; each completes, and in between stand the lanes
of R223 and R224. -/
def Obligations.ZipUnzipRoundTrip : Prop :=
  ∀ (o : V2) (s : State), hasLanePairs o.q o.sz = true → kindLegal o.q o.vd → kindLegal o.q o.vm → o.vd ≠ o.vm →
    (∃ t u, exec (.vzip o) s = .next t ∧ completedD (fun j => inOperand o.vd o.q j ∨ inOperand o.vm o.q j) s t ∧
      exec (.vuzp o) t = .next u ∧ completedD (fun j => inOperand o.vd o.q j ∨ inOperand o.vm o.q j) t u ∧
      (∀ i, i < laneCount o.q o.sz →
        catLane t o.sz o.q o.vd o.vm (2 * i) = lane o.sz.bits (s.readV o.vd o.q) i ∧
        catLane t o.sz o.q o.vd o.vm (2 * i + 1) = lane o.sz.bits (s.readV o.vm o.q) i) ∧
      ∀ j, u.readD j = s.readD j) ∧
    ∃ t u, exec (.vuzp o) s = .next t ∧ completedD (fun j => inOperand o.vd o.q j ∨ inOperand o.vm o.q j) s t ∧
      exec (.vzip o) t = .next u ∧ completedD (fun j => inOperand o.vd o.q j ∨ inOperand o.vm o.q j) t u ∧
      (∀ i, i < laneCount o.q o.sz →
        lane o.sz.bits (t.readV o.vd o.q) i = catLane s o.sz o.q o.vd o.vm (2 * i) ∧
        lane o.sz.bits (t.readV o.vm o.q) i = catLane s o.sz o.q o.vd o.vm (2 * i + 1)) ∧
      ∀ j, u.readD j = s.readD j

/-- R226: each pair of lanes of the two registers is transposed. -/
def Obligations.Transpose : Prop :=
  (∀ (o : V2) (s : State), hasLanePairs o.q o.sz = true →
    ruleInPlace (.vtrn o) o.q o.vd o.vm s fun s t => ∀ j, j < laneCount o.q o.sz / 2 →
      lane o.sz.bits (t.readV o.vd o.q) (2 * j) = lane o.sz.bits (s.readV o.vd o.q) (2 * j) ∧
      lane o.sz.bits (t.readV o.vd o.q) (2 * j + 1) = lane o.sz.bits (s.readV o.vm o.q) (2 * j) ∧
      lane o.sz.bits (t.readV o.vm o.q) (2 * j) = lane o.sz.bits (s.readV o.vd o.q) (2 * j + 1) ∧
      lane o.sz.bits (t.readV o.vm o.q) (2 * j + 1) = lane o.sz.bits (s.readV o.vm o.q) (2 * j + 1)) ∧
  refuses 0x27 fun w => szOf w = 3 ∧ qOf w = 0

/-- `VTRN` twice restores every register (R226). `VREV` of `Vm` and again, with the same group size, of its result gives
`Vm`, and in one register restores every register (R221). Each completes, and in between stand the lanes of R226 and
R221. -/
def Obligations.TransposeReverseTwice : Prop :=
  (∀ (o : V2) (s : State), hasLanePairs o.q o.sz = true → kindLegal o.q o.vd → kindLegal o.q o.vm → o.vd ≠ o.vm →
    ∃ t u, exec (.vtrn o) s = .next t ∧ completedD (fun j => inOperand o.vd o.q j ∨ inOperand o.vm o.q j) s t ∧
      exec (.vtrn o) t = .next u ∧ completedD (fun j => inOperand o.vd o.q j ∨ inOperand o.vm o.q j) t u ∧
      (∀ j, j < laneCount o.q o.sz / 2 →
        lane o.sz.bits (t.readV o.vd o.q) (2 * j) = lane o.sz.bits (s.readV o.vd o.q) (2 * j) ∧
        lane o.sz.bits (t.readV o.vd o.q) (2 * j + 1) = lane o.sz.bits (s.readV o.vm o.q) (2 * j) ∧
        lane o.sz.bits (t.readV o.vm o.q) (2 * j) = lane o.sz.bits (s.readV o.vd o.q) (2 * j + 1) ∧
        lane o.sz.bits (t.readV o.vm o.q) (2 * j + 1) = lane o.sz.bits (s.readV o.vm o.q) (2 * j + 1)) ∧
      ∀ j, u.readD j = s.readD j) ∧
  ∀ (o : V2I) (c : DReg) (s : State), (Instr.vrev o).wellFormed = true → kindLegal o.q o.vd → kindLegal o.q o.vm →
    kindLegal o.q c →
    ∃ t u, exec (.vrev o) s = .next t ∧ completedD (inOperand o.vd o.q) s t ∧
      exec (.vrev { o with vd := c, vm := o.vd }) t = .next u ∧ completedD (inOperand c o.q) t u ∧
      (∀ j i, j < laneCount o.q o.sz / o.imm.toNat → i < o.imm.toNat →
        lane o.sz.bits (t.readV o.vd o.q) (j * o.imm.toNat + i) =
          lane o.sz.bits (s.readV o.vm o.q) (j * o.imm.toNat + (o.imm.toNat - 1 - i))) ∧
      u.readV c o.q = s.readV o.vm o.q ∧ (o.vm = o.vd → c = o.vd → ∀ j, u.readD j = s.readD j)

/-- R227: the window at offset `k`; offset 0 gives `Vn`, offset `ec` gives `Vm`. -/
def Obligations.ExtractWindow : Prop :=
  (∀ (o : V3X) (s : State), (Instr.vext o).wellFormed = true →
    (kindLegal o.q o.vd ∧ kindLegal o.q o.vn ∧ kindLegal o.q o.vm →
      ∃ t, exec (.vext o) s = .next t ∧ completedD (inOperand o.vd o.q) s t ∧
        (∀ i, i < laneCount o.q o.sz →
          lane o.sz.bits (t.readV o.vd o.q) i = catLane s o.sz o.q o.vn o.vm (o.k.toNat + i)) ∧
        (o.k = 0 → t.readV o.vd o.q = s.readV o.vn o.q) ∧
        (o.k.toNat = laneCount o.q o.sz → t.readV o.vd o.q = s.readV o.vm o.q)) ∧
    (¬(kindLegal o.q o.vd ∧ kindLegal o.q o.vn ∧ kindLegal o.q o.vm) → endsInFault (.vext o) 2 0 s)) ∧
  refuses 0x28 fun w =>
    lanesOf w < immOf w

/-- R228: one lane of a D register in every lane of the destination. -/
def Obligations.Broadcast : Prop :=
  (∀ (o : V2I) (s : State), (Instr.vdup o).wellFormed = true →
    (kindLegal o.q o.vd →
      ∃ t, exec (.vdup o) s = .next t ∧ completedD (inOperand o.vd o.q) s t ∧
        ∀ i, i < laneCount o.q o.sz →
          lane o.sz.bits (t.readV o.vd o.q) i = lane o.sz.bits (s.readV o.vm false) o.imm.toNat) ∧
    (¬kindLegal o.q o.vd → endsInFault (.vdup o) 2 0 s)) ∧
  refuses 0x29 fun w => 64 / widthOf w ≤ immOf w

/-- R229: the full contents of the two registers are exchanged. -/
def Obligations.Swap : Prop :=
  (∀ (o : V2B) (s : State),
    ruleInPlace (.vswp o) o.q o.vd o.vm s fun s t =>
      t.readV o.vd o.q = s.readV o.vm o.q ∧ t.readV o.vm o.q = s.readV o.vd o.q) ∧
  refuses 0x2A fun w => szOf w ≠ 0

/-! Compare and select (44_compare_select.md). -/

/-- R252 to R254, R258: the compares of two vectors and the bit test. -/
def Obligations.CompareVectors : Prop :=
  ∀ (o : V3) (s : State),
    rule3 (.vcge o) o s (fun _ x y r => isMask r (y.toInt ≤ x.toInt)) ∧
    rule3 (.vcgt o) o s (fun _ x y r => isMask r (y.toInt < x.toInt)) ∧
    rule3 (.vceq o) o s (fun _ x y r => isMask r (x = y)) ∧
    rule3 (.vtst o) o s (fun _ x y r => isMask r (∃ b, x.getLsbD b = true ∧ y.getLsbD b = true))

/-- R255 to R257: the compares against zero. -/
def Obligations.CompareZero : Prop :=
  ∀ (o : V2) (s : State),
    rule2 (.vcgez o) o.sz o.q o.vd o.vm s (fun x r => isMask r (0 ≤ x.toInt)) ∧
    rule2 (.vcgtz o) o.sz o.q o.vd o.vm s (fun x r => isMask r (0 < x.toInt)) ∧
    rule2 (.vceqz o) o.sz o.q o.vd o.vm s (fun x r => isMask r (∀ b, x.getLsbD b = false))

/-- R259: the bit merge; unmasked bits of the destination are preserved. -/
def Obligations.BitMerge : Prop :=
  (∀ (o : V3B) (s : State),
    (kindLegal o.q o.vd ∧ kindLegal o.q o.vn ∧ kindLegal o.q o.vm →
      ∃ t, exec (.vbit o) s = .next t ∧ completedD (inOperand o.vd o.q) s t ∧
        ∀ b, b < regBits o.q → (t.readV o.vd o.q).getLsbD b =
          if (s.readV o.vm o.q).getLsbD b then (s.readV o.vn o.q).getLsbD b else (s.readV o.vd o.q).getLsbD b) ∧
    (¬(kindLegal o.q o.vd ∧ kindLegal o.q o.vn ∧ kindLegal o.q o.vm) → endsInFault (.vbit o) 2 0 s)) ∧
  refuses 0x33 fun w => szOf w ≠ 0

/-- The select idiom (R260): copy `b` to `d`, compare `a > b` into `m`, merge `a` into `d` under `m`; `d` then holds what
`VMAX` would give. The registers `d` and `m` are apart from each other and from `a` and `b`. All four complete. -/
def Obligations.SelectIdiom : Prop :=
  ∀ (sz : Sz) (q : Bool) (a b d m : DReg) (s : State), kindLegal q a → kindLegal q b → kindLegal q d → kindLegal q m →
    (∀ j, inOperand d q j → ¬inOperand a q j ∧ ¬inOperand b q j ∧ ¬inOperand m q j) →
    (∀ j, inOperand m q j → ¬inOperand a q j ∧ ¬inOperand b q j) →
    ∃ t u v x,
      exec (.vext { sz := .s8, q := q, vd := d, vn := b, vm := b, k := 0 }) s = .next t ∧ completedD (inOperand d q) s t ∧
      exec (.vcgt { sz := sz, q := q, vd := m, vn := a, vm := b }) t = .next u ∧ completedD (inOperand m q) t u ∧
      exec (.vbit { q := q, vd := d, vn := a, vm := m }) u = .next v ∧ completedD (inOperand d q) u v ∧
      exec (.vmax { sz := sz, q := q, vd := d, vn := a, vm := b }) s = .next x ∧ completedD (inOperand d q) s x ∧
      t.readV d q = s.readV b q ∧
      (∀ k, k < laneCount q sz → isMask (lane sz.bits (u.readV m q) k)
        ((lane sz.bits (s.readV b q) k).toInt < (lane sz.bits (s.readV a q) k).toInt)) ∧
      v.readV d q = x.readV d q

/-! Conversion and counting (45_conversion_misc.md). -/

/-- R271, R272: the leading zeros, from the highest 1 bit; the redundant copies of the sign bit, counted down. -/
def Obligations.LeadingBitCounts : Prop :=
  ∀ (o : V2) (s : State),
    rule2 (.vclz o) o.sz o.q o.vd o.vm s (fun x r =>
      (x = 0 → r.toNat = o.sz.bits) ∧
      ∀ h, h < o.sz.bits → x.getLsbD h = true → (∀ j, h < j → x.getLsbD j = false) → r.toNat = o.sz.bits - 1 - h) ∧
    rule2 (.vcls o) o.sz o.q o.vd o.vm s (fun x r =>
      r.toNat ≤ o.sz.bits - 1 ∧
      (∀ j, j < o.sz.bits → o.sz.bits - 1 - r.toNat ≤ j → x.getLsbD j = x.msb) ∧
      (r.toNat < o.sz.bits - 1 → x.getLsbD (o.sz.bits - 2 - r.toNat) ≠ x.msb) ∧
      ∀ n : Nat, n ≤ r.toNat ↔ n < o.sz.bits ∧ -(2 ^ (o.sz.bits - 1)) ≤ x.toInt * 2 ^ n ∧
        x.toInt * 2 ^ n ≤ 2 ^ (o.sz.bits - 1) - 1)

/-- R273: the saturating narrowing shift with rounding. -/
def Obligations.SaturatingNarrow : Prop :=
  (∀ (o : V2N) (s : State), (Instr.vqrshrn o).wellFormed = true →
    (kindLegal true o.vm →
      ∃ t, exec (.vqrshrn o) s = .next t ∧ completedD (inOperand o.vd false) s t ∧
        ∀ k, k < 64 / o.sz.bits →
          satsTo (lane o.sz.bits (t.readV o.vd false) k)
            (((lane (2 * o.sz.bits) (s.readV o.vm true) k).toInt + 2 ^ (o.n.toNat - 1)) / 2 ^ o.n.toNat)) ∧
    (¬kindLegal true o.vm → endsInFault (.vqrshrn o) 2 0 s)) ∧
  refuses 0x36 fun w =>
    szOf w = 3 ∨ qOf w = 1 ∨ immOf w = 0 ∨ 2 * widthOf w < immOf w

/-- The conversion to float where the spec fixes it (R274 E1): a lane whose value scaled by `2^(-fbits)` is representable
becomes its encoding, zero becomes `+0.0`. Nothing is said of the other lanes (assumption log 8). -/
def Obligations.FixedToFloatExact : Prop :=
  (∀ (o : V2F) (s : State), (Instr.vcvtF32S32 o).wellFormed = true →
    rule2 (.vcvtF32S32 o) .s32 o.q o.vd o.vm s fun x r =>
      (x = 0 → r = 0) ∧
      (x ≠ 0 → ∀ f : Word, floatValue f = some ((x.toInt : ℚ) / 2 ^ o.fbits.toNat) → r = f)) ∧
  refuses 0x37 fun w => szOf w ≠ 2 ∨ 32 < immOf w

/-- The conversion from float where the spec fixes it (R274 E2): a finite value that scaled by `2^fbits` is an integer in
range becomes that integer. Nothing is said of the other lanes (assumption log 8). -/
def Obligations.FloatToFixedExact : Prop :=
  (∀ (o : V2F) (s : State), (Instr.vcvtS32F32 o).wellFormed = true →
    rule2 (.vcvtS32F32 o) .s32 o.q o.vd o.vm s fun x r =>
      ∀ (v : ℚ) (z : Int), floatValue x = some v → v * 2 ^ o.fbits.toNat = z → -(2 ^ 31) ≤ z → z ≤ 2 ^ 31 - 1 →
        BitVec.toInt r = z) ∧
  refuses 0x38 fun w => szOf w ≠ 2 ∨ 32 < immOf w

/-- Converting to float and back, with the same `fbits`, gives the lanes again wherever the first conversion is exact (R274
E3), in whatever registers; in one register every register is restored. Both complete, and in between stand the
encodings. -/
def Obligations.ConversionRoundTrip : Prop :=
  ∀ (o : V2F) (c : DReg) (s : State), (Instr.vcvtF32S32 o).wellFormed = true → kindLegal o.q o.vd → kindLegal o.q o.vm →
    kindLegal o.q c →
    (∀ k, k < laneCount o.q .s32 → ∃ f : Word,
      floatValue f = some (((lane 32 (s.readV o.vm o.q) k).toInt : ℚ) / 2 ^ o.fbits.toNat)) →
    ∃ t u, exec (.vcvtF32S32 o) s = .next t ∧ completedD (inOperand o.vd o.q) s t ∧
      exec (.vcvtS32F32 { o with vd := c, vm := o.vd }) t = .next u ∧ completedD (inOperand c o.q) t u ∧
      (∀ k, k < laneCount o.q .s32 →
        floatValue (lane 32 (t.readV o.vd o.q) k) =
          some (((lane 32 (s.readV o.vm o.q) k).toInt : ℚ) / 2 ^ o.fbits.toNat)) ∧
      u.readV c o.q = s.readV o.vm o.q ∧ (o.vm = o.vd → c = o.vd → ∀ j, u.readD j = s.readD j)

/-- R278, R295: the square root of one lane, `SQRT_FN` open, the other lane kept; a negative lane is a `DomainFault`. -/
def Obligations.SquareRoot : Prop :=
  (∀ (o : V2S) (s : State),
    (0 ≤ (lane 32 (s.readV o.vm false) o.mi.toNat).toInt →
      ∃ t, exec (.vsqrt o) s = .next t ∧ completedD (inOperand o.vd false) s t ∧
        lane 32 (t.readV o.vd false) o.di.toNat =
          Config.sqrtFn ((lane 32 (s.readV o.vm false) o.mi.toNat).setWidth 31) ∧
        lane 32 (t.readV o.vd false) (1 - o.di.toNat) = lane 32 (s.readV o.vd false) (1 - o.di.toNat)) ∧
    ((lane 32 (s.readV o.vm false) o.mi.toNat).toInt < 0 → endsInFault (.vsqrt o) 5 0 s)) ∧
  refuses 0x39 fun w => szOf w ≠ 2 ∨ qOf w = 1 ∨ 4 ≤ immOf w
end

