-- ==== Sys2Proof/Laws/Fields.lean ====
section
/-! SUPPORT. The fields of packed words (30_encoding.md R81, R84): each field of a packed word is what was packed, and a
word is the packing of its fields. -/

namespace Sys2Proof

/-! Small fields. -/

@[simp] theorem Sz.ofField_field (sz : Sz) : Sz.ofField sz.field = sz := by cases sz <;> rfl

@[simp] theorem Sz.field_ofField (b : BitVec 2) : (Sz.ofField b).field = b := by revert b; decide

@[simp] theorem bitSet_ofBool (b : Bool) : bitSet (BitVec.ofBool b) = b := by cases b <;> rfl

@[simp] theorem ofBool_bitSet (b : BitVec 1) : BitVec.ofBool (bitSet b) = b := by revert b; decide

/-! The common layout. -/

section common

variable (opc : BitVec 6) (sz : BitVec 2) (q : BitVec 1) (vd vn vm : DReg) (imm : Imm8)

@[simp] theorem fieldOpc_packV : fieldOpc (packV opc sz q vd vn vm imm) = opc := by
  apply BitVec.eq_of_getLsbD_eq
  intro k hk
  simp only [fieldOpc, packV, BitVec.getLsbD_extractLsb', BitVec.getLsbD_append]
  interval_cases k <;> simp

@[simp] theorem fieldSz_packV : fieldSz (packV opc sz q vd vn vm imm) = sz := by
  apply BitVec.eq_of_getLsbD_eq
  intro k hk
  simp only [fieldSz, packV, BitVec.getLsbD_extractLsb', BitVec.getLsbD_append]
  interval_cases k <;> simp

@[simp] theorem fieldQ_packV : fieldQ (packV opc sz q vd vn vm imm) = q := by
  apply BitVec.eq_of_getLsbD_eq
  intro k hk
  simp only [fieldQ, packV, BitVec.getLsbD_extractLsb', BitVec.getLsbD_append]
  interval_cases k <;> simp

@[simp] theorem fieldVd_packV : fieldVd (packV opc sz q vd vn vm imm) = vd := by
  apply BitVec.eq_of_getLsbD_eq
  intro k hk
  simp only [fieldVd, packV, BitVec.getLsbD_extractLsb', BitVec.getLsbD_append]
  interval_cases k <;> simp

@[simp] theorem fieldVn_packV : fieldVn (packV opc sz q vd vn vm imm) = vn := by
  apply BitVec.eq_of_getLsbD_eq
  intro k hk
  simp only [fieldVn, packV, BitVec.getLsbD_extractLsb', BitVec.getLsbD_append]
  interval_cases k <;> simp

@[simp] theorem fieldVm_packV : fieldVm (packV opc sz q vd vn vm imm) = vm := by
  apply BitVec.eq_of_getLsbD_eq
  intro k hk
  simp only [fieldVm, packV, BitVec.getLsbD_extractLsb', BitVec.getLsbD_append]
  interval_cases k <;> simp

@[simp] theorem fieldImm_packV : fieldImm (packV opc sz q vd vn vm imm) = imm := by
  apply BitVec.eq_of_getLsbD_eq
  intro k hk
  simp only [fieldImm, packV, BitVec.getLsbD_extractLsb', BitVec.getLsbD_append]
  interval_cases k <;> simp

/-- A word is the packing of its common fields. -/
theorem packV_fields (w : Word) :
    packV (fieldOpc w) (fieldSz w) (fieldQ w) (fieldVd w) (fieldVn w) (fieldVm w) (fieldImm w) = w := by
  apply BitVec.eq_of_getLsbD_eq
  intro k hk
  simp only [packV, BitVec.getLsbD_append]
  interval_cases k <;>
    simp [fieldOpc, fieldSz, fieldQ, fieldVd, fieldVn, fieldVm, fieldImm]

end common

/-! Sub-fields of `Vn` (format `V2R`) and `imm8` (format `V2S`). -/

@[simp] theorem fieldBit17_packV (opc : BitVec 6) (sz : BitVec 2) (q : BitVec 1) (vd vm : DReg) (z : BitVec 1) (rs : RReg) (imm : Imm8) :
    fieldBit17 (packV opc sz q vd (z ++ rs) vm imm) = z := by
  apply BitVec.eq_of_getLsbD_eq
  intro k hk
  simp only [fieldBit17, packV, BitVec.getLsbD_extractLsb', BitVec.getLsbD_append]
  interval_cases k <;> simp

@[simp] theorem fieldRs_packV (opc : BitVec 6) (sz : BitVec 2) (q : BitVec 1) (vd vm : DReg) (z : BitVec 1) (rs : RReg) (imm : Imm8) :
    fieldRs (packV opc sz q vd (z ++ rs) vm imm) = rs := by
  apply BitVec.eq_of_getLsbD_eq
  intro k hk
  simp only [fieldRs, packV, BitVec.getLsbD_extractLsb', BitVec.getLsbD_append]
  interval_cases k <;> simp

@[simp] theorem fieldImmHigh_packV (opc : BitVec 6) (sz : BitVec 2) (q : BitVec 1) (vd vm : DReg) (vn : DReg) (z : BitVec 6) (di mi : BitVec 1) :
    fieldImmHigh (packV opc sz q vd vn vm (z ++ di ++ mi)) = z := by
  apply BitVec.eq_of_getLsbD_eq
  intro k hk
  simp only [fieldImmHigh, packV, BitVec.getLsbD_extractLsb', BitVec.getLsbD_append]
  interval_cases k <;> simp

@[simp] theorem fieldDi_packV (opc : BitVec 6) (sz : BitVec 2) (q : BitVec 1) (vd vm : DReg) (vn : DReg) (z : BitVec 6) (di mi : BitVec 1) :
    fieldDi (packV opc sz q vd vn vm (z ++ di ++ mi)) = di := by
  apply BitVec.eq_of_getLsbD_eq
  intro k hk
  simp only [fieldDi, packV, BitVec.getLsbD_extractLsb', BitVec.getLsbD_append]
  interval_cases k <;> simp

@[simp] theorem fieldMi_packV (opc : BitVec 6) (sz : BitVec 2) (q : BitVec 1) (vd vm : DReg) (vn : DReg) (z : BitVec 6) (di mi : BitVec 1) :
    fieldMi (packV opc sz q vd vn vm (z ++ di ++ mi)) = mi := by
  apply BitVec.eq_of_getLsbD_eq
  intro k hk
  simp only [fieldMi, packV, BitVec.getLsbD_extractLsb', BitVec.getLsbD_append]
  interval_cases k <;> simp

theorem fieldVn_eq (w : Word) : fieldVn w = fieldBit17 w ++ fieldRs w := by
  apply BitVec.eq_of_getLsbD_eq
  intro k hk
  simp only [fieldVn, BitVec.getLsbD_append]
  interval_cases k <;> simp [fieldBit17, fieldRs]

theorem fieldImm_eq (w : Word) : fieldImm w = fieldImmHigh w ++ fieldDi w ++ fieldMi w := by
  apply BitVec.eq_of_getLsbD_eq
  intro k hk
  simp only [fieldImm, BitVec.getLsbD_append]
  interval_cases k <;> simp [fieldImmHigh, fieldDi, fieldMi]

/-! Format `LS`. -/

section ls

variable (opc : BitVec 6) (sz : BitVec 2) (q : BitVec 1) (vd : DReg) (rn : RReg) (wb : BitVec 2) (rm : RReg)
  (nm1 : BitVec 2)

@[simp] theorem fieldOpc_packLS : fieldOpc (packLS opc sz q vd rn wb rm nm1) = opc := by
  apply BitVec.eq_of_getLsbD_eq
  intro k hk
  simp only [fieldOpc, packLS, BitVec.getLsbD_extractLsb', BitVec.getLsbD_append]
  interval_cases k <;> simp

@[simp] theorem fieldSz_packLS : fieldSz (packLS opc sz q vd rn wb rm nm1) = sz := by
  apply BitVec.eq_of_getLsbD_eq
  intro k hk
  simp only [fieldSz, packLS, BitVec.getLsbD_extractLsb', BitVec.getLsbD_append]
  interval_cases k <;> simp

@[simp] theorem fieldQ_packLS : fieldQ (packLS opc sz q vd rn wb rm nm1) = q := by
  apply BitVec.eq_of_getLsbD_eq
  intro k hk
  simp only [fieldQ, packLS, BitVec.getLsbD_extractLsb', BitVec.getLsbD_append]
  interval_cases k <;> simp

@[simp] theorem fieldVd_packLS : fieldVd (packLS opc sz q vd rn wb rm nm1) = vd := by
  apply BitVec.eq_of_getLsbD_eq
  intro k hk
  simp only [fieldVd, packLS, BitVec.getLsbD_extractLsb', BitVec.getLsbD_append]
  interval_cases k <;> simp

@[simp] theorem fieldRn_packLS : fieldRn (packLS opc sz q vd rn wb rm nm1) = rn := by
  apply BitVec.eq_of_getLsbD_eq
  intro k hk
  simp only [fieldRn, packLS, BitVec.getLsbD_extractLsb', BitVec.getLsbD_append]
  interval_cases k <;> simp

@[simp] theorem fieldWb_packLS : fieldWb (packLS opc sz q vd rn wb rm nm1) = wb := by
  apply BitVec.eq_of_getLsbD_eq
  intro k hk
  simp only [fieldWb, packLS, BitVec.getLsbD_extractLsb', BitVec.getLsbD_append]
  interval_cases k <;> simp

@[simp] theorem fieldRm_packLS : fieldRm (packLS opc sz q vd rn wb rm nm1) = rm := by
  apply BitVec.eq_of_getLsbD_eq
  intro k hk
  simp only [fieldRm, packLS, BitVec.getLsbD_extractLsb', BitVec.getLsbD_append]
  interval_cases k <;> simp

@[simp] theorem fieldNm1_packLS : fieldNm1 (packLS opc sz q vd rn wb rm nm1) = nm1 := by
  apply BitVec.eq_of_getLsbD_eq
  intro k hk
  simp only [fieldNm1, packLS, BitVec.getLsbD_extractLsb', BitVec.getLsbD_append]
  interval_cases k <;> simp

@[simp] theorem fieldLow_packLS : fieldLow (packLS opc sz q vd rn wb rm nm1) = 0 := by
  apply BitVec.eq_of_getLsbD_eq
  intro k hk
  simp only [fieldLow, packLS, BitVec.getLsbD_extractLsb', BitVec.getLsbD_append]
  interval_cases k <;> simp

/-- A word whose bits 5:0 are zero is the packing of its `LS` fields. -/
theorem packLS_fields (w : Word) (h : fieldLow w = 0) :
    packLS (fieldOpc w) (fieldSz w) (fieldQ w) (fieldVd w) (fieldRn w) (fieldWb w) (fieldRm w) (fieldNm1 w) = w := by
  have hlow : ∀ k, (hk : k < 6) → w[k] = false := by
    intro k hk
    have h' := congrArg (fun x => x.getLsbD k) h
    simp only [fieldLow, BitVec.getLsbD_extractLsb', hk] at h'
    rw [← BitVec.getLsbD_eq_getElem]
    simpa using h'
  apply BitVec.eq_of_getLsbD_eq
  intro k hk
  simp only [packLS, BitVec.getLsbD_append]
  interval_cases k <;>
    simp [fieldOpc, fieldSz, fieldQ, fieldVd, fieldRn, fieldWb, fieldRm, fieldNm1, hlow]

end ls

/-! Writeback. -/

/-- The two fields of a writeback mode decode to it. -/
theorem decodeWriteback_packLS (opc : BitVec 6) (sz : BitVec 2) (q : BitVec 1) (vd : DReg) (rn : RReg) (wb : Writeback)
    (nm1 : BitVec 2) : decodeWriteback (packLS opc sz q vd rn wb.field wb.stepField nm1) = wb := by
  cases wb <;> simp [decodeWriteback, Writeback.field, Writeback.stepField]

end Sys2Proof
end

