-- ==== Sys2Proof/Laws/Lanes.lean ====
section
/-! SUPPORT. What the lane container and the lane primitives do: reading a lane of `ofLanes`, and the integer value of
`wrap` and `sat`. Later proofs cite these and never unfold the containers. -/

namespace Sys2Proof.Machine

/-- A bit of a lane is the bit of the vector at the lane's place. -/
theorem getLsbD_lane (w : Nat) (v : Vec) (i k : Nat) :
    (lane w v i).getLsbD k = (decide (k < w) && v.getLsbD (w * i + k)) := by
  simp [lane, BitVec.getLsbD_extractLsb']

/-- A bit of `ofLanes` belongs to the lane at its place, and every bit above the lanes is zero. -/
theorem getLsbD_ofLanes {w : Nat} (hw : 0 < w) (n : Nat) (f : Nat → BitVec w) (k : Nat) :
    (ofLanes w n f).getLsbD k = (decide (k < 128) && decide (k < w * n) && (f (k / w)).getLsbD (k % w)) := by
  induction n with
  | zero => simp [ofLanes]
  | succ n ih =>
    have hs : w * (n + 1) = w * n + w := Nat.mul_succ w n
    simp only [ofLanes, BitVec.getLsbD_or, ih, BitVec.getLsbD_shiftLeft, BitVec.getLsbD_setWidth]
    by_cases h1 : k < 128
    · by_cases h2 : k < w * n
      · have : k < w * (n + 1) := by omega
        simp [h1, h2, this]
      · by_cases h3 : k < w * (n + 1)
        · have hd : k / w = n := by
            exact Nat.div_eq_of_lt_le (by rw [Nat.mul_comm]; omega) (by rw [Nat.mul_comm]; omega)
          have hm : k % w = k - w * n := by
            have := Nat.div_add_mod k w
            rw [hd] at this; omega
          have : k - w * n < 128 := by omega
          simp [h1, h2, h3, hd, hm, this]
        · have : w ≤ k - w * n := by omega
          simp [h1, h2, h3, BitVec.getLsbD_of_ge _ _ this]
    · simp [h1]

/-- Reading a lane back gives the lane's function. -/
theorem lane_ofLanes {w : Nat} (hw : 0 < w) {n : Nat} (f : Nat → BitVec w) {i : Nat} (hi : i < n) (hn : w * n ≤ 128) :
    lane w (ofLanes w n f) i = f i := by
  apply BitVec.eq_of_getLsbD_eq
  intro k hk
  have hlt : w * i + k < w * n := by nlinarith
  have hd : (w * i + k) / w = i := by
    rw [Nat.mul_add_div hw, Nat.div_eq_of_lt hk, Nat.add_zero]
  have hm : (w * i + k) % w = k := by
    rw [Nat.mul_add_mod, Nat.mod_eq_of_lt hk]
  rw [getLsbD_lane, getLsbD_ofLanes hw, hd, hm]
  have : w * i + k < 128 := by omega
  simp [hk, hlt, this]

/-- Lanes past the last are zero. -/
theorem lane_ofLanes_of_le {w : Nat} (hw : 0 < w) {n : Nat} (f : Nat → BitVec w) {i : Nat} (hi : n ≤ i) :
    lane w (ofLanes w n f) i = 0 := by
  apply BitVec.eq_of_getLsbD_eq
  intro k hk
  have : ¬ w * i + k < w * n := by nlinarith
  rw [getLsbD_lane, getLsbD_ofLanes hw]
  simp [this]

/-- Two vectors with the same lanes, the lanes filling 128 bits, are equal. -/
theorem vec_ext {w : Nat} (hw : 0 < w) {n : Nat} (hn : w * n = 128) {u v : Vec} (h : ∀ i < n, lane w u i = lane w v i) :
    u = v := by
  apply BitVec.eq_of_getLsbD_eq
  intro k hk
  have hi : k / w < n := by rw [Nat.div_lt_iff_lt_mul hw]; nlinarith
  have hm : k % w < w := Nat.mod_lt _ hw
  have hb := congrArg (fun x => x.getLsbD (k % w)) (h _ hi)
  simpa only [getLsbD_lane, hm, Nat.div_add_mod, decide_true, Bool.true_and] using hb

/-! Widths. -/

end Sys2Proof.Machine

namespace Sys2Proof

theorem Sz.bits_pos (sz : Sz) : 0 < sz.bits := by cases sz <;> decide

theorem Sz.bits_eq (sz : Sz) : sz.bits = 8 * sz.bytes := by cases sz <;> rfl

theorem Sz.bytes_pos (sz : Sz) : 0 < sz.bytes := by cases sz <;> decide

end Sys2Proof

namespace Sys2Proof.Machine

/-- The lanes of a register fill it. -/
theorem bits_mul_laneCount (q : Bool) (sz : Sz) : sz.bits * laneCount q sz = regBits q := by
  cases q <;> cases sz <;> decide

theorem bits_mul_laneCount_le (q : Bool) (sz : Sz) : sz.bits * laneCount q sz ≤ 128 := by
  cases q <;> cases sz <;> decide

theorem laneCount_pos (q : Bool) (sz : Sz) : 0 < laneCount q sz := by cases q <;> cases sz <;> decide

/-! Wrapping and saturation. -/

theorem minInt_le_toInt {w : Nat} (x : BitVec w) : minInt w ≤ x.toInt := by
  have := BitVec.le_toInt x
  simpa [minInt] using this

theorem toInt_le_maxInt {w : Nat} (x : BitVec w) : x.toInt ≤ maxInt w := by
  have := BitVec.toInt_lt (x := x)
  simp only [maxInt]
  omega

/-- `wrap` keeps an integer that fits. -/
theorem toInt_wrap {w : Nat} (hw : 0 < w) {z : Int} (h1 : minInt w ≤ z) (h2 : z ≤ maxInt w) : (wrap w z).toInt = z := by
  obtain ⟨n, rfl⟩ : ∃ n, w = n + 1 := ⟨w - 1, by omega⟩
  simp only [minInt, maxInt, Nat.add_sub_cancel] at h1 h2
  simp only [wrap, BitVec.toInt_ofInt]
  have hp : ((2 ^ (n + 1) : Nat) : Int) = 2 * 2 ^ n := by push_cast; ring
  rw [Int.bmod_eq_of_le] <;> rw [hp] <;> omega

/-- `sat` is the clamp to `[MIN_w, MAX_w]`. -/
theorem toInt_sat {w : Nat} (hw : 0 < w) (z : Int) : (sat w z).toInt = min (max z (minInt w)) (maxInt w) := by
  have h : minInt w ≤ maxInt w := by
    have : (0 : Int) < 2 ^ (w - 1) := by positivity
    simp only [minInt, maxInt]; omega
  exact toInt_wrap hw (le_min (le_max_right _ _) h) (min_le_right _ _)

/-- `sat` and `wrap` agree on integers that fit. -/
theorem sat_eq_wrap {w : Nat} {z : Int} (h1 : minInt w ≤ z) (h2 : z ≤ maxInt w) : sat w z = wrap w z := by
  simp [sat, max_eq_left h1, min_eq_left h2]

/-- `wrap` of the integer a pattern stands for is the pattern. -/
@[simp] theorem wrap_toInt {w : Nat} (x : BitVec w) : wrap w x.toInt = x := by simp [wrap]

/-- Every bit of an all-ones mask is set, every bit of the other is clear. -/
theorem getLsbD_mask (w : Nat) (p : Bool) (k : Nat) : (mask w p).getLsbD k = (decide (k < w) && p) := by
  cases p
  · simp [mask]
  · have : BitVec.ofInt w (-1) = BitVec.allOnes w := by
      rw [show (-1 : Int) = -(1 : Nat) from rfl]
      simp [BitVec.ofInt_neg, BitVec.neg_one_eq_allOnes]
    simp [mask, wrap, this]

end Sys2Proof.Machine
end

