-- ==== Sys2Proof/Laws/LaneRules.lean ====
section
/-! SUPPORT. What each lane function computes, in the integer terms of Safety.lean. -/

namespace Sys2Proof.Machine

/-! Wrapping and saturation. -/

theorem wrapsTo_wrap (w : Nat) (z : Int) : wrapsTo (wrap w z) z := by
  have h : ((2 ^ w : Nat) : Int) ∣ Int.bmod z (2 ^ w) - z :=
    Int.dvd_of_emod_eq_zero (Int.emod_eq_emod_iff_emod_sub_eq_zero.mp Int.bmod_emod)
  unfold wrapsTo wrap
  rw [BitVec.toInt_ofInt]
  exact_mod_cast h

theorem satsTo_sat {w : Nat} (hw : 0 < w) (z : Int) : satsTo (sat w z) z := toInt_sat hw z

/-- A saturated value that fits is kept. -/
theorem toInt_sat_of_fits {w : Nat} (hw : 0 < w) {z : Int} (h1 : -(2 ^ (w - 1)) ≤ z) (h2 : z ≤ 2 ^ (w - 1) - 1) :
    (sat w z).toInt = z := by
  rw [toInt_sat hw, minInt, maxInt, max_eq_left h1, min_eq_left h2]

/-! Shifts. -/

theorem toInt_bounds {w : Nat} (x : BitVec w) : -(2 ^ (w - 1)) ≤ x.toInt ∧ x.toInt ≤ 2 ^ (w - 1) - 1 :=
  ⟨minInt_le_toInt x, toInt_le_maxInt x⟩

/-- The left shift: the cut-off at `w` changes no result. -/
theorem satsTo_shlSat {w : Nat} (hw : 0 < w) (x : BitVec w) {s : Int} (hs : 0 ≤ s) :
    satsTo (shlSat x s) (x.toInt * 2 ^ s.toNat) := by
  rw [shlSat, if_pos hs, satsTo, toInt_sat hw, minInt, maxInt]
  by_cases hc : s.toNat ≤ w
  · rw [Nat.min_eq_left hc]
  · rw [Nat.min_eq_right (by omega)]
    have hp : (0 : Int) < 2 ^ (w - 1) := by positivity
    have h1 : (2 : Int) ^ (w - 1) ≤ 2 ^ w := by gcongr <;> omega
    have h2 : (2 : Int) ^ w ≤ 2 ^ s.toNat := by gcongr <;> omega
    rcases lt_trichotomy x.toInt 0 with h | h | h
    · have a1 : x.toInt * 2 ^ w ≤ -(2 ^ (w - 1)) := by nlinarith
      have a2 : x.toInt * 2 ^ s.toNat ≤ -(2 ^ (w - 1)) := by nlinarith
      rw [max_eq_right a1, max_eq_right a2]
    · simp [h]
    · have a1 : 2 ^ (w - 1) - 1 ≤ x.toInt * 2 ^ w := by nlinarith
      have a2 : 2 ^ (w - 1) - 1 ≤ x.toInt * 2 ^ s.toNat := by nlinarith
      rw [min_eq_right (le_trans a1 (le_max_left _ _)), min_eq_right (le_trans a2 (le_max_left _ _))]

/-- The right shift: the floor, with no cut-off visible. -/
theorem toInt_shlSat_neg {w : Nat} (hw : 0 < w) (x : BitVec w) {s : Int} (hs : s < 0) :
    (shlSat x s).toInt = x.toInt / 2 ^ (-s).toNat := by
  have hb := toInt_bounds x
  have hp : (0 : Int) < 2 ^ (w - 1) := by positivity
  have key : ∀ n : Nat, -(2 ^ (w - 1)) ≤ x.toInt / 2 ^ n ∧ x.toInt / 2 ^ n ≤ 2 ^ (w - 1) - 1 := by
    intro n
    have hn : (1 : Int) ≤ 2 ^ n := by exact_mod_cast Nat.one_le_two_pow
    constructor
    · rw [Int.le_ediv_iff_mul_le (by omega)]; nlinarith
    · rw [Int.ediv_le_iff_le_mul (by omega)]; nlinarith
  rw [shlSat, if_neg (by omega), asr, toInt_wrap hw (key _).1 (key _).2]
  by_cases hc : (-s).toNat ≤ w
  · rw [Nat.min_eq_left hc]
  · rw [Nat.min_eq_right (by omega)]
    have h1 : (2 : Int) ^ (w - 1) ≤ 2 ^ w := by gcongr <;> omega
    have h2 : (2 : Int) ^ w ≤ 2 ^ (-s).toNat := by gcongr <;> omega
    by_cases hx : 0 ≤ x.toInt
    · rw [Int.ediv_eq_zero_of_lt hx (by omega), Int.ediv_eq_zero_of_lt hx (by omega)]
    · have f : ∀ n : Nat, (2 : Int) ^ (w - 1) ≤ 2 ^ n → x.toInt / 2 ^ n = -1 := by
        intro n hn
        have : (0 : Int) < 2 ^ n := by positivity
        have a := Int.lt_ediv_add_one_mul_self x.toInt this
        have b := Int.ediv_mul_le x.toInt (ne_of_gt this)
        have c : x.toInt / 2 ^ n < 0 := Int.ediv_neg_of_neg_of_pos (by omega) this
        have d : -1 ≤ x.toInt / 2 ^ n := by rw [Int.le_ediv_iff_mul_le this]; omega
        omega
      rw [f _ h1, f _ (le_trans h1 h2)]

/-- The rounding right shift never wraps for an amount the encoding admits. -/
theorem toInt_laneRshr {w : Nat} (x : BitVec w) {n : Nat} (h1 : 1 ≤ n) (h2 : n ≤ w) :
    (laneRshr x n).toInt = (x.toInt + 2 ^ (n - 1)) / 2 ^ n := by
  have hb := toInt_bounds x
  have hn : (2 : Int) ^ n = 2 * 2 ^ (n - 1) := by
    obtain ⟨m, rfl⟩ : ∃ m, n = m + 1 := ⟨n - 1, by omega⟩
    simp [pow_succ, mul_comm]
  have hp : (1 : Int) ≤ 2 ^ (n - 1) := by exact_mod_cast Nat.one_le_two_pow
  have hle : (2 : Int) ^ (n - 1) ≤ 2 ^ (w - 1) := by gcongr <;> omega
  rw [laneRshr, asr, toInt_wrap (by omega)]
  · rw [minInt, Int.le_ediv_iff_mul_le (by omega)]; nlinarith
  · rw [maxInt, Int.ediv_le_iff_le_mul (by omega)]; nlinarith

/-! Masks. -/

theorem isMask_mask {w : Nat} {p : Prop} [Decidable p] : isMask (mask w (decide p)) p := by
  intro b hb
  rw [getLsbD_mask]
  simp [hb]

/-! Widening. -/

/-- The product of two lanes fits the double width. -/
theorem toInt_laneMull {w : Nat} (hw : 0 < w) (x y : BitVec w) : (laneMull x y).toInt = x.toInt * y.toInt := by
  have hx := toInt_bounds x
  have hy := toInt_bounds y
  have hp : (2 : Int) ^ (2 * w - 1) = 2 * (2 ^ (w - 1) * 2 ^ (w - 1)) := by
    obtain ⟨m, rfl⟩ : ∃ m, w = m + 1 := ⟨w - 1, by omega⟩
    rw [show 2 * (m + 1) - 1 = m + m + 1 by omega]
    simp [pow_succ, pow_add]; ring
  have h1 : (1 : Int) ≤ 2 ^ (w - 1) := by exact_mod_cast Nat.one_le_two_pow
  have a1 : 0 ≤ (2 ^ (w - 1) - x.toInt) * (2 ^ (w - 1) + y.toInt) := by apply mul_nonneg <;> omega
  have a2 : 0 ≤ (2 ^ (w - 1) + x.toInt) * (2 ^ (w - 1) - y.toInt) := by apply mul_nonneg <;> omega
  have a3 : 0 ≤ (2 ^ (w - 1) - x.toInt) * (2 ^ (w - 1) - y.toInt) := by apply mul_nonneg <;> omega
  have a4 : 0 ≤ (2 ^ (w - 1) + x.toInt) * (2 ^ (w - 1) + y.toInt) := by apply mul_nonneg <;> omega
  rw [laneMull, toInt_wrap (by omega)]
  · rw [minInt, hp]; nlinarith
  · rw [maxInt, hp]; nlinarith

end Sys2Proof.Machine
end

