-- ==== Sys2Proof/Laws/Memory.lean ====
section
/-! SUPPORT. Data memory: a read after a write, what a write leaves alone, and the canonical form. -/

namespace Sys2Proof.Machine

/-! One byte. -/

theorem Memory.read_filter_ne (m : List Host.Cell) {a x : Nat} (h : a ≠ x) :
    Memory.read (m.filter fun c => c.1 != a) x = Memory.read m x := by
  induction m with
  | nil => rfl
  | cons c m ih =>
    by_cases hc : c.1 = a
    · have : ¬ c.1 = x := by omega
      simp [Memory.read, hc, ih, h]
    · simp [Memory.read, hc, ih]

theorem Memory.read_of_forall_ne {m : List Host.Cell} {a : Nat} (h : ∀ c ∈ m, c.1 ≠ a) :
    Memory.read m a = Memory.unlisted := by
  induction m with
  | nil => rfl
  | cons c m ih =>
    simp only [List.mem_cons, forall_eq_or_imp] at h
    simp [Memory.read, h.1, ih h.2]

theorem Memory.read_insert {m : List Host.Cell} {a : Nat} (h : ∀ c ∈ m, c.1 ≠ a) (b : Byte) (x : Nat) :
    Memory.read (Memory.insert a b m) x = if a = x then b else Memory.read m x := by
  induction m with
  | nil =>
    by_cases hb : b = Memory.unlisted <;> by_cases hx : a = x <;> simp [Memory.insert, Memory.read, hb, hx]
  | cons c m ih =>
    have hm : ∀ c ∈ m, c.1 ≠ a := fun d hd => h d (by simp [hd])
    have hc : c.1 ≠ a := h c (by simp)
    by_cases hlt : a < c.1
    · by_cases hb : b = Memory.unlisted
      · by_cases hx : a = x
        · subst hx
          rw [Memory.insert, if_pos hlt, if_pos hb, Memory.read_of_forall_ne h, if_pos rfl, hb]
        · simp [Memory.insert, hlt, hb, hx]
      · simp [Memory.insert, hlt, hb, Memory.read]
    · by_cases hx : c.1 = x
      · have : ¬ a = x := by omega
        rw [Memory.insert, if_neg hlt, Memory.read, if_pos hx, if_neg this, Memory.read, if_pos hx]
      · simp [Memory.insert, hlt, Memory.read, hx, ih hm]

/-- A write is read back at its address and leaves every other address alone. -/
@[simp] theorem Memory.read_write (m : List Host.Cell) (a : Nat) (b : Byte) (x : Nat) :
    Memory.read (Memory.write m a b) x = if a = x then b else Memory.read m x := by
  rw [Memory.write, Memory.read_insert (by simp)]
  by_cases h : a = x
  · simp [h]
  · simp [h, Memory.read_filter_ne m h]

/-! Several bytes. -/

/-- A run of bytes written is read back, and every address outside it is left alone. -/
theorem Memory.read_writeBytes (m : List Host.Cell) (a n : Nat) (f : Nat → Byte) (x : Nat) :
    Memory.read (Memory.writeBytes m a n f) x = if a ≤ x ∧ x < a + n then f (x - a) else Memory.read m x := by
  induction n with
  | zero => simp [Memory.writeBytes]
  | succ n ih =>
    rw [Memory.writeBytes, Memory.read_write, ih]
    by_cases h : a + n = x
    · subst h; simp
    · by_cases h2 : a ≤ x ∧ x < a + n
      · rw [if_neg h, if_pos h2, if_pos (by omega)]
      · rw [if_neg h, if_neg h2, if_neg (by omega)]

/-- One element written little-endian (R52). -/
theorem Memory.read_writeElem (m : List Host.Cell) (a w : Nat) (v : BitVec w) (x : Nat) :
    Memory.read (Memory.writeElem m a w v) x =
      if a ≤ x ∧ x < a + w / 8 then lane 8 (v.setWidth 128) (x - a) else Memory.read m x :=
  Memory.read_writeBytes m a (w / 8) _ x

/-- A run of elements written (R123): byte `x - a` of the run belongs to element `(x - a) / (w/8)`. -/
theorem Memory.read_writeElems (m : List Host.Cell) (a w n : Nat) (hw : 0 < w / 8) (elem : Nat → BitVec w) (x : Nat) :
    Memory.read (Memory.writeElems m a w n elem) x =
      if a ≤ x ∧ x < a + n * (w / 8) then lane 8 ((elem ((x - a) / (w / 8))).setWidth 128) ((x - a) % (w / 8))
      else Memory.read m x := by
  generalize hB : w / 8 = B at hw
  induction n with
  | zero => simp [Memory.writeElems]
  | succ n ih =>
    have hs : (n + 1) * B = n * B + B := Nat.succ_mul n B
    rw [Memory.writeElems, Memory.read_writeElem, hB, ih]
    by_cases h : a + n * B ≤ x ∧ x < a + n * B + B
    · have hd : (x - a) / B = n := Nat.div_eq_of_lt_le (by omega) (by rw [hs]; omega)
      have hm : (x - a) % B = x - (a + n * B) := by
        have := Nat.div_add_mod (x - a) B
        rw [hd, Nat.mul_comm] at this; omega
      rw [if_pos h, if_pos (by omega), hd, hm]
    · rw [if_neg h]
      by_cases h2 : a ≤ x ∧ x < a + n * B
      · rw [if_pos h2, if_pos (by omega)]
      · rw [if_neg h2, if_neg (by omega)]

/-- A bit of an element read is the bit of the byte it lies in (R52). -/
theorem Memory.getLsbD_readElem (m : List Host.Cell) (a : Nat) (sz : Sz) (k : Nat) :
    (Memory.readElem m a sz.bits).getLsbD k =
      (decide (k < sz.bits) && (Memory.read m (a + k / 8)).getLsbD (k % 8)) := by
  have h8 : 8 * (sz.bits / 8) = sz.bits := by cases sz <;> decide
  have hle : sz.bits ≤ 128 := by cases sz <;> decide
  simp only [Memory.readElem, BitVec.getLsbD_setWidth, getLsbD_ofLanes (by decide : 0 < 8), h8]
  by_cases hk : k < sz.bits
  · have : k < 128 := by omega
    simp [hk, this]
  · simp [hk]

/-- An element written and read back. -/
theorem Memory.readElem_writeElems (m : List Host.Cell) (a : Nat) (sz : Sz) (n : Nat) (elem : Nat → BitVec sz.bits)
    {e : Nat} (he : e < n) :
    Memory.readElem (Memory.writeElems m a sz.bits n elem) (a + e * sz.bytes) sz.bits = elem e := by
  have hB : sz.bits / 8 = sz.bytes := by cases sz <;> rfl
  have hp := sz.bytes_pos
  have hb := sz.bits_eq
  apply BitVec.eq_of_getLsbD_eq
  intro k hk
  have hk8 : k / 8 < sz.bytes := by omega
  have hlt : e * sz.bytes + k / 8 < n * sz.bytes := by nlinarith
  have hd : (e * sz.bytes + k / 8) / sz.bytes = e := by
    rw [Nat.mul_comm e, Nat.mul_add_div hp, Nat.div_eq_of_lt hk8, Nat.add_zero]
  have hm : (e * sz.bytes + k / 8) % sz.bytes = k / 8 := by
    rw [Nat.mul_comm e, Nat.mul_add_mod, Nat.mod_eq_of_lt hk8]
  rw [Memory.getLsbD_readElem, Memory.read_writeElems _ _ _ _ (by omega), hB]
  have ha : a + e * sz.bytes + k / 8 - a = e * sz.bytes + k / 8 := by omega
  rw [if_pos (by omega), ha, hd, hm, getLsbD_lane, BitVec.getLsbD_setWidth]
  have h128 : k < 128 := by
    have : sz.bits ≤ 64 := by cases sz <;> decide
    omega
  have h8 : k % 8 < 8 := Nat.mod_lt _ (by decide)
  simp [hk, h128, h8, Nat.div_add_mod]

/-! The canonical form. -/

theorem Memory.wf_cons {c : Host.Cell} {m : List Host.Cell} :
    Memory.wf (c :: m) = true ↔ c.2 ≠ Memory.unlisted ∧ (∀ d ∈ m, c.1 < d.1) ∧ Memory.wf m = true := by
  simp [Memory.wf, and_assoc]

theorem Memory.wf_filter {m : List Host.Cell} (h : Memory.wf m = true) (p : Host.Cell → Bool) :
    Memory.wf (m.filter p) = true := by
  induction m with
  | nil => rfl
  | cons c m ih =>
    rw [Memory.wf_cons] at h
    by_cases hp : p c = true
    · rw [List.filter_cons_of_pos hp, Memory.wf_cons]
      exact ⟨h.1, fun d hd => h.2.1 d (List.mem_of_mem_filter hd), ih h.2.2⟩
    · rw [List.filter_cons_of_neg hp]; exact ih h.2.2

theorem Memory.mem_insert {a : Nat} {b : Byte} {m : List Host.Cell} {d : Host.Cell} (h : d ∈ Memory.insert a b m) :
    d = (a, b) ∨ d ∈ m := by
  induction m with
  | nil =>
    by_cases hb : b = Memory.unlisted <;> simp [Memory.insert, hb] at h
    exact .inl h
  | cons c m ih =>
    by_cases hlt : a < c.1
    · by_cases hb : b = Memory.unlisted
      · rw [Memory.insert, if_pos hlt, if_pos hb] at h; exact .inr h
      · rw [Memory.insert, if_pos hlt, if_neg hb, List.mem_cons] at h; exact h
    · rw [Memory.insert, if_neg hlt, List.mem_cons] at h
      rcases h with h | h
      · exact .inr (by simp [h])
      · exact (ih h).imp id (by intro h; simp [h])

theorem Memory.wf_insert {m : List Host.Cell} (h : Memory.wf m = true) {a : Nat} (ha : ∀ c ∈ m, c.1 ≠ a) (b : Byte) :
    Memory.wf (Memory.insert a b m) = true := by
  induction m with
  | nil => by_cases hb : b = Memory.unlisted <;> simp [Memory.insert, hb, Memory.wf]
  | cons c m ih =>
    have hw := Memory.wf_cons.1 h
    have hc : c.1 ≠ a := ha c (by simp)
    by_cases hlt : a < c.1
    · by_cases hb : b = Memory.unlisted
      · rwa [Memory.insert, if_pos hlt, if_pos hb]
      · rw [Memory.insert, if_pos hlt, if_neg hb, Memory.wf_cons]
        refine ⟨hb, fun d hd => ?_, h⟩
        rcases List.mem_cons.1 hd with rfl | hd
        · exact hlt
        · exact lt_trans hlt (hw.2.1 d hd)
    · rw [Memory.insert, if_neg hlt, Memory.wf_cons]
      refine ⟨hw.1, fun d hd => ?_, ih hw.2.2 fun d hd => ha d (by simp [hd])⟩
      rcases Memory.mem_insert hd with rfl | hd
      · show c.1 < a
        omega
      · exact hw.2.1 d hd

/-- A write keeps the canonical form. -/
theorem Memory.wf_write {m : List Host.Cell} (h : Memory.wf m = true) (a : Nat) (b : Byte) :
    Memory.wf (Memory.write m a b) = true :=
  Memory.wf_insert (Memory.wf_filter h _) (by simp) b

/-- A run of bytes written keeps the canonical form. -/
theorem Memory.wf_writeBytes {m : List Host.Cell} (h : Memory.wf m = true) (a n : Nat) (f : Nat → Byte) :
    Memory.wf (Memory.writeBytes m a n f) = true := by
  induction n with
  | zero => exact h
  | succ n ih => exact Memory.wf_write ih _ _

/-- A run of elements written keeps the canonical form. -/
theorem Memory.wf_writeElems {m : List Host.Cell} (h : Memory.wf m = true) (a w n : Nat) (elem : Nat → BitVec w) :
    Memory.wf (Memory.writeElems m a w n elem) = true := by
  induction n with
  | zero => exact h
  | succ n ih => exact Memory.wf_writeBytes ih _ _ _

/-- In canonical form, equal reads are equal memories. -/
theorem Memory.ext {m m' : List Host.Cell} (h : Memory.wf m = true) (h' : Memory.wf m' = true)
    (hr : ∀ a, Memory.read m a = Memory.read m' a) : m = m' := by
  have below : ∀ {l : List Host.Cell} {a : Nat}, (∀ d ∈ l, a < d.1) → Memory.read l a = Memory.unlisted :=
    fun hl => Memory.read_of_forall_ne fun d hd => ne_of_gt (hl d hd)
  induction m generalizing m' with
  | nil =>
    cases m' with
    | nil => rfl
    | cons c' m' =>
      have := hr c'.1
      simp only [Memory.read, if_true] at this
      exact absurd this.symm (Memory.wf_cons.1 h').1
  | cons c m ih =>
    have hw := Memory.wf_cons.1 h
    cases m' with
    | nil =>
      have := hr c.1
      simp only [Memory.read, if_true] at this
      exact absurd this hw.1
    | cons c' m' =>
      have hw' := Memory.wf_cons.1 h'
      have hk : c.1 = c'.1 := by
        rcases lt_trichotomy c.1 c'.1 with hlt | heq | hgt
        · have := hr c.1
          rw [below (l := c' :: m') (fun d hd => by
            rcases List.mem_cons.1 hd with rfl | hd
            · exact hlt
            · exact lt_trans hlt (hw'.2.1 d hd))] at this
          simp only [Memory.read, if_true] at this
          exact absurd this hw.1
        · exact heq
        · have := hr c'.1
          rw [below (l := c :: m) (fun d hd => by
            rcases List.mem_cons.1 hd with rfl | hd
            · exact hgt
            · exact lt_trans hgt (hw.2.1 d hd))] at this
          simp only [Memory.read, if_true] at this
          exact absurd this.symm hw'.1
      have hv : c.2 = c'.2 := by
        have := hr c.1
        simpa [Memory.read, hk] using this
      have hc : c = c' := Prod.ext hk hv
      subst hc
      rw [ih hw.2.2 hw'.2.2 fun a => ?_]
      by_cases ha : c.1 = a
      · subst ha; rw [below hw.2.1, below hw'.2.1]
      · have := hr a
        simpa [Memory.read, ha] using this

end Sys2Proof.Machine
end

