-- ==== Sys2Proof/Laws/State.lean ====
section
/-! SUPPORT. What each update of the state does to each field and to each read, one lemma per field per update. -/

namespace Sys2Proof.Machine

variable (s : State)

/-! `State.writeD`. -/

@[simp] theorem State.writeD_d (i : DReg) (v : DWord) : (s.writeD i v).d = s.d.set i.toNat v i.isLt := rfl
@[simp] theorem State.writeD_r (i : DReg) (v : DWord) : (s.writeD i v).r = s.r := rfl
@[simp] theorem State.writeD_pc (i : DReg) (v : DWord) : (s.writeD i v).pc = s.pc := rfl
@[simp] theorem State.writeD_faulted (i : DReg) (v : DWord) : (s.writeD i v).faulted = s.faulted := rfl
@[simp] theorem State.writeD_fcause (i : DReg) (v : DWord) : (s.writeD i v).fcause = s.fcause := rfl
@[simp] theorem State.writeD_fpc (i : DReg) (v : DWord) : (s.writeD i v).fpc = s.fpc := rfl
@[simp] theorem State.writeD_finst (i : DReg) (v : DWord) : (s.writeD i v).finst = s.finst := rfl
@[simp] theorem State.writeD_faddr (i : DReg) (v : DWord) : (s.writeD i v).faddr = s.faddr := rfl
@[simp] theorem State.writeD_mem (i : DReg) (v : DWord) : (s.writeD i v).mem = s.mem := rfl
@[simp] theorem State.writeD_memTop (i : DReg) (v : DWord) : (s.writeD i v).memTop = s.memTop := rfl
@[simp] theorem State.writeD_host (i : DReg) (v : DWord) : (s.writeD i v).host = s.host := rfl
@[simp] theorem State.writeD_resets (i : DReg) (v : DWord) : (s.writeD i v).resets = s.resets := rfl
@[simp] theorem State.writeD_readR (i : DReg) (v : DWord) (j : RReg) : (s.writeD i v).readR j = s.readR j := rfl
@[simp] theorem State.writeD_readMem (i : DReg) (v : DWord) (a : Nat) : (s.writeD i v).readMem a = s.readMem a := rfl
@[simp] theorem State.writeD_memBytes (i : DReg) (v : DWord) : (s.writeD i v).memBytes = s.memBytes := rfl

/-! `State.writeR`. -/

@[simp] theorem State.writeR_d (i : RReg) (v : Word) : (s.writeR i v).d = s.d := rfl
@[simp] theorem State.writeR_r (i : RReg) (v : Word) : (s.writeR i v).r = s.r.set i.toNat v i.isLt := rfl
@[simp] theorem State.writeR_pc (i : RReg) (v : Word) : (s.writeR i v).pc = s.pc := rfl
@[simp] theorem State.writeR_faulted (i : RReg) (v : Word) : (s.writeR i v).faulted = s.faulted := rfl
@[simp] theorem State.writeR_fcause (i : RReg) (v : Word) : (s.writeR i v).fcause = s.fcause := rfl
@[simp] theorem State.writeR_fpc (i : RReg) (v : Word) : (s.writeR i v).fpc = s.fpc := rfl
@[simp] theorem State.writeR_finst (i : RReg) (v : Word) : (s.writeR i v).finst = s.finst := rfl
@[simp] theorem State.writeR_faddr (i : RReg) (v : Word) : (s.writeR i v).faddr = s.faddr := rfl
@[simp] theorem State.writeR_mem (i : RReg) (v : Word) : (s.writeR i v).mem = s.mem := rfl
@[simp] theorem State.writeR_memTop (i : RReg) (v : Word) : (s.writeR i v).memTop = s.memTop := rfl
@[simp] theorem State.writeR_host (i : RReg) (v : Word) : (s.writeR i v).host = s.host := rfl
@[simp] theorem State.writeR_resets (i : RReg) (v : Word) : (s.writeR i v).resets = s.resets := rfl
@[simp] theorem State.writeR_readD (i : RReg) (v : Word) (j : DReg) : (s.writeR i v).readD j = s.readD j := rfl
@[simp] theorem State.writeR_readMem (i : RReg) (v : Word) (a : Nat) : (s.writeR i v).readMem a = s.readMem a := rfl
@[simp] theorem State.writeR_memBytes (i : RReg) (v : Word) : (s.writeR i v).memBytes = s.memBytes := rfl
@[simp] theorem State.writeR_readV (i : RReg) (v : Word) (j : DReg) (q : Bool) : (s.writeR i v).readV j q = s.readV j q := rfl

/-! `State.setMem`. -/

@[simp] theorem State.setMem_d (m : List Host.Cell) : (s.setMem m).d = s.d := rfl
@[simp] theorem State.setMem_r (m : List Host.Cell) : (s.setMem m).r = s.r := rfl
@[simp] theorem State.setMem_pc (m : List Host.Cell) : (s.setMem m).pc = s.pc := rfl
@[simp] theorem State.setMem_faulted (m : List Host.Cell) : (s.setMem m).faulted = s.faulted := rfl
@[simp] theorem State.setMem_fcause (m : List Host.Cell) : (s.setMem m).fcause = s.fcause := rfl
@[simp] theorem State.setMem_fpc (m : List Host.Cell) : (s.setMem m).fpc = s.fpc := rfl
@[simp] theorem State.setMem_finst (m : List Host.Cell) : (s.setMem m).finst = s.finst := rfl
@[simp] theorem State.setMem_faddr (m : List Host.Cell) : (s.setMem m).faddr = s.faddr := rfl
@[simp] theorem State.setMem_mem (m : List Host.Cell) : (s.setMem m).mem = m := rfl
@[simp] theorem State.setMem_memTop (m : List Host.Cell) : (s.setMem m).memTop = s.memTop := rfl
@[simp] theorem State.setMem_host (m : List Host.Cell) : (s.setMem m).host = s.host := rfl
@[simp] theorem State.setMem_resets (m : List Host.Cell) : (s.setMem m).resets = s.resets := rfl
@[simp] theorem State.setMem_readMem (m : List Host.Cell) (a : Nat) : (s.setMem m).readMem a = Memory.read m a := rfl
@[simp] theorem State.setMem_readD (m : List Host.Cell) (j : DReg) : (s.setMem m).readD j = s.readD j := rfl
@[simp] theorem State.setMem_readR (m : List Host.Cell) (j : RReg) : (s.setMem m).readR j = s.readR j := rfl
@[simp] theorem State.setMem_memBytes (m : List Host.Cell) : (s.setMem m).memBytes = s.memBytes := rfl
@[simp] theorem State.setMem_readV (m : List Host.Cell) (j : DReg) (q : Bool) : (s.setMem m).readV j q = s.readV j q := rfl

/-! `State.advance`. -/

@[simp] theorem State.advance_d : (s.advance).d = s.d := rfl
@[simp] theorem State.advance_r : (s.advance).r = s.r := rfl
@[simp] theorem State.advance_pc : (s.advance).pc = s.pc + 1 := rfl
@[simp] theorem State.advance_faulted : (s.advance).faulted = s.faulted := rfl
@[simp] theorem State.advance_fcause : (s.advance).fcause = s.fcause := rfl
@[simp] theorem State.advance_fpc : (s.advance).fpc = s.fpc := rfl
@[simp] theorem State.advance_finst : (s.advance).finst = s.finst := rfl
@[simp] theorem State.advance_faddr : (s.advance).faddr = s.faddr := rfl
@[simp] theorem State.advance_mem : (s.advance).mem = s.mem := rfl
@[simp] theorem State.advance_memTop : (s.advance).memTop = s.memTop := rfl
@[simp] theorem State.advance_host : (s.advance).host = s.host := rfl
@[simp] theorem State.advance_resets : (s.advance).resets = s.resets := rfl
@[simp] theorem State.advance_readD (j : DReg) : (s.advance).readD j = s.readD j := rfl
@[simp] theorem State.advance_readR (j : RReg) : (s.advance).readR j = s.readR j := rfl
@[simp] theorem State.advance_readMem (a : Nat) : (s.advance).readMem a = s.readMem a := rfl
@[simp] theorem State.advance_memBytes : (s.advance).memBytes = s.memBytes := rfl
@[simp] theorem State.advance_readV (j : DReg) (q : Bool) : (s.advance).readV j q = s.readV j q := rfl

/-! `State.takeFault`. -/

@[simp] theorem State.takeFault_d (c : Cause) (inst addr : Word) : (s.takeFault c inst addr).d = s.d := rfl
@[simp] theorem State.takeFault_r (c : Cause) (inst addr : Word) : (s.takeFault c inst addr).r = s.r := rfl
@[simp] theorem State.takeFault_pc (c : Cause) (inst addr : Word) : (s.takeFault c inst addr).pc = s.pc := rfl
@[simp] theorem State.takeFault_faulted (c : Cause) (inst addr : Word) : (s.takeFault c inst addr).faulted = true := rfl
@[simp] theorem State.takeFault_fcause (c : Cause) (inst addr : Word) : (s.takeFault c inst addr).fcause = c.code := rfl
@[simp] theorem State.takeFault_fpc (c : Cause) (inst addr : Word) : (s.takeFault c inst addr).fpc = s.pc := rfl
@[simp] theorem State.takeFault_finst (c : Cause) (inst addr : Word) : (s.takeFault c inst addr).finst = inst := rfl
@[simp] theorem State.takeFault_faddr (c : Cause) (inst addr : Word) : (s.takeFault c inst addr).faddr = addr := rfl
@[simp] theorem State.takeFault_mem (c : Cause) (inst addr : Word) : (s.takeFault c inst addr).mem = s.mem := rfl
@[simp] theorem State.takeFault_memTop (c : Cause) (inst addr : Word) : (s.takeFault c inst addr).memTop = s.memTop := rfl
@[simp] theorem State.takeFault_host (c : Cause) (inst addr : Word) : (s.takeFault c inst addr).host = s.host := rfl
@[simp] theorem State.takeFault_resets (c : Cause) (inst addr : Word) : (s.takeFault c inst addr).resets = s.resets := rfl
@[simp] theorem State.takeFault_readD (c : Cause) (inst addr : Word) (j : DReg) : (s.takeFault c inst addr).readD j = s.readD j := rfl
@[simp] theorem State.takeFault_readR (c : Cause) (inst addr : Word) (j : RReg) : (s.takeFault c inst addr).readR j = s.readR j := rfl
@[simp] theorem State.takeFault_readMem (c : Cause) (inst addr : Word) (a : Nat) : (s.takeFault c inst addr).readMem a = s.readMem a := rfl
@[simp] theorem State.takeFault_memBytes (c : Cause) (inst addr : Word) : (s.takeFault c inst addr).memBytes = s.memBytes := rfl
@[simp] theorem State.takeFault_readV (c : Cause) (inst addr : Word) (j : DReg) (q : Bool) : (s.takeFault c inst addr).readV j q = s.readV j q := rfl

/-! `State.hostReset`. -/

@[simp] theorem State.hostReset_pc : (s.hostReset).pc = 0 := rfl
@[simp] theorem State.hostReset_faulted : (s.hostReset).faulted = false := rfl
@[simp] theorem State.hostReset_fcause : (s.hostReset).fcause = 0 := rfl
@[simp] theorem State.hostReset_fpc : (s.hostReset).fpc = 0 := rfl
@[simp] theorem State.hostReset_finst : (s.hostReset).finst = 0 := rfl
@[simp] theorem State.hostReset_faddr : (s.hostReset).faddr = 0 := rfl
@[simp] theorem State.hostReset_mem : (s.hostReset).mem = s.mem := by simp only [State.hostReset]
@[simp] theorem State.hostReset_memTop : (s.hostReset).memTop = s.memTop := by simp only [State.hostReset]
@[simp] theorem State.hostReset_host : (s.hostReset).host = s.host := by simp only [State.hostReset]
@[simp] theorem State.hostReset_resets : (s.hostReset).resets = s.resets + 1 := rfl
@[simp] theorem State.hostReset_readMem (a : Nat) : (s.hostReset).readMem a = s.readMem a := by simp only [State.hostReset, State.readMem]
@[simp] theorem State.hostReset_memBytes : (s.hostReset).memBytes = s.memBytes := by simp only [State.hostReset, State.memBytes]

/-! `State.setHost`. -/

@[simp] theorem State.setHost_d (ms : List HostMove) : (s.setHost ms).d = s.d := rfl
@[simp] theorem State.setHost_r (ms : List HostMove) : (s.setHost ms).r = s.r := rfl
@[simp] theorem State.setHost_pc (ms : List HostMove) : (s.setHost ms).pc = s.pc := rfl
@[simp] theorem State.setHost_faulted (ms : List HostMove) : (s.setHost ms).faulted = s.faulted := rfl
@[simp] theorem State.setHost_fcause (ms : List HostMove) : (s.setHost ms).fcause = s.fcause := rfl
@[simp] theorem State.setHost_fpc (ms : List HostMove) : (s.setHost ms).fpc = s.fpc := rfl
@[simp] theorem State.setHost_finst (ms : List HostMove) : (s.setHost ms).finst = s.finst := rfl
@[simp] theorem State.setHost_faddr (ms : List HostMove) : (s.setHost ms).faddr = s.faddr := rfl
@[simp] theorem State.setHost_mem (ms : List HostMove) : (s.setHost ms).mem = s.mem := rfl
@[simp] theorem State.setHost_memTop (ms : List HostMove) : (s.setHost ms).memTop = s.memTop := rfl
@[simp] theorem State.setHost_host (ms : List HostMove) : (s.setHost ms).host = ms := rfl
@[simp] theorem State.setHost_resets (ms : List HostMove) : (s.setHost ms).resets = s.resets := rfl
@[simp] theorem State.setHost_readD (ms : List HostMove) (j : DReg) : (s.setHost ms).readD j = s.readD j := rfl
@[simp] theorem State.setHost_readR (ms : List HostMove) (j : RReg) : (s.setHost ms).readR j = s.readR j := rfl
@[simp] theorem State.setHost_readMem (ms : List HostMove) (a : Nat) : (s.setHost ms).readMem a = s.readMem a := rfl
@[simp] theorem State.setHost_memBytes (ms : List HostMove) : (s.setHost ms).memBytes = s.memBytes := rfl
@[simp] theorem State.setHost_readV (ms : List HostMove) (j : DReg) (q : Bool) : (s.setHost ms).readV j q = s.readV j q := rfl

/-! Reading a register after writing one. -/

@[simp] theorem State.readD_writeD (i j : DReg) (v : DWord) :
    (s.writeD i v).readD j = if i = j then v else s.readD j := by
  simp [State.readD, State.writeD, Vector.getElem_set, BitVec.toNat_inj]

@[simp] theorem State.readR_writeR (i j : RReg) (v : Word) :
    (s.writeR i v).readR j = if i = j then v else s.readR j := by
  simp [State.readR, State.writeR, Vector.getElem_set, BitVec.toNat_inj]

/-- Two D register files with the same contents are the same. -/
theorem State.d_ext {s t : State} (h : ∀ i, s.readD i = t.readD i) : s.d = t.d := by
  ext i hi : 1
  have := h (BitVec.ofNat 5 i)
  simpa [State.readD, Nat.mod_eq_of_lt hi] using this

/-- Two R register files with the same contents are the same. -/
theorem State.r_ext {s t : State} (h : ∀ i, s.readR i = t.readR i) : s.r = t.r := by
  ext i hi : 1
  have := h (BitVec.ofNat 4 i)
  simpa [State.readR, Nat.mod_eq_of_lt hi] using this

/-- What a reset leaves in a D register is the free value of that reset (R330). -/
@[simp] theorem State.hostReset_readD (i : DReg) : s.hostReset.readD i = Config.dAfterReset s.resets i := by
  simp [State.readD, State.hostReset]

/-- What a reset leaves in an R register is the free value of that reset (R330). -/
@[simp] theorem State.hostReset_readR (i : RReg) : s.hostReset.readR i = Config.rAfterReset s.resets i := by
  simp [State.readR, State.hostReset]

end Sys2Proof.Machine
end

