-- ==== Sys2Proof/Laws/Registers.lean ====
section
/-! SUPPORT. Vector operands and register groups: what writing one does to each D register and to each field, and that
reading it back gives the lanes written. -/

namespace Sys2Proof.Machine

variable (s : State)

/-! `State.writeV` and every field it leaves alone. -/

@[simp] theorem State.writeV_r (i : DReg) (q : Bool) (v : Vec) : (s.writeV i q v).r = s.r := by
  cases q <;> rfl

@[simp] theorem State.writeV_pc (i : DReg) (q : Bool) (v : Vec) : (s.writeV i q v).pc = s.pc := by
  cases q <;> rfl

@[simp] theorem State.writeV_faulted (i : DReg) (q : Bool) (v : Vec) : (s.writeV i q v).faulted = s.faulted := by
  cases q <;> rfl

@[simp] theorem State.writeV_fcause (i : DReg) (q : Bool) (v : Vec) : (s.writeV i q v).fcause = s.fcause := by
  cases q <;> rfl

@[simp] theorem State.writeV_fpc (i : DReg) (q : Bool) (v : Vec) : (s.writeV i q v).fpc = s.fpc := by
  cases q <;> rfl

@[simp] theorem State.writeV_finst (i : DReg) (q : Bool) (v : Vec) : (s.writeV i q v).finst = s.finst := by
  cases q <;> rfl

@[simp] theorem State.writeV_faddr (i : DReg) (q : Bool) (v : Vec) : (s.writeV i q v).faddr = s.faddr := by
  cases q <;> rfl

@[simp] theorem State.writeV_mem (i : DReg) (q : Bool) (v : Vec) : (s.writeV i q v).mem = s.mem := by
  cases q <;> rfl

@[simp] theorem State.writeV_memTop (i : DReg) (q : Bool) (v : Vec) : (s.writeV i q v).memTop = s.memTop := by
  cases q <;> rfl

@[simp] theorem State.writeV_host (i : DReg) (q : Bool) (v : Vec) : (s.writeV i q v).host = s.host := by
  cases q <;> rfl

@[simp] theorem State.writeV_resets (i : DReg) (q : Bool) (v : Vec) : (s.writeV i q v).resets = s.resets := by
  cases q <;> rfl

@[simp] theorem State.writeV_readR (i : DReg) (q : Bool) (v : Vec) (j : RReg) : (s.writeV i q v).readR j = s.readR j := by
  cases q <;> rfl

@[simp] theorem State.writeV_readMem (i : DReg) (q : Bool) (v : Vec) (a : Nat) :
    (s.writeV i q v).readMem a = s.readMem a := by
  cases q <;> rfl

@[simp] theorem State.writeV_memBytes (i : DReg) (q : Bool) (v : Vec) : (s.writeV i q v).memBytes = s.memBytes := by
  cases q <;> rfl

/-! `State.writeGroup` and every field it leaves alone. -/

@[simp] theorem State.writeGroup_r (vd : DReg) (q : Bool) (n : Nat) (f : Nat → Vec) :
    (s.writeGroup vd q n f).r = s.r := by
  induction n with
  | zero => rfl
  | succ n ih => rw [State.writeGroup, State.writeV_r, ih]

@[simp] theorem State.writeGroup_pc (vd : DReg) (q : Bool) (n : Nat) (f : Nat → Vec) :
    (s.writeGroup vd q n f).pc = s.pc := by
  induction n with
  | zero => rfl
  | succ n ih => rw [State.writeGroup, State.writeV_pc, ih]

@[simp] theorem State.writeGroup_faulted (vd : DReg) (q : Bool) (n : Nat) (f : Nat → Vec) :
    (s.writeGroup vd q n f).faulted = s.faulted := by
  induction n with
  | zero => rfl
  | succ n ih => rw [State.writeGroup, State.writeV_faulted, ih]

@[simp] theorem State.writeGroup_fcause (vd : DReg) (q : Bool) (n : Nat) (f : Nat → Vec) :
    (s.writeGroup vd q n f).fcause = s.fcause := by
  induction n with
  | zero => rfl
  | succ n ih => rw [State.writeGroup, State.writeV_fcause, ih]

@[simp] theorem State.writeGroup_fpc (vd : DReg) (q : Bool) (n : Nat) (f : Nat → Vec) :
    (s.writeGroup vd q n f).fpc = s.fpc := by
  induction n with
  | zero => rfl
  | succ n ih => rw [State.writeGroup, State.writeV_fpc, ih]

@[simp] theorem State.writeGroup_finst (vd : DReg) (q : Bool) (n : Nat) (f : Nat → Vec) :
    (s.writeGroup vd q n f).finst = s.finst := by
  induction n with
  | zero => rfl
  | succ n ih => rw [State.writeGroup, State.writeV_finst, ih]

@[simp] theorem State.writeGroup_faddr (vd : DReg) (q : Bool) (n : Nat) (f : Nat → Vec) :
    (s.writeGroup vd q n f).faddr = s.faddr := by
  induction n with
  | zero => rfl
  | succ n ih => rw [State.writeGroup, State.writeV_faddr, ih]

@[simp] theorem State.writeGroup_mem (vd : DReg) (q : Bool) (n : Nat) (f : Nat → Vec) :
    (s.writeGroup vd q n f).mem = s.mem := by
  induction n with
  | zero => rfl
  | succ n ih => rw [State.writeGroup, State.writeV_mem, ih]

@[simp] theorem State.writeGroup_memTop (vd : DReg) (q : Bool) (n : Nat) (f : Nat → Vec) :
    (s.writeGroup vd q n f).memTop = s.memTop := by
  induction n with
  | zero => rfl
  | succ n ih => rw [State.writeGroup, State.writeV_memTop, ih]

@[simp] theorem State.writeGroup_host (vd : DReg) (q : Bool) (n : Nat) (f : Nat → Vec) :
    (s.writeGroup vd q n f).host = s.host := by
  induction n with
  | zero => rfl
  | succ n ih => rw [State.writeGroup, State.writeV_host, ih]

@[simp] theorem State.writeGroup_resets (vd : DReg) (q : Bool) (n : Nat) (f : Nat → Vec) :
    (s.writeGroup vd q n f).resets = s.resets := by
  induction n with
  | zero => rfl
  | succ n ih => rw [State.writeGroup, State.writeV_resets, ih]

@[simp] theorem State.writeGroup_readR (vd : DReg) (q : Bool) (n : Nat) (f : Nat → Vec) (j : RReg) :
    (s.writeGroup vd q n f).readR j = s.readR j := by
  simp [State.readR]

@[simp] theorem State.writeGroup_readMem (vd : DReg) (q : Bool) (n : Nat) (f : Nat → Vec) (a : Nat) :
    (s.writeGroup vd q n f).readMem a = s.readMem a := by
  simp [State.readMem]

/-! D registers. -/

/-- D register `j` is part of the operand `V(i, q)`. -/
def partOf (i : DReg) (q : Bool) (j : DReg) : Bool := decide (j = i) || (q && decide (j = i + 1#5))

theorem DReg.succ_ne (i : DReg) : i + 1#5 ≠ i := by
  intro h
  have := congrArg BitVec.toNat h
  simp only [BitVec.toNat_add, BitVec.toNat_ofNat] at this
  omega

/-- What writing an operand does to each D register. -/
theorem State.readD_writeV (i : DReg) (q : Bool) (v : Vec) (j : DReg) :
    (s.writeV i q v).readD j =
      if j = i then v.setWidth 64 else if q = true ∧ j = i + 1#5 then v.extractLsb' 64 64 else s.readD j := by
  have h := DReg.succ_ne i
  cases q
  · by_cases hj : j = i
    · simp [State.writeV, hj]
    · simp [State.writeV, hj, Ne.symm hj]
  · by_cases hj : j = i
    · subst hj; simp [State.writeV, h]
    · by_cases hj' : j = i + 1#5
      · subst hj'; simp [State.writeV, h]
      · simp [State.writeV, hj, hj', Ne.symm hj, Ne.symm hj']

/-- A D register outside the operand is unchanged. -/
theorem State.readD_writeV_of_not_partOf {i : DReg} {q : Bool} {v : Vec} {j : DReg} (h : partOf i q j = false) :
    (s.writeV i q v).readD j = s.readD j := by
  simp only [partOf, Bool.or_eq_false_iff, decide_eq_false_iff_not, Bool.and_eq_false_iff] at h
  rw [State.readD_writeV, if_neg h.1, if_neg]
  rintro ⟨hq, hj⟩
  rcases h.2 with h2 | h2
  · rw [hq] at h2; exact absurd h2 (by decide)
  · exact h2 hj

/-- Reading an operand depends on its D registers only. -/
theorem State.readV_congr {s t : State} {i : DReg} {q : Bool} (h : ∀ j, partOf i q j = true → t.readD j = s.readD j) :
    t.readV i q = s.readV i q := by
  cases q
  · simp [State.readV, h i (by simp [partOf])]
  · simp [State.readV, h i (by simp [partOf]), h (i + 1#5) (by simp [partOf])]

/-- Writing one operand leaves a disjoint operand alone. -/
theorem State.readV_writeV_disjoint {i j : DReg} {q q' : Bool} {v : Vec}
    (h : ∀ k, partOf j q' k = true → partOf i q k = false) : (s.writeV i q v).readV j q' = s.readV j q' :=
  State.readV_congr fun k hk => s.readD_writeV_of_not_partOf (h k hk)

/-- Reading back an operand just written: all of a Q register, the low half for a D register. -/
theorem State.readV_writeV (i : DReg) (q : Bool) (v : Vec) :
    (s.writeV i q v).readV i q = if q then v else (v.setWidth 64).setWidth 128 := by
  have h := DReg.succ_ne i
  cases q
  · simp [State.readV, State.readD_writeV]
  · simp only [State.readV, State.readD_writeV, if_true, h, if_false, true_and]
    apply BitVec.eq_of_getLsbD_eq
    intro k hk
    rw [BitVec.getLsbD_append]
    by_cases h64 : k < 64
    · simp [h64]
    · have : 64 + (k - 64) = k := by omega
      have h' : k - 64 < 64 := by omega
      simp [h64, h', this]

/-- A lane of a D operand is a lane of the low half. -/
theorem lane_low {q : Bool} (sz : Sz) (v : Vec) {i : Nat} (hi : i < laneCount q sz) :
    lane sz.bits (if q then v else (v.setWidth 64).setWidth 128) i = lane sz.bits v i := by
  cases q
  · apply BitVec.eq_of_getLsbD_eq
    intro k hk
    have h := bits_mul_laneCount false sz
    simp only [regBits] at h
    have : sz.bits * i + k < 64 := by
      have : i + 1 ≤ laneCount false sz := hi
      have := Nat.mul_le_mul_left sz.bits this
      rw [Nat.mul_succ] at this
      simp at h
      omega
    have h' : sz.bits * i + k < 128 := by omega
    simp only [getLsbD_lane, if_false, Bool.false_eq_true, BitVec.getLsbD_setWidth, this, h', decide_true, Bool.true_and]
  · rfl

/-- The lanes of an operand written from its lanes (the form every lane-wise meaning has). -/
theorem State.lane_readV_writeV (i : DReg) (q : Bool) (sz : Sz) (f : Nat → BitVec sz.bits) {k : Nat}
    (hk : k < laneCount q sz) :
    lane sz.bits ((s.writeV i q (ofLanes sz.bits (laneCount q sz) f)).readV i q) k = f k := by
  rw [State.readV_writeV, lane_low sz _ hk, lane_ofLanes sz.bits_pos f hk (bits_mul_laneCount_le q sz)]

/-- Two operands of one kind with the same lanes are equal. -/
theorem readV_ext {s t : State} {a b : DReg} {q : Bool} (sz : Sz)
    (h : ∀ k, k < laneCount q sz → lane sz.bits (t.readV a q) k = lane sz.bits (s.readV b q) k) :
    t.readV a q = s.readV b q := by
  apply BitVec.eq_of_getLsbD_eq
  intro k hk
  have hw := sz.bits_pos
  by_cases hr : k < regBits q
  · have hi : k / sz.bits < laneCount q sz := by
      rw [Nat.div_lt_iff_lt_mul hw, Nat.mul_comm, bits_mul_laneCount]; exact hr
    have hb := congrArg (fun x => x.getLsbD (k % sz.bits)) (h _ hi)
    simpa only [getLsbD_lane, Nat.mod_lt _ hw, Nat.div_add_mod, decide_true, Bool.true_and] using hb
  · cases q
    · simp [State.readV, BitVec.getLsbD_of_ge _ k (by simpa [regBits] using hr : 64 ≤ k)]
    · exact absurd hk (by simpa [regBits] using hr)

/-! Groups. -/

/-- The D number of register `k` of a group that fits, without wrap-around. -/
theorem groupReg_toNat {o : LS} {n : Nat} (h : o.regsOk n = true) {k : Nat} (hk : k < n) :
    (groupReg o.vd o.q k).toNat = o.vd.toNat + k * groupStride o.q := by
  simp only [LS.regsOk, Bool.and_eq_true, decide_eq_true_eq] at h
  have hle : k * groupStride o.q ≤ (n - 1) * groupStride o.q := Nat.mul_le_mul_right _ (by omega)
  have hlt : k * groupStride o.q < 32 := by omega
  simp only [groupReg, BitVec.toNat_add, BitVec.toNat_ofNat]
  omega

/-- The D registers of register `k` of a group that fits, by number. -/
theorem partOf_groupReg {o : LS} {n : Nat} (h : o.regsOk n = true) {k : Nat} (hk : k < n) (j : DReg) :
    partOf (groupReg o.vd o.q k) o.q j = true ↔
      o.vd.toNat + k * groupStride o.q ≤ j.toNat ∧ j.toNat < o.vd.toNat + (k + 1) * groupStride o.q := by
  have hg := groupReg_toNat h hk
  have hb := h
  simp only [LS.regsOk, Bool.and_eq_true, decide_eq_true_eq] at hb
  have hle : k * groupStride o.q ≤ (n - 1) * groupStride o.q := Nat.mul_le_mul_right _ (by omega)
  simp only [partOf, Bool.or_eq_true, decide_eq_true_eq, Bool.and_eq_true, ← BitVec.toNat_inj, BitVec.toNat_add, hg]
  rcases hq : o.q with _ | _
  · simp [groupStride]
    omega
  · simp only [hq, groupStride, Bool.toNat_true, if_true, true_and] at hb hle ⊢
    simp only [BitVec.toNat_ofNat]
    omega

/-- A D register outside the first `m` registers of a group is unchanged by writing them. -/
theorem State.readD_writeGroup_of_not_partOf {vd : DReg} {q : Bool} {f : Nat → Vec} {j : DReg} {m : Nat}
    (h : ∀ k < m, partOf (groupReg vd q k) q j = false) : (s.writeGroup vd q m f).readD j = s.readD j := by
  induction m with
  | zero => rfl
  | succ m ih =>
    rw [State.writeGroup, State.readD_writeV_of_not_partOf _ (h m (by omega)), ih fun k hk => h k (by omega)]

/-- Reading back register `k` of a group just written. -/
theorem State.readV_writeGroup {o : LS} {n : Nat} (h : o.regsOk n = true) (f : Nat → Vec) {k : Nat} (hk : k < n) :
    (s.writeGroup o.vd o.q n f).readV (groupReg o.vd o.q k) o.q =
      if o.q then f k else ((f k).setWidth 64).setWidth 128 := by
  suffices H : ∀ m, k < m → m ≤ n → (s.writeGroup o.vd o.q m f).readV (groupReg o.vd o.q k) o.q =
      if o.q then f k else ((f k).setWidth 64).setWidth 128 from H n hk (le_refl n)
  intro m
  induction m with
  | zero => intro h0; omega
  | succ m ih =>
    intro hkm hmn
    by_cases he : k = m
    · subst he
      rw [State.writeGroup, State.readV_writeV]
    · rw [State.writeGroup, State.readV_writeV_disjoint, ih (by omega) (by omega)]
      intro j hj
      rw [partOf_groupReg h hk] at hj
      by_contra hc
      rw [Bool.not_eq_false, partOf_groupReg h (by omega : m < n)] at hc
      have : (k + 1) * groupStride o.q ≤ m * groupStride o.q := Nat.mul_le_mul_right _ (by omega)
      omega

end Sys2Proof.Machine
end

