-- ==== Sys2Proof/Laws/Operations.lean ====
section
/-! SUPPORT. One lemma per shared operation of Machine/Operands.lean, saying once everything it can do, and the same for
`issueWord` and `step`. -/

namespace Sys2Proof.Machine

/-! Completion. -/

theorem completeIf_true {regsOk : Bool} (h : regsOk = true) (inst : Word) (s t : State) :
    completeIf regsOk inst s t = .next t.advance := by simp [completeIf, h]

theorem completeIf_false {regsOk : Bool} (h : regsOk = false) (inst : Word) (s t : State) :
    completeIf regsOk inst s t = .next (s.takeFault .registerGroup inst 0) := by simp [completeIf, h, raise]

/-- A template completes, or takes `RegisterGroupFault`. -/
theorem completeIf_cases (regsOk : Bool) (inst : Word) (s t : State) :
    (regsOk = true ∧ completeIf regsOk inst s t = .next t.advance) ∨
      (regsOk = false ∧ completeIf regsOk inst s t = .next (s.takeFault .registerGroup inst 0)) := by
  cases regsOk
  · exact .inr ⟨rfl, rfl⟩
  · exact .inl ⟨rfl, rfl⟩

/-! Transfers. -/

/-- What the alignment and access checks answer, by their conditions (R51, R55, R299). -/
theorem transferFault_eq_none {o : LS} {t : Nat} {s : State} :
    o.transferFault t s = none ↔ (o.base s).toNat % o.sz.bytes = 0 ∧ (o.base s).toNat + t ≤ s.memBytes := by
  unfold LS.transferFault
  split
  · simp_all
  · split <;> simp_all

theorem transferFault_alignment {o : LS} {t : Nat} {s : State} (h : (o.base s).toNat % o.sz.bytes ≠ 0) :
    o.transferFault t s = some .alignment := by simp [LS.transferFault, h]

theorem transferFault_access {o : LS} {t : Nat} {s : State} (h : (o.base s).toNat % o.sz.bytes = 0)
    (h' : s.memBytes < (o.base s).toNat + t) : o.transferFault t s = some .access := by
  simp [LS.transferFault, h, h']

/-- A transfer completes, or takes `RegisterGroupFault`, `AlignmentFault` or `AccessFault`. -/
theorem transfer_cases (inst : Word) (o : LS) (n bytes : Nat) (s t : State) :
    (o.regsOk n = true ∧ o.transferFault bytes s = none ∧
        transfer inst o n bytes s t = .next (o.writeback bytes s t).advance) ∨
      (o.regsOk n = false ∧ transfer inst o n bytes s t = .next (s.takeFault .registerGroup inst 0)) ∨
      (o.regsOk n = true ∧ ∃ c, o.transferFault bytes s = some c ∧ (c = .alignment ∨ c = .access) ∧
        transfer inst o n bytes s t = .next (s.takeFault c inst (o.base s))) := by
  cases hr : o.regsOk n
  · exact .inr (.inl ⟨rfl, by simp [transfer, hr, raise]⟩)
  · cases hf : o.transferFault bytes s with
    | none => exact .inl ⟨rfl, rfl, by simp [transfer, hr, hf]⟩
    | some c =>
      refine .inr (.inr ⟨rfl, c, rfl, ?_, by simp [transfer, hr, hf, raise]⟩)
      unfold LS.transferFault at hf
      split at hf
      · exact .inl (Option.some.inj hf).symm
      · split at hf
        · exact .inr (Option.some.inj hf).symm
        · cases hf

end Sys2Proof.Machine

namespace Sys2Proof

open Machine

variable (o : LS) (n : Nat) (s t : Machine.State)

@[simp] theorem LS.writeback_d : (o.writeback n s t).d = t.d := by unfold LS.writeback; split <;> rfl

@[simp] theorem LS.writeback_pc : (o.writeback n s t).pc = t.pc := by unfold LS.writeback; split <;> rfl

@[simp] theorem LS.writeback_faulted : (o.writeback n s t).faulted = t.faulted := by unfold LS.writeback; split <;> rfl

@[simp] theorem LS.writeback_fcause : (o.writeback n s t).fcause = t.fcause := by unfold LS.writeback; split <;> rfl

@[simp] theorem LS.writeback_fpc : (o.writeback n s t).fpc = t.fpc := by unfold LS.writeback; split <;> rfl

@[simp] theorem LS.writeback_finst : (o.writeback n s t).finst = t.finst := by unfold LS.writeback; split <;> rfl

@[simp] theorem LS.writeback_faddr : (o.writeback n s t).faddr = t.faddr := by unfold LS.writeback; split <;> rfl

@[simp] theorem LS.writeback_mem : (o.writeback n s t).mem = t.mem := by unfold LS.writeback; split <;> rfl

@[simp] theorem LS.writeback_memTop : (o.writeback n s t).memTop = t.memTop := by unfold LS.writeback; split <;> rfl

@[simp] theorem LS.writeback_host : (o.writeback n s t).host = t.host := by unfold LS.writeback; split <;> rfl

@[simp] theorem LS.writeback_resets : (o.writeback n s t).resets = t.resets := by unfold LS.writeback; split <;> rfl

@[simp] theorem LS.writeback_readD (j : DReg) : (o.writeback n s t).readD j = t.readD j := by
  unfold LS.writeback; split <;> rfl

@[simp] theorem LS.writeback_readV (j : DReg) (q : Bool) : (o.writeback n s t).readV j q = t.readV j q := by
  unfold LS.writeback; split <;> rfl

@[simp] theorem LS.writeback_readMem (a : Nat) : (o.writeback n s t).readMem a = t.readMem a := by
  unfold LS.writeback; split <;> rfl

/-- What the writeback leaves in each R register, when the transfer changed none. -/
theorem LS.writeback_readR (h : ∀ j, t.readR j = s.readR j) (j : RReg) :
    (o.writeback n s t).readR j = if j = o.rn then o.newBase n s else s.readR j := by
  unfold LS.writeback
  split
  · rename_i hk
    rw [h]
    split
    · rename_i hj
      rw [hj, LS.newBase, hk]
      rfl
    · rfl
  · simp [h, eq_comm]

end Sys2Proof

namespace Sys2Proof.Machine

/-! The issue port and the step. -/

/-- A word presented in READY that is no defined encoding takes `IllegalInstruction` (R291). -/
theorem issueWord_illegal {w : Word} {s : State} {e : DecodeError} (hs : s.faulted = false) (h : decode w = .error e) :
    issueWord w s = .next (s.takeFault .illegalInstruction w 0) := by simp [issueWord, hs, h, raise]

/-- A word presented in READY that decodes runs its instruction. -/
theorem issueWord_ok {w : Word} {s : State} {i : Instr} (hs : s.faulted = false) (h : decode w = .ok i) :
    issueWord w s = exec i s := by simp [issueWord, hs, h]

/-- With no move pending the block waits. -/
theorem step_nil {s : State} (h : s.host = []) : step s = .next s := by simp [step, takeMove, h]

/-- A pending move is applied to the state without it. -/
theorem step_cons {s : State} {m : HostMove} {ms : List HostMove} (h : s.host = m :: ms) :
    step s = hostMove m (s.setHost ms) := by simp [step, takeMove, h]

/-- Everything a step that goes on can do. -/
theorem step_cases {s t : State} (h : step s = .next t) :
    (s.host = [] ∧ t = s) ∨
      ∃ m ms, s.host = m :: ms ∧
        ((∃ w, m = .issue w ∧ s.faulted = false ∧
            ((∃ e, decode w = .error e ∧ t = (s.setHost ms).takeFault .illegalInstruction w 0) ∨
              ∃ i, decode w = .ok i ∧ exec i (s.setHost ms) = .next t)) ∨
          (∃ i v, m = .writeD i v ∧ t = (s.setHost ms).writeD i v) ∨
          (∃ i v, m = .writeR i v ∧ t = (s.setHost ms).writeR i v) ∨
          (∃ a b, m = .writeByte a b ∧ a.toNat < s.memBytes ∧
            t = (s.setHost ms).setMem (Memory.write s.mem a.toNat b)) ∨
          (m = .reset ∧ t = (s.setHost ms).hostReset)) := by
  cases hh : s.host with
  | nil =>
    rw [step_nil hh] at h
    exact .inl ⟨rfl, by cases h; rfl⟩
  | cons m ms =>
    rw [step_cons hh] at h
    refine .inr ⟨m, ms, rfl, ?_⟩
    cases m with
    | issue w =>
      refine .inl ⟨w, rfl, ?_⟩
      cases hf : s.faulted
      · refine ⟨rfl, ?_⟩
        cases hd : decode w with
        | error e =>
          rw [hostMove, issueWord_illegal (by simpa using hf) hd] at h
          exact .inl ⟨e, rfl, (Host.Outcome.next.inj h).symm⟩
        | ok i =>
          rw [hostMove, issueWord_ok (by simpa using hf) hd] at h
          exact .inr ⟨i, rfl, h⟩
      · simp [hostMove, issueWord, hf] at h
    | writeD i v => exact .inr (.inl ⟨i, v, rfl, (Host.Outcome.next.inj h).symm⟩)
    | writeR i v => exact .inr (.inr (.inl ⟨i, v, rfl, (Host.Outcome.next.inj h).symm⟩))
    | writeByte a b =>
      refine .inr (.inr (.inr (.inl ⟨a, b, rfl, ?_⟩)))
      by_cases ha : a.toNat < s.memBytes
      · simp only [hostMove, State.setHost_memBytes, ha, if_true] at h
        exact ⟨ha, (Host.Outcome.next.inj h).symm⟩
      · simp [hostMove, ha] at h
    | reset => exact .inr (.inr (.inr (.inr ⟨rfl, (Host.Outcome.next.inj h).symm⟩)))

end Sys2Proof.Machine
end

