-- ==== Sys2Proof/Laws/PerInstr.lean ====
section
/-! SUPPORT. The family `EncodeMatchesRow`: an encoded instruction selects its row of spec/opcode_table.json, that is
`word & mask = match` with the row's mask and match (30_encoding.md R86), one lemma per constructor. -/

namespace Sys2Proof.Laws

/-! The masked word of each format: only the fixed fields are left. -/

section masks

variable (opc : BitVec 6) (sz : BitVec 2) (q : BitVec 1) (vd vn vm : DReg) (imm : Imm8)

theorem mask_v3 : packV opc sz q vd vn vm 0#8 &&& 0xFC0000FF#32 = packV opc 0#2 0#1 0#5 0#5 0#5 0#8 := by
  apply BitVec.eq_of_getLsbD_eq
  intro k hk
  simp only [packV, BitVec.getLsbD_and, BitVec.getLsbD_append]
  interval_cases k <;> simp

theorem mask_v3b : packV opc 0#2 q vd vn vm 0#8 &&& 0xFF0000FF#32 = packV opc 0#2 0#1 0#5 0#5 0#5 0#8 := by
  apply BitVec.eq_of_getLsbD_eq
  intro k hk
  simp only [packV, BitVec.getLsbD_and, BitVec.getLsbD_append]
  interval_cases k <;> simp

theorem mask_v3w : packV opc sz 0#1 vd vn vm 0#8 &&& 0xFC8000FF#32 = packV opc 0#2 0#1 0#5 0#5 0#5 0#8 := by
  apply BitVec.eq_of_getLsbD_eq
  intro k hk
  simp only [packV, BitVec.getLsbD_and, BitVec.getLsbD_append]
  interval_cases k <;> simp

theorem mask_v3x : packV opc sz q vd vn vm imm &&& 0xFC000000#32 = packV opc 0#2 0#1 0#5 0#5 0#5 0#8 := by
  apply BitVec.eq_of_getLsbD_eq
  intro k hk
  simp only [packV, BitVec.getLsbD_and, BitVec.getLsbD_append]
  interval_cases k <;> simp

theorem mask_v2 : packV opc sz q vd 0#5 vm 0#8 &&& 0xFC03E0FF#32 = packV opc 0#2 0#1 0#5 0#5 0#5 0#8 := by
  apply BitVec.eq_of_getLsbD_eq
  intro k hk
  simp only [packV, BitVec.getLsbD_and, BitVec.getLsbD_append]
  interval_cases k <;> simp

theorem mask_v2b : packV opc 0#2 q vd 0#5 vm 0#8 &&& 0xFF03E0FF#32 = packV opc 0#2 0#1 0#5 0#5 0#5 0#8 := by
  apply BitVec.eq_of_getLsbD_eq
  intro k hk
  simp only [packV, BitVec.getLsbD_and, BitVec.getLsbD_append]
  interval_cases k <;> simp

theorem mask_v2i : packV opc sz q vd 0#5 vm imm &&& 0xFC03E000#32 = packV opc 0#2 0#1 0#5 0#5 0#5 0#8 := by
  apply BitVec.eq_of_getLsbD_eq
  intro k hk
  simp only [packV, BitVec.getLsbD_and, BitVec.getLsbD_append]
  interval_cases k <;> simp

theorem mask_v2n : packV opc sz 0#1 vd 0#5 vm imm &&& 0xFC83E000#32 = packV opc 0#2 0#1 0#5 0#5 0#5 0#8 := by
  apply BitVec.eq_of_getLsbD_eq
  intro k hk
  simp only [packV, BitVec.getLsbD_and, BitVec.getLsbD_append]
  interval_cases k <;> simp

theorem mask_v2f : packV opc 2#2 q vd 0#5 vm imm &&& 0xFF03E000#32 = packV opc 2#2 0#1 0#5 0#5 0#5 0#8 := by
  apply BitVec.eq_of_getLsbD_eq
  intro k hk
  simp only [packV, BitVec.getLsbD_and, BitVec.getLsbD_append]
  interval_cases k <;> simp

theorem mask_v2s (di mi : BitVec 1) : packV opc 2#2 0#1 vd 0#5 vm (0#6 ++ di ++ mi) &&& 0xFF83E0FC#32 = packV opc 2#2 0#1 0#5 0#5 0#5 0#8 := by
  apply BitVec.eq_of_getLsbD_eq
  intro k hk
  simp only [packV, BitVec.getLsbD_and, BitVec.getLsbD_append]
  interval_cases k <;> simp

theorem mask_v2r (rs : RReg) : packV opc sz q vd (0#1 ++ rs) vm 0#8 &&& 0xFC0200FF#32 = packV opc 0#2 0#1 0#5 0#5 0#5 0#8 := by
  apply BitVec.eq_of_getLsbD_eq
  intro k hk
  simp only [packV, BitVec.getLsbD_and, BitVec.getLsbD_append]
  interval_cases k <;> simp

theorem mask_ls (rn : RReg) (wb : BitVec 2) (rm : RReg) (nm1 : BitVec 2) : packLS opc sz q vd rn wb rm nm1 &&& 0xFC0000FF#32 = packLS opc 0#2 0#1 0#5 0#4 0#2 0#4 nm1 := by
  apply BitVec.eq_of_getLsbD_eq
  intro k hk
  simp only [packLS, BitVec.getLsbD_and, BitVec.getLsbD_append]
  interval_cases k <;> simp

end masks

/-- The mask of an instruction's row. -/
def rowMask : Instr → Word
  | .vld1 _ => 0xFC0000FF#32
  | .vld2 _ => 0xFC0000FF#32
  | .vld3 _ => 0xFC0000FF#32
  | .vld4 _ => 0xFC0000FF#32
  | .vst1 _ => 0xFC0000FF#32
  | .vst2 _ => 0xFC0000FF#32
  | .vst3 _ => 0xFC0000FF#32
  | .vst4 _ => 0xFC0000FF#32
  | .vlddup _ => 0xFC0000FF#32
  | .vadd _ => 0xFC0000FF#32
  | .vsub _ => 0xFC0000FF#32
  | .vqadd _ => 0xFC0000FF#32
  | .vqsub _ => 0xFC0000FF#32
  | .vneg _ => 0xFC03E0FF#32
  | .vabs _ => 0xFC03E0FF#32
  | .vqneg _ => 0xFC03E0FF#32
  | .vqabs _ => 0xFC03E0FF#32
  | .vqshl _ => 0xFC03E000#32
  | .vqshlr _ => 0xFC0200FF#32
  | .vrshr _ => 0xFC03E000#32
  | .vmin _ => 0xFC0000FF#32
  | .vmax _ => 0xFC0000FF#32
  | .vpadd _ => 0xFC0000FF#32
  | .vpmax _ => 0xFC0000FF#32
  | .vpmin _ => 0xFC0000FF#32
  | .vmul _ => 0xFC0000FF#32
  | .vmla _ => 0xFC0000FF#32
  | .vmls _ => 0xFC0000FF#32
  | .vmull _ => 0xFC8000FF#32
  | .vmlal _ => 0xFC8000FF#32
  | .vmlsl _ => 0xFC8000FF#32
  | .vqdmulh _ => 0xFC0000FF#32
  | .vqrdmulh _ => 0xFC0000FF#32
  | .vqdmulhLane _ => 0xFC000000#32
  | .vqrdmulhLane _ => 0xFC000000#32
  | .vrev _ => 0xFC03E000#32
  | .vzip _ => 0xFC03E0FF#32
  | .vuzp _ => 0xFC03E0FF#32
  | .vtrn _ => 0xFC03E0FF#32
  | .vext _ => 0xFC000000#32
  | .vdup _ => 0xFC03E000#32
  | .vswp _ => 0xFF03E0FF#32
  | .vcge _ => 0xFC0000FF#32
  | .vcgt _ => 0xFC0000FF#32
  | .vceq _ => 0xFC0000FF#32
  | .vcgez _ => 0xFC03E0FF#32
  | .vcgtz _ => 0xFC03E0FF#32
  | .vceqz _ => 0xFC03E0FF#32
  | .vtst _ => 0xFC0000FF#32
  | .vbit _ => 0xFF0000FF#32
  | .vclz _ => 0xFC03E0FF#32
  | .vcls _ => 0xFC03E0FF#32
  | .vqrshrn _ => 0xFC83E000#32
  | .vcvtF32S32 _ => 0xFF03E000#32
  | .vcvtS32F32 _ => 0xFF03E000#32
  | .vsqrt _ => 0xFF83E0FC#32

/-- The match of an instruction's row. -/
def rowMatch : Instr → Word
  | .vld1 _ => 0x04000000#32
  | .vld2 _ => 0x04000040#32
  | .vld3 _ => 0x04000080#32
  | .vld4 _ => 0x040000C0#32
  | .vst1 _ => 0x08000000#32
  | .vst2 _ => 0x08000040#32
  | .vst3 _ => 0x08000080#32
  | .vst4 _ => 0x080000C0#32
  | .vlddup _ => 0x0C000000#32
  | .vadd _ => 0x20000000#32
  | .vsub _ => 0x24000000#32
  | .vqadd _ => 0x28000000#32
  | .vqsub _ => 0x2C000000#32
  | .vneg _ => 0x30000000#32
  | .vabs _ => 0x34000000#32
  | .vqneg _ => 0x38000000#32
  | .vqabs _ => 0x3C000000#32
  | .vqshl _ => 0x40000000#32
  | .vqshlr _ => 0x44000000#32
  | .vrshr _ => 0x48000000#32
  | .vmin _ => 0x4C000000#32
  | .vmax _ => 0x50000000#32
  | .vpadd _ => 0x54000000#32
  | .vpmax _ => 0x58000000#32
  | .vpmin _ => 0x5C000000#32
  | .vmul _ => 0x60000000#32
  | .vmla _ => 0x64000000#32
  | .vmls _ => 0x68000000#32
  | .vmull _ => 0x6C000000#32
  | .vmlal _ => 0x70000000#32
  | .vmlsl _ => 0x74000000#32
  | .vqdmulh _ => 0x78000000#32
  | .vqrdmulh _ => 0x7C000000#32
  | .vqdmulhLane _ => 0x80000000#32
  | .vqrdmulhLane _ => 0x84000000#32
  | .vrev _ => 0x90000000#32
  | .vzip _ => 0x94000000#32
  | .vuzp _ => 0x98000000#32
  | .vtrn _ => 0x9C000000#32
  | .vext _ => 0xA0000000#32
  | .vdup _ => 0xA4000000#32
  | .vswp _ => 0xA8000000#32
  | .vcge _ => 0xB0000000#32
  | .vcgt _ => 0xB4000000#32
  | .vceq _ => 0xB8000000#32
  | .vcgez _ => 0xBC000000#32
  | .vcgtz _ => 0xC0000000#32
  | .vceqz _ => 0xC4000000#32
  | .vtst _ => 0xC8000000#32
  | .vbit _ => 0xCC000000#32
  | .vclz _ => 0xD0000000#32
  | .vcls _ => 0xD4000000#32
  | .vqrshrn _ => 0xD8000000#32
  | .vcvtF32S32 _ => 0xDE000000#32
  | .vcvtS32F32 _ => 0xE2000000#32
  | .vsqrt _ => 0xE6000000#32

/-- The encoding of `i` selects the row of `i`. -/
def EncodeMatchesRow.Statement (i : Instr) : Prop := encode i &&& rowMask i = rowMatch i

theorem EncodeMatchesRow.vld1 (o : LS) : EncodeMatchesRow.Statement (.vld1 o) :=
  (mask_ls _ _ _ _ _ _ _ _).trans rfl

theorem EncodeMatchesRow.vld2 (o : LS) : EncodeMatchesRow.Statement (.vld2 o) :=
  (mask_ls _ _ _ _ _ _ _ _).trans rfl

theorem EncodeMatchesRow.vld3 (o : LS) : EncodeMatchesRow.Statement (.vld3 o) :=
  (mask_ls _ _ _ _ _ _ _ _).trans rfl

theorem EncodeMatchesRow.vld4 (o : LS) : EncodeMatchesRow.Statement (.vld4 o) :=
  (mask_ls _ _ _ _ _ _ _ _).trans rfl

theorem EncodeMatchesRow.vst1 (o : LS) : EncodeMatchesRow.Statement (.vst1 o) :=
  (mask_ls _ _ _ _ _ _ _ _).trans rfl

theorem EncodeMatchesRow.vst2 (o : LS) : EncodeMatchesRow.Statement (.vst2 o) :=
  (mask_ls _ _ _ _ _ _ _ _).trans rfl

theorem EncodeMatchesRow.vst3 (o : LS) : EncodeMatchesRow.Statement (.vst3 o) :=
  (mask_ls _ _ _ _ _ _ _ _).trans rfl

theorem EncodeMatchesRow.vst4 (o : LS) : EncodeMatchesRow.Statement (.vst4 o) :=
  (mask_ls _ _ _ _ _ _ _ _).trans rfl

theorem EncodeMatchesRow.vlddup (o : LS) : EncodeMatchesRow.Statement (.vlddup o) :=
  (mask_ls _ _ _ _ _ _ _ _).trans rfl

theorem EncodeMatchesRow.vadd (o : V3) : EncodeMatchesRow.Statement (.vadd o) :=
  (mask_v3 _ _ _ _ _ _).trans rfl

theorem EncodeMatchesRow.vsub (o : V3) : EncodeMatchesRow.Statement (.vsub o) :=
  (mask_v3 _ _ _ _ _ _).trans rfl

theorem EncodeMatchesRow.vqadd (o : V3) : EncodeMatchesRow.Statement (.vqadd o) :=
  (mask_v3 _ _ _ _ _ _).trans rfl

theorem EncodeMatchesRow.vqsub (o : V3) : EncodeMatchesRow.Statement (.vqsub o) :=
  (mask_v3 _ _ _ _ _ _).trans rfl

theorem EncodeMatchesRow.vneg (o : V2) : EncodeMatchesRow.Statement (.vneg o) :=
  (mask_v2 _ _ _ _ _).trans rfl

theorem EncodeMatchesRow.vabs (o : V2) : EncodeMatchesRow.Statement (.vabs o) :=
  (mask_v2 _ _ _ _ _).trans rfl

theorem EncodeMatchesRow.vqneg (o : V2) : EncodeMatchesRow.Statement (.vqneg o) :=
  (mask_v2 _ _ _ _ _).trans rfl

theorem EncodeMatchesRow.vqabs (o : V2) : EncodeMatchesRow.Statement (.vqabs o) :=
  (mask_v2 _ _ _ _ _).trans rfl

theorem EncodeMatchesRow.vqshl (o : V2I) : EncodeMatchesRow.Statement (.vqshl o) :=
  (mask_v2i _ _ _ _ _ _).trans rfl

theorem EncodeMatchesRow.vqshlr (o : V2R) : EncodeMatchesRow.Statement (.vqshlr o) :=
  (mask_v2r _ _ _ _ _ _).trans rfl

theorem EncodeMatchesRow.vrshr (o : V2I) : EncodeMatchesRow.Statement (.vrshr o) :=
  (mask_v2i _ _ _ _ _ _).trans rfl

theorem EncodeMatchesRow.vmin (o : V3) : EncodeMatchesRow.Statement (.vmin o) :=
  (mask_v3 _ _ _ _ _ _).trans rfl

theorem EncodeMatchesRow.vmax (o : V3) : EncodeMatchesRow.Statement (.vmax o) :=
  (mask_v3 _ _ _ _ _ _).trans rfl

theorem EncodeMatchesRow.vpadd (o : V3) : EncodeMatchesRow.Statement (.vpadd o) :=
  (mask_v3 _ _ _ _ _ _).trans rfl

theorem EncodeMatchesRow.vpmax (o : V3) : EncodeMatchesRow.Statement (.vpmax o) :=
  (mask_v3 _ _ _ _ _ _).trans rfl

theorem EncodeMatchesRow.vpmin (o : V3) : EncodeMatchesRow.Statement (.vpmin o) :=
  (mask_v3 _ _ _ _ _ _).trans rfl

theorem EncodeMatchesRow.vmul (o : V3) : EncodeMatchesRow.Statement (.vmul o) :=
  (mask_v3 _ _ _ _ _ _).trans rfl

theorem EncodeMatchesRow.vmla (o : V3) : EncodeMatchesRow.Statement (.vmla o) :=
  (mask_v3 _ _ _ _ _ _).trans rfl

theorem EncodeMatchesRow.vmls (o : V3) : EncodeMatchesRow.Statement (.vmls o) :=
  (mask_v3 _ _ _ _ _ _).trans rfl

theorem EncodeMatchesRow.vmull (o : V3W) : EncodeMatchesRow.Statement (.vmull o) :=
  (mask_v3w _ _ _ _ _).trans rfl

theorem EncodeMatchesRow.vmlal (o : V3W) : EncodeMatchesRow.Statement (.vmlal o) :=
  (mask_v3w _ _ _ _ _).trans rfl

theorem EncodeMatchesRow.vmlsl (o : V3W) : EncodeMatchesRow.Statement (.vmlsl o) :=
  (mask_v3w _ _ _ _ _).trans rfl

theorem EncodeMatchesRow.vqdmulh (o : V3) : EncodeMatchesRow.Statement (.vqdmulh o) :=
  (mask_v3 _ _ _ _ _ _).trans rfl

theorem EncodeMatchesRow.vqrdmulh (o : V3) : EncodeMatchesRow.Statement (.vqrdmulh o) :=
  (mask_v3 _ _ _ _ _ _).trans rfl

theorem EncodeMatchesRow.vqdmulhLane (o : V3L) : EncodeMatchesRow.Statement (.vqdmulhLane o) :=
  (mask_v3x _ _ _ _ _ _ _).trans rfl

theorem EncodeMatchesRow.vqrdmulhLane (o : V3L) : EncodeMatchesRow.Statement (.vqrdmulhLane o) :=
  (mask_v3x _ _ _ _ _ _ _).trans rfl

theorem EncodeMatchesRow.vrev (o : V2I) : EncodeMatchesRow.Statement (.vrev o) :=
  (mask_v2i _ _ _ _ _ _).trans rfl

theorem EncodeMatchesRow.vzip (o : V2) : EncodeMatchesRow.Statement (.vzip o) :=
  (mask_v2 _ _ _ _ _).trans rfl

theorem EncodeMatchesRow.vuzp (o : V2) : EncodeMatchesRow.Statement (.vuzp o) :=
  (mask_v2 _ _ _ _ _).trans rfl

theorem EncodeMatchesRow.vtrn (o : V2) : EncodeMatchesRow.Statement (.vtrn o) :=
  (mask_v2 _ _ _ _ _).trans rfl

theorem EncodeMatchesRow.vext (o : V3X) : EncodeMatchesRow.Statement (.vext o) :=
  (mask_v3x _ _ _ _ _ _ _).trans rfl

theorem EncodeMatchesRow.vdup (o : V2I) : EncodeMatchesRow.Statement (.vdup o) :=
  (mask_v2i _ _ _ _ _ _).trans rfl

theorem EncodeMatchesRow.vswp (o : V2B) : EncodeMatchesRow.Statement (.vswp o) :=
  (mask_v2b _ _ _ _).trans rfl

theorem EncodeMatchesRow.vcge (o : V3) : EncodeMatchesRow.Statement (.vcge o) :=
  (mask_v3 _ _ _ _ _ _).trans rfl

theorem EncodeMatchesRow.vcgt (o : V3) : EncodeMatchesRow.Statement (.vcgt o) :=
  (mask_v3 _ _ _ _ _ _).trans rfl

theorem EncodeMatchesRow.vceq (o : V3) : EncodeMatchesRow.Statement (.vceq o) :=
  (mask_v3 _ _ _ _ _ _).trans rfl

theorem EncodeMatchesRow.vcgez (o : V2) : EncodeMatchesRow.Statement (.vcgez o) :=
  (mask_v2 _ _ _ _ _).trans rfl

theorem EncodeMatchesRow.vcgtz (o : V2) : EncodeMatchesRow.Statement (.vcgtz o) :=
  (mask_v2 _ _ _ _ _).trans rfl

theorem EncodeMatchesRow.vceqz (o : V2) : EncodeMatchesRow.Statement (.vceqz o) :=
  (mask_v2 _ _ _ _ _).trans rfl

theorem EncodeMatchesRow.vtst (o : V3) : EncodeMatchesRow.Statement (.vtst o) :=
  (mask_v3 _ _ _ _ _ _).trans rfl

theorem EncodeMatchesRow.vbit (o : V3B) : EncodeMatchesRow.Statement (.vbit o) :=
  (mask_v3b _ _ _ _ _).trans rfl

theorem EncodeMatchesRow.vclz (o : V2) : EncodeMatchesRow.Statement (.vclz o) :=
  (mask_v2 _ _ _ _ _).trans rfl

theorem EncodeMatchesRow.vcls (o : V2) : EncodeMatchesRow.Statement (.vcls o) :=
  (mask_v2 _ _ _ _ _).trans rfl

theorem EncodeMatchesRow.vqrshrn (o : V2N) : EncodeMatchesRow.Statement (.vqrshrn o) :=
  (mask_v2n _ _ _ _ _).trans rfl

theorem EncodeMatchesRow.vcvtF32S32 (o : V2F) : EncodeMatchesRow.Statement (.vcvtF32S32 o) :=
  (mask_v2f _ _ _ _ _).trans rfl

theorem EncodeMatchesRow.vcvtS32F32 (o : V2F) : EncodeMatchesRow.Statement (.vcvtS32F32 o) :=
  (mask_v2f _ _ _ _ _).trans rfl

theorem EncodeMatchesRow.vsqrt (o : V2S) : EncodeMatchesRow.Statement (.vsqrt o) :=
  (mask_v2s _ _ _ _ _).trans rfl

end Sys2Proof.Laws
end

