-- ==== Sys2Proof/Laws/Templates.lean ====
section
/-! SUPPORT. What the shared templates do, in the vocabulary of Safety.lean: one lemma per template, from which the rule of
an instruction follows by its lane function alone. -/

namespace Sys2Proof.Machine

/-! The two ways of saying which registers. -/

theorem kindOk_iff {q : Bool} {r : DReg} : kindOk q r = true ↔ kindLegal q r := by
  cases q <;> simp [kindOk, kindLegal]

theorem partOf_iff {r : DReg} {q : Bool} {j : DReg} : partOf r q j = true ↔ inOperand r q j := by
  simp [partOf, inOperand]

theorem partOf_eq_false_iff {r : DReg} {q : Bool} {j : DReg} : partOf r q j = false ↔ ¬inOperand r q j := by
  rw [← partOf_iff, Bool.not_eq_true]

/-- The D registers of an operand are determined by the operand. -/
theorem readD_of_readV {s t : State} {r : DReg} {q : Bool} (h : t.readV r q = s.readV r q) {j : DReg}
    (hj : inOperand r q j) : t.readD j = s.readD j := by
  apply BitVec.eq_of_getLsbD_eq
  intro k hk
  rcases hj with rfl | ⟨rfl, rfl⟩
  · have := congrArg (fun x => x.getLsbD k) h
    cases q
    · simpa [State.readV, hk, show k < 128 by omega] using this
    · simpa only [State.readV, if_true, BitVec.getLsbD_append, hk, decide_true, cond_true] using this
  · have := congrArg (fun x => x.getLsbD (64 + k)) h
    simpa only [State.readV, if_true, BitVec.getLsbD_append, show ¬ (64 + k < 64) by omega, if_false, Nat.add_sub_cancel_left] using this

/-- An operand whose D registers are unchanged is unchanged. -/
theorem readV_of_readD {s t : State} {r : DReg} {q : Bool} (h : ∀ j, inOperand r q j → t.readD j = s.readD j) :
    t.readV r q = s.readV r q :=
  State.readV_congr fun j hj => h j (partOf_iff.mp hj)

/-- Two operands that hold what they held, everything else unchanged: every D register holds what it held. -/
theorem readD_of_operands {s u : State} {q : Bool} {a b : DReg} (h : ∀ j, ¬(inOperand a q j ∨ inOperand b q j) → u.readD j = s.readD j)
    (ha : u.readV a q = s.readV a q) (hb : u.readV b q = s.readV b q) (j : DReg) : u.readD j = s.readD j := by
  by_cases hj : inOperand a q j ∨ inOperand b q j
  · exact hj.elim (readD_of_readV ha) (readD_of_readV hb)
  · exact h j hj

theorem groupReg_eq (vd : DReg) (q : Bool) (k : Nat) : groupReg vd q k = groupMember vd q k := by
  apply BitVec.eq_of_toNat_eq
  cases q <;> simp [groupReg, groupMember, groupStride, Nat.add_mod]

theorem regsOk_iff {o : LS} {n : Nat} : o.regsOk n = true ↔ groupLegal o.vd o.q n := by
  simp only [LS.regsOk, groupLegal, Bool.and_eq_true, kindOk_iff, decide_eq_true_eq]
  cases o.q <;> simp [groupStride]

theorem bytes_eq (o : LS) (n : Nat) : o.bytes n = groupBytes o n := by
  cases hq : o.q <;> simp [LS.bytes, groupBytes, regBits, hq]

/-! Fault entry. -/

/-- Taking a fault is the fault entry of R296. -/
theorem faultEntered_takeFault (c : Cause) (inst addr : Word) (s : State) :
    faultEntered c.code inst addr s (s.takeFault c inst addr) :=
  ⟨rfl, rfl, rfl, rfl, rfl, rfl, ⟨fun _ _ => rfl, fun _ _ => rfl, fun _ _ => rfl⟩, rfl, rfl, rfl⟩

/-- The fault entry determines the state but for how memory is listed. -/
theorem faultEntered_faulted {code : BitVec 3} {inst addr : Word} {s t : State} (h : faultEntered code inst addr s t) :
    t.faulted = true ∧ t.pc = s.pc ∧ t.fcause = code := ⟨h.2.2.2.2.1, h.2.2.2.2.2.1, h.1⟩

/-! Completion. -/

/-- An operand written and `pc` advanced is a completion with that destination. -/
theorem completedD_writeV (s : State) (r : DReg) (q : Bool) (v : Vec) :
    completedD (inOperand r q) s (s.writeV r q v).advance := by
  refine ⟨by simp, ⟨by simp, by simp, by simp, by simp, by simp, by simp, by simp, by simp⟩, ?_, ?_, ?_⟩
  · intro j hj
    simpa using s.readD_writeV_of_not_partOf (partOf_eq_false_iff.mpr hj)
  · intro j _; simp
  · intro a _; simp

/-- Two operands written and `pc` advanced is a completion with those destinations. -/
theorem completedD_writeV_writeV (s : State) (a b : DReg) (q : Bool) (u v : Vec) :
    completedD (fun j => inOperand a q j ∨ inOperand b q j) s ((s.writeV a q u).writeV b q v).advance := by
  refine ⟨by simp, ⟨by simp, by simp, by simp, by simp, by simp, by simp, by simp, by simp⟩, ?_, ?_, ?_⟩
  · intro j hj
    rw [not_or] at hj
    simpa [State.readD_writeV_of_not_partOf _ (partOf_eq_false_iff.mpr hj.2)] using
      s.readD_writeV_of_not_partOf (partOf_eq_false_iff.mpr hj.1)
  · intro j _; simp
  · intro a _; simp

/-- The lanes of the destination after a template. -/
theorem lane_readV_advance_writeV (s : State) (r : DReg) (q : Bool) (sz : Sz) (f : Nat → BitVec sz.bits) {k : Nat}
    (hk : k < laneCount q sz) :
    lane sz.bits ((s.writeV r q (ofLanes sz.bits (laneCount q sz) f)).advance.readV r q) k = f k := by
  simpa using s.lane_readV_writeV r q sz f hk

/-- `completeIf` by its register condition. -/
theorem completeIf_spec {i : Instr} {s t : State} {ok : Bool} {legal : Prop} (hl : ok = true ↔ legal)
    (he : exec i s = completeIf ok (encode i) s t) :
    (legal → exec i s = .next t.advance) ∧ (¬legal → endsInFault i 2 0 s) := by
  constructor
  · intro h
    rw [he, completeIf_true (hl.mpr h)]
  · intro h
    have hf : ok = false := by rw [← Bool.not_eq_true]; exact fun hc => h (hl.mp hc)
    exact ⟨_, by rw [he, completeIf_false hf], faultEntered_takeFault .registerGroup _ _ _⟩

/-! The templates. -/

theorem rule2_of_lanewise2 {i : Instr} {sz : Sz} {q : Bool} {vd vm : DReg} {s : State} {ok : Bool}
    {g : BitVec sz.bits → BitVec sz.bits} {f : BitVec sz.bits → BitVec sz.bits → Prop}
    (hok : ok = true ↔ kindLegal q vd ∧ kindLegal q vm)
    (he : exec i s = lanewise2 (encode i) ok sz q vd vm g s) (hf : ∀ x, f x (g x)) : rule2 i sz q vd vm s f := by
  obtain ⟨h1, h2⟩ := completeIf_spec hok he
  refine ⟨fun h => ⟨_, h1 h, completedD_writeV s _ _ _, fun k hk => ?_⟩, h2⟩
  rw [lane_readV_advance_writeV s vd q sz _ hk]
  exact hf _

theorem V3.regsOk_iff {o : V3} :
    o.regsOk = true ↔ kindLegal o.q o.vd ∧ kindLegal o.q o.vn ∧ kindLegal o.q o.vm := by
  simp [Sys2Proof.V3.regsOk, kindOk_iff, and_assoc]

theorem V2.regsOk_iff {o : V2} : o.regsOk = true ↔ kindLegal o.q o.vd ∧ kindLegal o.q o.vm := by
  simp [Sys2Proof.V2.regsOk, kindOk_iff]

theorem V2.pairOk_iff {o : V2} : o.pairOk = true ↔ kindLegal o.q o.vd ∧ kindLegal o.q o.vm ∧ o.vd ≠ o.vm := by
  simp [Sys2Proof.V2.pairOk, V2.regsOk_iff, and_assoc]

theorem V2I.regsOk_iff {o : V2I} : o.regsOk = true ↔ kindLegal o.q o.vd ∧ kindLegal o.q o.vm := by
  simp [Sys2Proof.V2I.regsOk, kindOk_iff]

theorem V2R.regsOk_iff {o : V2R} : o.regsOk = true ↔ kindLegal o.q o.vd ∧ kindLegal o.q o.vm := by
  simp [Sys2Proof.V2R.regsOk, kindOk_iff]

theorem V2F.regsOk_iff {o : V2F} : o.regsOk = true ↔ kindLegal o.q o.vd ∧ kindLegal o.q o.vm := by
  simp [Sys2Proof.V2F.regsOk, kindOk_iff]

theorem V3L.regsOk_iff {o : V3L} : o.regsOk = true ↔ kindLegal o.q o.vd ∧ kindLegal o.q o.vn := by
  simp [Sys2Proof.V3L.regsOk, kindOk_iff]

theorem V3X.regsOk_iff {o : V3X} :
    o.regsOk = true ↔ kindLegal o.q o.vd ∧ kindLegal o.q o.vn ∧ kindLegal o.q o.vm := by
  simp [Sys2Proof.V3X.regsOk, kindOk_iff, and_assoc]

theorem V3B.regsOk_iff {o : V3B} :
    o.regsOk = true ↔ kindLegal o.q o.vd ∧ kindLegal o.q o.vn ∧ kindLegal o.q o.vm := by
  simp [Sys2Proof.V3B.regsOk, kindOk_iff, and_assoc]

theorem V2B.pairOk_iff {o : V2B} : o.pairOk = true ↔ kindLegal o.q o.vd ∧ kindLegal o.q o.vm ∧ o.vd ≠ o.vm := by
  simp [Sys2Proof.V2B.pairOk, kindOk_iff, and_assoc]

theorem rule3_of_lanewise3 {i : Instr} {o : V3} {s : State} {g : BitVec o.sz.bits → BitVec o.sz.bits → BitVec o.sz.bits}
    {f : BitVec o.sz.bits → BitVec o.sz.bits → BitVec o.sz.bits → BitVec o.sz.bits → Prop}
    (he : exec i s = lanewise3 (encode i) o g s) (hf : ∀ d x y, f d x y (g x y)) : rule3 i o s f := by
  obtain ⟨h1, h2⟩ := completeIf_spec V3.regsOk_iff he
  refine ⟨fun h => ⟨_, h1 h, completedD_writeV s _ _ _, fun k hk => ?_⟩, h2⟩
  rw [lane_readV_advance_writeV s o.vd o.q o.sz _ hk]
  exact hf _ _ _

theorem rule3_of_accumulate3 {i : Instr} {o : V3} {s : State}
    {g : BitVec o.sz.bits → BitVec o.sz.bits → BitVec o.sz.bits → BitVec o.sz.bits}
    {f : BitVec o.sz.bits → BitVec o.sz.bits → BitVec o.sz.bits → BitVec o.sz.bits → Prop}
    (he : exec i s = accumulate3 (encode i) o g s) (hf : ∀ d x y, f d x y (g d x y)) : rule3 i o s f := by
  obtain ⟨h1, h2⟩ := completeIf_spec V3.regsOk_iff he
  refine ⟨fun h => ⟨_, h1 h, completedD_writeV s _ _ _, fun k hk => ?_⟩, h2⟩
  rw [lane_readV_advance_writeV s o.vd o.q o.sz _ hk]
  exact hf _ _ _

theorem rulePairs_of_pairwise3 {i : Instr} {o : V3} {s : State}
    {g : BitVec o.sz.bits → BitVec o.sz.bits → BitVec o.sz.bits}
    {f : BitVec o.sz.bits → BitVec o.sz.bits → BitVec o.sz.bits → Prop} (hec : hasLanePairs o.q o.sz = true)
    (he : exec i s = pairwise3 (encode i) o g s) (hf : ∀ x y, f x y (g x y)) : rulePairs i o s f := by
  obtain ⟨h1, h2⟩ := completeIf_spec V3.regsOk_iff he
  have he2 : laneCount o.q o.sz = 2 * (laneCount o.q o.sz / 2) := by
    revert hec; cases o.q <;> cases o.sz <;> decide
  refine ⟨fun h => ⟨_, h1 h, completedD_writeV s _ _ _, fun k hk => ⟨?_, ?_⟩⟩, h2⟩
  · rw [lane_readV_advance_writeV s o.vd o.q o.sz _ (by omega), if_pos hk]
    exact hf _ _
  · rw [lane_readV_advance_writeV s o.vd o.q o.sz _ (by omega), if_neg (by omega), Nat.add_sub_cancel_left]
    exact hf _ _

theorem ruleByLane_of_byLane {i : Instr} {o : V3L} {s : State}
    {g : BitVec o.sz.bits → BitVec o.sz.bits → BitVec o.sz.bits}
    {f : BitVec o.sz.bits → BitVec o.sz.bits → BitVec o.sz.bits → Prop}
    (he : exec i s = byLane (encode i) o g s) (hf : ∀ x y, f x y (g x y)) : ruleByLane i o s f := by
  obtain ⟨h1, h2⟩ := completeIf_spec V3L.regsOk_iff he
  refine ⟨fun h => ⟨_, h1 h, completedD_writeV s _ _ _, fun k hk => ?_⟩, h2⟩
  rw [lane_readV_advance_writeV s o.vd o.q o.sz _ hk]
  exact hf _ _

/-- The wide lanes of a Q register written from its wide lanes. -/
theorem wideLane_readV_writeV (s : State) (r : DReg) {sz : Sz} (hn : sz.isNarrow = true)
    (f : Nat → BitVec (2 * sz.bits)) {k : Nat} (hk : k < 64 / sz.bits) :
    lane (2 * sz.bits) ((s.writeV r true (ofLanes (2 * sz.bits) (64 / sz.bits) f)).advance.readV r true) k = f k := by
  rw [State.advance_readV, State.readV_writeV, if_pos rfl]
  refine lane_ofLanes (by have := sz.bits_pos; omega) f hk ?_
  revert hn; cases sz <;> decide

theorem ruleWide_of_widening {i : Instr} {o : V3W} {s : State} (hn : o.sz.isNarrow = true)
    {g : BitVec (2 * o.sz.bits) → BitVec o.sz.bits → BitVec o.sz.bits → BitVec (2 * o.sz.bits)}
    {f : BitVec (2 * o.sz.bits) → BitVec o.sz.bits → BitVec o.sz.bits → BitVec (2 * o.sz.bits) → Prop}
    (he : exec i s = widening (encode i) o g s) (hf : ∀ d x y, f d x y (g d x y)) : ruleWide i o s f := by
  obtain ⟨h1, h2⟩ := completeIf_spec (legal := kindLegal true o.vd) (by simp [V3W.regsOk, kindOk_iff]) he
  refine ⟨fun h => ⟨_, h1 h, completedD_writeV s _ _ _, fun k hk => ?_⟩, h2⟩
  rw [wideLane_readV_writeV s o.vd hn _ hk]
  exact hf _ _ _

end Sys2Proof.Machine
end

