-- ==== Sys2Proof/Laws/Transfers.lean ====
section
/-! SUPPORT. What the shared load and store operations do, in the vocabulary of Safety.lean. -/

namespace Sys2Proof.Machine

/-! Writeback. -/

/-- The writeback value, as the unsigned number the base is moved to (R122). -/
theorem newBase_toNat (o : LS) (T : Nat) (s : State) :
    ((o.newBase T s).toNat : Int) = ((o.base s).toNat + writebackAmount o T s) % 2 ^ 32 := by
  obtain ⟨sz, q, vd, rn, wb⟩ := o
  have hb := (LS.base ⟨sz, q, vd, rn, wb⟩ s).isLt
  cases wb with
  | keep => simp only [LS.newBase, writebackAmount]; omega
  | postInc => simp only [LS.newBase, writebackAmount, BitVec.toNat_add, BitVec.toNat_ofNat]; omega
  | postAdd rm =>
    have hr := (s.readR rm).isLt
    simp only [LS.newBase, writebackAmount, BitVec.toNat_add, BitVec.toInt_eq_toNat_cond]
    split <;> omega
  | postDec => simp only [LS.newBase, writebackAmount, BitVec.toNat_sub, BitVec.toNat_ofNat]; omega

/-- After the writeback the base register holds the moved base. -/
theorem writtenBack_writeback {o : LS} {T : Nat} {s t : State} (h : ∀ j, t.readR j = s.readR j) :
    writtenBack o T s (o.writeback T s t).advance := by
  rw [writtenBack, State.advance_readR, LS.writeback_readR _ _ _ _ h, if_pos rfl]
  exact newBase_toNat o T s

/-- No other R register changes. -/
theorem readR_writeback_of_ne {o : LS} {T : Nat} {s t : State} (h : ∀ j, t.readR j = s.readR j) {j : RReg}
    (hj : j ≠ o.rn) : (o.writeback T s t).advance.readR j = s.readR j := by
  rw [State.advance_readR, LS.writeback_readR _ _ _ _ h, if_neg hj]

/-! Transfers. -/

/-- A legal transfer completes with its effect and the writeback. -/
theorem transfer_ok {inst : Word} {o : LS} {n T : Nat} {s : State} (t : State) (hg : groupLegal o.vd o.q n)
    (ht : transferLegal o T s) : transfer inst o n T s t = .next (o.writeback T s t).advance := by
  rw [transfer, if_pos (regsOk_iff.mpr hg), transferFault_eq_none.mpr ht]

/-- What stops a transfer, in the order of the fault codes (R299). -/
theorem ruleTransferFaults_of_transfer {i : Instr} {o : LS} {n T : Nat} {s t : State}
    (he : exec i s = transfer (encode i) o n T s t) : ruleTransferFaults i o n T s := by
  refine ⟨fun h => ?_, fun h ha => ?_, fun h ha hr => ?_⟩
  · have : o.regsOk n = false := by rw [← Bool.not_eq_true]; exact fun hc => h (regsOk_iff.mp hc)
    exact ⟨_, by simp [he, transfer, this, raise], faultEntered_takeFault .registerGroup _ _ _⟩
  · exact ⟨_, by simp [he, transfer, regsOk_iff.mpr h, transferFault_alignment ha, raise],
      faultEntered_takeFault .alignment _ _ _⟩
  · exact ⟨_, by simp [he, transfer, regsOk_iff.mpr h, transferFault_access ha hr, raise],
      faultEntered_takeFault .access _ _ _⟩

/-! Loads. -/

/-- Byte `b` of an element in memory. -/
theorem extractLsb'_readElem (m : List Host.Cell) (a : Nat) (sz : Sz) {b : Nat} (hb : b < sz.bytes) :
    (Memory.readElem m a sz.bits).extractLsb' (8 * b) 8 = Memory.read m (a + b) := by
  apply BitVec.eq_of_getLsbD_eq
  intro k hk
  have h1 : 8 * b + k < sz.bits := by rw [sz.bits_eq]; omega
  have h2 : (8 * b + k) / 8 = b := by omega
  have h3 : (8 * b + k) % 8 = k := by omega
  simp only [BitVec.getLsbD_extractLsb', Memory.getLsbD_readElem, h1, h2, h3, hk, decide_true, Bool.true_and]

theorem inGroup_of_partOf {o : LS} {n k : Nat} (hk : k < n) {j : DReg} (h : partOf (groupReg o.vd o.q k) o.q j = true) :
    inGroup o.vd o.q n j := ⟨k, hk, by rw [← groupReg_eq]; exact partOf_iff.mp h⟩

/-- The structured load of a group. -/
theorem ruleLoad_of_loadGroup {i : Instr} {o : LS} {n : Nat} {s : State} (he : exec i s = loadGroup (encode i) o n s) :
    ruleLoad i o n s := by
  intro hg ht
  rw [he, loadGroup, bytes_eq, transfer_ok _ hg ht]
  refine ⟨_, rfl, ⟨⟨by simp, ⟨by simp, by simp, by simp, by simp, by simp, by simp, by simp, by simp⟩, ?_, ?_, ?_⟩,
    writtenBack_writeback (by simp)⟩, ?_⟩
  · intro j hj
    rw [State.advance_readD, LS.writeback_readD, State.readD_writeGroup_of_not_partOf]
    intro k hk
    rw [← Bool.not_eq_true]
    exact fun hc => hj (inGroup_of_partOf hk hc)
  · intro j hj
    exact readR_writeback_of_ne (by simp) hj
  · intro a _; simp
  · intro m k b hm hk hb
    rw [State.advance_readV, LS.writeback_readV, ← groupReg_eq, State.readV_writeGroup _ (regsOk_iff.mpr hg) _ hm,
      lane_low o.sz _ hk, lane_ofLanes o.sz.bits_pos _ hk (bits_mul_laneCount_le o.q o.sz), extractLsb'_readElem _ _ _ hb]
    rfl

/-! Stores. -/

theorem groupBytes_eq (o : LS) (n : Nat) : groupBytes o n = n * laneCount o.q o.sz * (o.sz.bits / 8) := by
  rcases o with ⟨sz, q, vd, rn, wb⟩
  cases q <;> cases sz <;> simp [groupBytes, laneCount, regBits, Sz.bits] <;> omega

/-- Byte `b` of a lane, as a store lays it out. -/
theorem lane_setWidth {w : Nat} (hw : w ≤ 128) (x : BitVec w) (b : Nat) :
    lane 8 (x.setWidth 128) b = x.extractLsb' (8 * b) 8 := by
  apply BitVec.eq_of_getLsbD_eq
  intro k hk
  rw [getLsbD_lane, BitVec.getLsbD_setWidth, BitVec.getLsbD_extractLsb']
  by_cases h : 8 * b + k < 128
  · simp [hk, h]
  · simp [hk, h, BitVec.getLsbD_of_ge x (8 * b + k) (by omega)]

/-- The structured store of a group. -/
theorem ruleStore_of_storeGroup {i : Instr} {o : LS} {n : Nat} {s : State} (he : exec i s = storeGroup (encode i) o n s) :
    ruleStore i o n s := by
  intro hg ht
  have hB : o.sz.bits / 8 = o.sz.bytes := by cases o.sz <;> rfl
  have hp := o.sz.bytes_pos
  have hw : 0 < o.sz.bits / 8 := by omega
  rw [he, storeGroup, bytes_eq, transfer_ok _ hg ht]
  refine ⟨_, rfl, ⟨⟨by simp, ⟨by simp, by simp, by simp, by simp, by simp, by simp, by simp, by simp⟩, ?_, ?_, ?_⟩,
    writtenBack_writeback (by simp)⟩, ?_⟩
  · intro j _; simp
  · intro j hj
    exact readR_writeback_of_ne (by simp) hj
  · intro a ha
    rw [groupBytes_eq] at ha
    rw [State.advance_readMem, LS.writeback_readMem, State.readMem, State.setMem_mem,
      Memory.read_writeElems _ _ _ _ hw, if_neg ha]
    rfl
  · intro m k b hm hk hb
    have he' : (k * n + m) * o.sz.bytes + b < n * laneCount o.q o.sz * o.sz.bytes := by
      have h1 : k * n + m + 1 ≤ n * laneCount o.q o.sz := by
        have : (k + 1) * n ≤ laneCount o.q o.sz * n := Nat.mul_le_mul_right _ hk
        rw [Nat.succ_mul] at this
        rw [Nat.mul_comm n]; omega
      have := Nat.mul_le_mul_right o.sz.bytes h1
      rw [Nat.succ_mul] at this
      omega
    have hd : ((k * n + m) * o.sz.bytes + b) / o.sz.bytes = k * n + m := by
      rw [Nat.mul_comm, Nat.mul_add_div hp, Nat.div_eq_of_lt hb, Nat.add_zero]
    have hm' : ((k * n + m) * o.sz.bytes + b) % o.sz.bytes = b := by
      rw [Nat.mul_comm, Nat.mul_add_mod, Nat.mod_eq_of_lt hb]
    have hq : (k * n + m) / n = k := by
      rw [Nat.mul_comm, Nat.mul_add_div (by omega), Nat.div_eq_of_lt hm, Nat.add_zero]
    have hr : (k * n + m) % n = m := by rw [Nat.mul_comm, Nat.mul_add_mod, Nat.mod_eq_of_lt hm]
    have hle : o.sz.bits ≤ 128 := by cases o.sz <;> decide
    have hcond : (o.base s).toNat ≤ (o.base s).toNat + (k * n + m) * o.sz.bytes + b ∧
        (o.base s).toNat + (k * n + m) * o.sz.bytes + b <
          (o.base s).toNat + n * laneCount o.q o.sz * (o.sz.bits / 8) := by
      rw [hB]; constructor <;> omega
    rw [State.advance_readMem, LS.writeback_readMem, State.readMem, State.setMem_mem,
      Memory.read_writeElems _ _ _ _ hw, if_pos hcond]
    have hs : (o.base s).toNat + (k * n + m) * o.sz.bytes + b - (o.base s).toNat = (k * n + m) * o.sz.bytes + b := by
      omega
    rw [hs, hB, hd, hm', hq, hr, lane_setWidth hle, groupReg_eq]

/-! A transfer after another. -/

theorem groupBytes_congr {o p : LS} (h : p.q = o.q) (n : Nat) : groupBytes p n = groupBytes o n := by simp [groupBytes, h]

/-- After a transfer another one finds its base register as before, unless the writeback moved it. -/
theorem base_of_writtenBack {o p : LS} {T : Nat} {s t : State} (hr : ∀ j, j ≠ o.rn → t.readR j = s.readR j)
    (hw : writtenBack o T s t) (h : o.wb = .keep ∨ p.rn ≠ o.rn) : p.base t = p.base s := by
  rcases h with h | h
  · by_cases hj : p.rn = o.rn
    · have := (o.base s).isLt
      apply BitVec.eq_of_toNat_eq
      simp only [writtenBack, writebackAmount, h] at hw
      simp only [LS.base, hj] at *
      omega
    · exact hr _ hj
  · exact hr _ h

/-- Every byte of a transfer is a byte of a lane of a register of the group. -/
theorem split_offset (o : LS) {n b : Nat} (hn : 0 < n) (hb : b < groupBytes o n) :
    ∃ m k c, m < n ∧ k < laneCount o.q o.sz ∧ c < o.sz.bytes ∧ b = (k * n + m) * o.sz.bytes + c := by
  have hp := o.sz.bytes_pos
  have hB : o.sz.bits / 8 = o.sz.bytes := by cases o.sz <;> rfl
  rw [groupBytes_eq, hB] at hb
  have he : b / o.sz.bytes < n * laneCount o.q o.sz := by rw [Nat.div_lt_iff_lt_mul hp]; exact hb
  refine ⟨(b / o.sz.bytes) % n, (b / o.sz.bytes) / n, b % o.sz.bytes, Nat.mod_lt _ hn, ?_, Nat.mod_lt _ hp, ?_⟩
  · rw [Nat.div_lt_iff_lt_mul hn, Nat.mul_comm]; exact he
  · have h1 := Nat.div_add_mod (b / o.sz.bytes) n
    have h2 := Nat.div_add_mod b o.sz.bytes
    rw [Nat.mul_comm n] at h1; rw [h1, Nat.mul_comm]; exact h2.symm

/-- Lanes with the same bytes are equal. -/
theorem lane_ext_bytes (sz : Sz) {x y : BitVec sz.bits}
    (h : ∀ c, c < sz.bytes → x.extractLsb' (8 * c) 8 = y.extractLsb' (8 * c) 8) : x = y := by
  apply BitVec.eq_of_getLsbD_eq
  intro k hk
  have hb := sz.bits_eq
  have := congrArg (fun z => z.getLsbD (k % 8)) (h (k / 8) (by omega))
  have h8 : k % 8 < 8 := by omega
  simpa [BitVec.getLsbD_extractLsb', h8, Nat.div_add_mod] using this

end Sys2Proof.Machine
end

