-- ==== Sys2Proof/Machine/Reference.lean ====
section
/-! DEFINITION. The reference instantiations of the open functions (45_conversion_misc.md R274, R277), given "for a model
that wants concrete functions". No meaning calls them and no statement rests on them unless it names them
(assumption log 19). -/

namespace Sys2Proof.Machine

/-- Reference `CVT_FIX2FLT` (R274): round to nearest, ties to even. A carry out of the significand moves into the
exponent by the addition. -/
def refFixToFloat (x : Word) (fbits : Nat) : Word :=
  let mag := x.toInt.natAbs
  let l := mag.log2
  let unit := 2 ^ (l - 23)
  let q := mag * 2 ^ (23 - l) / unit
  let up := unit < 2 * (mag % unit) ∨ (unit = 2 * (mag % unit) ∧ q % 2 = 1)
  let rounded := if up then q + 1 else q
  if mag = 0 then 0
  else BitVec.ofNat 32 ((if x.toInt < 0 then 2 ^ 31 else 0) + (l + 127 - fbits) * 2 ^ 23 + (rounded - 2 ^ 23))

/-- Reference `CVT_FLT2FIX` (R274): exact scaling, rounded toward zero, saturated; infinities to the limits, NaN to 0. -/
def refFloatToFix (f : Word) (fbits : Nat) : Word :=
  let e := (f.extractLsb' 23 8).toNat
  let frac := (f.extractLsb' 0 23).toNat
  let significand := if e = 0 then frac else frac + 2 ^ 23
  let scale := (if e = 0 then 1 else e) + fbits
  let mag := if 150 ≤ scale then significand * 2 ^ (scale - 150) else significand / 2 ^ (150 - scale)
  if e = 255 then (if frac ≠ 0 then 0 else if f.msb then wrap 32 (minInt 32) else wrap 32 (maxInt 32))
  else sat 32 (if f.msb then -(mag : Int) else mag)

/-- The integer square root of `v`, found bit by bit from bit `n - 1` down, given the bits above in `acc`. -/
def isqrtFrom (v : Nat) : Nat → Nat → Nat
  | 0, acc => acc
  | n + 1, acc => if (acc + 2 ^ n) * (acc + 2 ^ n) ≤ v then isqrtFrom v n (acc + 2 ^ n) else isqrtFrom v n acc

/-- Reference `SQRT_FN` (R277): `floor(sqrt(x * 2^31))`, Q1.31 to Q1.31. -/
def refSqrt (x : BitVec 31) : Word := BitVec.ofNat 32 (isqrtFrom (x.toNat * 2 ^ 31) 31 0)

end Sys2Proof.Machine
end

