-- ==== Sys2Proof/Tests/Slice0.lean ====
section
/-! SUPPORT. The model's own tests: ill-formed terms that WellFormed refuses, a word written out for every constructor, one
or two steps per instruction with the results of the spec's test vectors (95_, 96_ and 97_ files), the faults, the
reference functions, and a witness for the hypotheses of every statement. -/

namespace Sys2Proof.Tests

open Sys2Proof Sys2Proof.Machine

/-! WellFormed smoke: one ill-formed term per check. -/

theorem test_wf_pairs : (Instr.vpadd { sz := .s64, q := false, vd := 0, vn := 1, vm := 2 }).wellFormed = false := by decide
theorem test_wf_zip : (Instr.vzip { sz := .s64, q := false, vd := 0, vm := 1 }).wellFormed = false := by decide
theorem test_wf_narrow : (Instr.vmull { sz := .s64, vd := 0, vn := 2, vm := 3 }).wellFormed = false := by decide
theorem test_wf_fractional : (Instr.vqdmulh { sz := .s8, q := false, vd := 0, vn := 1, vm := 2 }).wellFormed = false := by
  decide
theorem test_wf_vqshl_left : (Instr.vqshl { sz := .s16, q := false, vd := 0, vm := 1, imm := 16 }).wellFormed = false := by
  decide
theorem test_wf_vqshl_right : (Instr.vqshl { sz := .s16, q := false, vd := 0, vm := 1, imm := 0xEF }).wellFormed = false := by
  decide
theorem test_wf_vrshr : (Instr.vrshr { sz := .s32, q := false, vd := 0, vm := 1, imm := 0 }).wellFormed = false := by decide
theorem test_wf_vqrshrn : (Instr.vqrshrn { sz := .s16, vd := 0, vm := 2, n := 33 }).wellFormed = false := by decide
theorem test_wf_vrev_group : (Instr.vrev { sz := .s16, q := false, vd := 0, vm := 1, imm := 3 }).wellFormed = false := by
  decide
theorem test_wf_vrev_lanes : (Instr.vrev { sz := .s32, q := false, vd := 0, vm := 1, imm := 4 }).wellFormed = false := by
  decide
theorem test_wf_vext : (Instr.vext { sz := .s16, q := false, vd := 0, vn := 1, vm := 2, k := 5 }).wellFormed = false := by
  decide
theorem test_wf_vdup : (Instr.vdup { sz := .s32, q := true, vd := 0, vm := 1, imm := 2 }).wellFormed = false := by decide
theorem test_wf_lane :
    (Instr.vqdmulhLane { sz := .s32, q := true, vd := 0, vn := 2, vm := 4, idx := 2 }).wellFormed = false := by decide
theorem test_wf_fbits : (Instr.vcvtF32S32 { q := false, vd := 0, vm := 1, fbits := 33 }).wellFormed = false := by decide

/-! Decoding: for every constructor a word of 97_test_vectors_derived_b.md section 4. -/

theorem test_decode_vld1 :
    decode 0x05000000 = .ok (.vld1 { sz := .s16, q := false, vd := 0, rn := 0, wb := .keep }) := by
  rfl
theorem test_decode_vld2 :
    decode 0x06800040 = .ok (.vld2 { sz := .s32, q := true, vd := 0, rn := 0, wb := .keep }) := by
  rfl
theorem test_decode_vld3 :
    decode 0x05000080 = .ok (.vld3 { sz := .s16, q := false, vd := 0, rn := 0, wb := .keep }) := by
  rfl
theorem test_decode_vld4 :
    decode 0x040000C0 = .ok (.vld4 { sz := .s8, q := false, vd := 0, rn := 0, wb := .keep }) := by
  rfl
theorem test_decode_vst1 :
    decode 0x0A000000 = .ok (.vst1 { sz := .s32, q := false, vd := 0, rn := 0, wb := .keep }) := by
  rfl
theorem test_decode_vst2 :
    decode 0x0A804040 = .ok (.vst2 { sz := .s32, q := true, vd := 0, rn := 1, wb := .keep }) := by
  rfl
theorem test_decode_vst3 :
    decode 0x09004080 = .ok (.vst3 { sz := .s16, q := false, vd := 0, rn := 1, wb := .keep }) := by
  rfl
theorem test_decode_vst4 :
    decode 0x080040C0 = .ok (.vst4 { sz := .s8, q := false, vd := 0, rn := 1, wb := .keep }) := by
  rfl
theorem test_decode_vlddup :
    decode 0x0D105000 = .ok (.vlddup { sz := .s16, q := false, vd := 4, rn := 1, wb := .postInc }) := by
  rfl
theorem test_decode_vadd :
    decode 0x20002200 = .ok (.vadd { sz := .s8, q := false, vd := 0, vn := 1, vm := 2 }) := by
  rfl
theorem test_decode_vsub :
    decode 0x25002200 = .ok (.vsub { sz := .s16, q := false, vd := 0, vn := 1, vm := 2 }) := by
  rfl
theorem test_decode_vqadd :
    decode 0x2A002200 = .ok (.vqadd { sz := .s32, q := false, vd := 0, vn := 1, vm := 2 }) := by
  rfl
theorem test_decode_vqsub :
    decode 0x2E804400 = .ok (.vqsub { sz := .s32, q := true, vd := 0, vn := 2, vm := 4 }) := by
  rfl
theorem test_decode_vneg :
    decode 0x31000100 = .ok (.vneg { sz := .s16, q := false, vd := 0, vm := 1 }) := by
  rfl
theorem test_decode_vabs :
    decode 0x34000100 = .ok (.vabs { sz := .s8, q := false, vd := 0, vm := 1 }) := by
  rfl
theorem test_decode_vqneg :
    decode 0x39000100 = .ok (.vqneg { sz := .s16, q := false, vd := 0, vm := 1 }) := by
  rfl
theorem test_decode_vqabs :
    decode 0x3C000100 = .ok (.vqabs { sz := .s8, q := false, vd := 0, vm := 1 }) := by
  rfl
theorem test_decode_vqshl :
    decode 0x4280021F = .ok (.vqshl { sz := .s32, q := true, vd := 0, vm := 2, imm := 31 }) := by
  rfl
theorem test_decode_vqshlr :
    decode 0x4500A100 = .ok (.vqshlr { sz := .s16, q := false, vd := 0, vm := 1, rs := 5 }) := by
  rfl
theorem test_decode_vrshr :
    decode 0x4A800201 = .ok (.vrshr { sz := .s32, q := true, vd := 0, vm := 2, imm := 1 }) := by
  rfl
theorem test_decode_vmin :
    decode 0x4C002200 = .ok (.vmin { sz := .s8, q := false, vd := 0, vn := 1, vm := 2 }) := by
  rfl
theorem test_decode_vmax :
    decode 0x50002200 = .ok (.vmax { sz := .s8, q := false, vd := 0, vn := 1, vm := 2 }) := by
  rfl
theorem test_decode_vpadd :
    decode 0x55002200 = .ok (.vpadd { sz := .s16, q := false, vd := 0, vn := 1, vm := 2 }) := by
  rfl
theorem test_decode_vpmax :
    decode 0x59002200 = .ok (.vpmax { sz := .s16, q := false, vd := 0, vn := 1, vm := 2 }) := by
  rfl
theorem test_decode_vpmin :
    decode 0x5D002200 = .ok (.vpmin { sz := .s16, q := false, vd := 0, vn := 1, vm := 2 }) := by
  rfl
theorem test_decode_vmul :
    decode 0x61002200 = .ok (.vmul { sz := .s16, q := false, vd := 0, vn := 1, vm := 2 }) := by
  rfl
theorem test_decode_vmla :
    decode 0x66002200 = .ok (.vmla { sz := .s32, q := false, vd := 0, vn := 1, vm := 2 }) := by
  rfl
theorem test_decode_vmls :
    decode 0x6A002200 = .ok (.vmls { sz := .s32, q := false, vd := 0, vn := 1, vm := 2 }) := by
  rfl
theorem test_decode_vmull :
    decode 0x6D004300 = .ok (.vmull { sz := .s16, vd := 0, vn := 2, vm := 3 }) := by
  rfl
theorem test_decode_vmlal :
    decode 0x71004300 = .ok (.vmlal { sz := .s16, vd := 0, vn := 2, vm := 3 }) := by
  rfl
theorem test_decode_vmlsl :
    decode 0x75004300 = .ok (.vmlsl { sz := .s16, vd := 0, vn := 2, vm := 3 }) := by
  rfl
theorem test_decode_vqdmulh :
    decode 0x7A002200 = .ok (.vqdmulh { sz := .s32, q := false, vd := 0, vn := 1, vm := 2 }) := by
  rfl
theorem test_decode_vqrdmulh :
    decode 0x7E804400 = .ok (.vqrdmulh { sz := .s32, q := true, vd := 0, vn := 2, vm := 4 }) := by
  rfl
theorem test_decode_vqdmulhLane :
    decode 0x82804401 = .ok (.vqdmulhLane { sz := .s32, q := true, vd := 0, vn := 2, vm := 4, idx := 1 }) := by
  rfl
theorem test_decode_vqrdmulhLane :
    decode 0x86804401 = .ok (.vqrdmulhLane { sz := .s32, q := true, vd := 0, vn := 2, vm := 4, idx := 1 }) := by
  rfl
theorem test_decode_vrev :
    decode 0x91000104 = .ok (.vrev { sz := .s16, q := false, vd := 0, vm := 1, imm := 4 }) := by
  rfl
theorem test_decode_vzip :
    decode 0x95000100 = .ok (.vzip { sz := .s16, q := false, vd := 0, vm := 1 }) := by
  rfl
theorem test_decode_vuzp :
    decode 0x99000100 = .ok (.vuzp { sz := .s16, q := false, vd := 0, vm := 1 }) := by
  rfl
theorem test_decode_vtrn :
    decode 0x9D000100 = .ok (.vtrn { sz := .s16, q := false, vd := 0, vm := 1 }) := by
  rfl
theorem test_decode_vext :
    decode 0xA1002200 = .ok (.vext { sz := .s16, q := false, vd := 0, vn := 1, vm := 2, k := 0 }) := by
  rfl
theorem test_decode_vdup :
    decode 0xA6800301 = .ok (.vdup { sz := .s32, q := true, vd := 0, vm := 3, imm := 1 }) := by
  rfl
theorem test_decode_vswp :
    decode 0xA8000100 = .ok (.vswp { q := false, vd := 0, vm := 1 }) := by
  rfl
theorem test_decode_vcge :
    decode 0xB1002200 = .ok (.vcge { sz := .s16, q := false, vd := 0, vn := 1, vm := 2 }) := by
  rfl
theorem test_decode_vcgt :
    decode 0xB6002200 = .ok (.vcgt { sz := .s32, q := false, vd := 0, vn := 1, vm := 2 }) := by
  rfl
theorem test_decode_vceq :
    decode 0xB8002200 = .ok (.vceq { sz := .s8, q := false, vd := 0, vn := 1, vm := 2 }) := by
  rfl
theorem test_decode_vcgez :
    decode 0xBD000100 = .ok (.vcgez { sz := .s16, q := false, vd := 0, vm := 1 }) := by
  rfl
theorem test_decode_vcgtz :
    decode 0xC1000100 = .ok (.vcgtz { sz := .s16, q := false, vd := 0, vm := 1 }) := by
  rfl
theorem test_decode_vceqz :
    decode 0xC4000100 = .ok (.vceqz { sz := .s8, q := false, vd := 0, vm := 1 }) := by
  rfl
theorem test_decode_vtst :
    decode 0xC8002200 = .ok (.vtst { sz := .s8, q := false, vd := 0, vn := 1, vm := 2 }) := by
  rfl
theorem test_decode_vbit :
    decode 0xCC002200 = .ok (.vbit { q := false, vd := 0, vn := 1, vm := 2 }) := by
  rfl
theorem test_decode_vclz :
    decode 0xD2800200 = .ok (.vclz { sz := .s32, q := true, vd := 0, vm := 2 }) := by
  rfl
theorem test_decode_vcls :
    decode 0xD6000100 = .ok (.vcls { sz := .s32, q := false, vd := 0, vm := 1 }) := by
  rfl
theorem test_decode_vqrshrn :
    decode 0xD900020F = .ok (.vqrshrn { sz := .s16, vd := 0, vm := 2, n := 15 }) := by
  rfl
theorem test_decode_vcvtF32S32 :
    decode 0xDE00011F = .ok (.vcvtF32S32 { q := false, vd := 0, vm := 1, fbits := 31 }) := by
  rfl
theorem test_decode_vcvtS32F32 :
    decode 0xE200011F = .ok (.vcvtS32F32 { q := false, vd := 0, vm := 1, fbits := 31 }) := by
  rfl
theorem test_decode_vsqrt :
    decode 0xE6000100 = .ok (.vsqrt { vd := 0, vm := 1, di := false, mi := false }) := by
  rfl

/-! Words written out field by field from R84, with every operand field in use. -/

theorem test_fields_ls :
    decode (0x02#6 ++ 1#2 ++ 1#1 ++ 24#5 ++ 9#4 ++ 2#2 ++ 13#4 ++ 3#2 ++ 0#6) =
      .ok (.vst4 { sz := .s16, q := true, vd := 24, rn := 9, wb := .postAdd 13 }) := by rfl
theorem test_fields_v3 :
    decode (0x1A#6 ++ 3#2 ++ 0#1 ++ 17#5 ++ 30#5 ++ 9#5 ++ 0#8) =
      .ok (.vmls { sz := .s64, q := false, vd := 17, vn := 30, vm := 9 }) := by rfl
theorem test_fields_v3l :
    decode (0x21#6 ++ 1#2 ++ 1#1 ++ 6#5 ++ 28#5 ++ 31#5 ++ 3#8) =
      .ok (.vqrdmulhLane { sz := .s16, q := true, vd := 6, vn := 28, vm := 31, idx := 3 }) := by rfl
theorem test_fields_v3x :
    decode (0x28#6 ++ 0#2 ++ 1#1 ++ 2#5 ++ 20#5 ++ 10#5 ++ 16#8) =
      .ok (.vext { sz := .s8, q := true, vd := 2, vn := 20, vm := 10, k := 16 }) := by rfl
theorem test_fields_v3b :
    decode (0x33#6 ++ 0#2 ++ 0#1 ++ 21#5 ++ 11#5 ++ 13#5 ++ 0#8) = .ok (.vbit { q := false, vd := 21, vn := 11, vm := 13 }) := by
  rfl
theorem test_fields_v2s :
    decode (0x39#6 ++ 2#2 ++ 0#1 ++ 19#5 ++ 0#5 ++ 7#5 ++ 0#6 ++ 1#1 ++ 0#1) =
      .ok (.vsqrt { vd := 19, vm := 7, di := true, mi := false }) := by rfl
theorem test_fields_v2r :
    decode (0x11#6 ++ 0#2 ++ 1#1 ++ 22#5 ++ 0#1 ++ 14#4 ++ 12#5 ++ 0#8) =
      .ok (.vqshlr { sz := .s8, q := true, vd := 22, vm := 12, rs := 14 }) := by rfl

/-! One step. -/

/-- A register or a run of memory bytes with its value. -/
inductive Item where
  | d (i : DReg) (v : DWord)
  | r (i : RReg) (v : Word)
  | m (a : Nat) (bytes : List Byte)

/-- The state with the item's value in it. -/
def put (s : State) : Item → State
  | .d i v => s.writeD i v
  | .r i v => s.writeR i v
  | .m a bytes => s.setMem (Memory.writeBytes s.mem a bytes.length fun k => bytes.getD k 0)

/-- The state holds the item's value. -/
def holds (s : State) : Item → Bool
  | .d i v => s.readD i == v
  | .r i v => s.readR i == v
  | .m a bytes => (List.range bytes.length).all fun k => s.readMem (a + k) == bytes.getD k 0

/-- Reset with `pc = 7` and the given values. -/
def start (pre : List Item) : State := pre.foldl put { State.reset with pc := 7 }

/-- The word, issued to that state, completes with the given values. -/
def gives (w : Nat) (pre post : List Item) : Bool :=
  match step ((start pre).withFetchWord 32 w) with
  | .next t => t.pc == 8 && !t.faulted && t.host.isEmpty && post.all (holds t)
  | _ => false

/-- The word, issued to that state, faults with the given cause and address, and changes none of the given values. -/
def faults (w : Nat) (pre : List Item) (cause : BitVec 3) (addr : Word) : Bool :=
  match step ((start pre).withFetchWord 32 w) with
  | .next t => t.faulted && t.fcause == cause && t.faddr == addr && t.fpc == 7 && t.pc == 7 &&
      t.finst == BitVec.ofNat 32 w && pre.all (holds t)
  | _ => false

/-- T40.1: `VLD1.16 {D0}, [R0]`. -/
theorem test_vld1 :
    gives 0x05000000 [.r 0 0x00000100, .m 0x100 [0x01, 0x02, 0x03, 0x04, 0x05, 0x06, 0x07, 0x08]]
      [.d 0 0x0807060504030201] = true := by decide

/-- TS.1: `VLD2.32 {Q0, Q1}, [R0]`. -/
theorem test_vld2 :
    gives 0x06800040 [.r 0 0x00000100, .m 0x100 [0x01, 0x00, 0x00, 0x00, 0x02, 0x00, 0x00, 0x00, 0x03, 0x00, 0x00,
        0x00, 0x04, 0x00, 0x00, 0x00, 0x05, 0x00, 0x00, 0x00, 0x06, 0x00, 0x00, 0x00, 0x07, 0x00, 0x00, 0x00, 0x08,
        0x00, 0x00, 0x00]]
      [.d 0 0x0000000300000001, .d 1 0x0000000700000005, .d 2 0x0000000400000002,
        .d 3 0x0000000800000006] = true := by decide

/-- TS.18: `VLD3.16 {D0, D1, D2}, [R0]`. -/
theorem test_vld3 :
    gives 0x05000080 [.r 0 0x00000100, .m 0x100 [0x00, 0x10, 0x11, 0x11, 0x22, 0x12, 0x33, 0x13, 0x44, 0x14, 0x55,
        0x15, 0x66, 0x16, 0x77, 0x17, 0x88, 0x18, 0x99, 0x19, 0xAA, 0x1A, 0xBB, 0x1B]]
      [.d 0 0x1999166613331000, .d 1 0x1AAA177714441111, .d 2 0x1BBB188815551222] = true := by decide

/-- TS.20: `VLD4.8 {D0, D1, D2, D3}, [R0]`. -/
theorem test_vld4 :
    gives 0x040000C0 [.r 0 0x00000100, .m 0x100 [0x11, 0x22, 0x33, 0x44, 0x55, 0x66, 0x77, 0x88, 0x99, 0xAA, 0xBB,
        0xCC, 0xDD, 0xEE, 0xFF, 0x10, 0x21, 0x32, 0x43, 0x54, 0x65, 0x76, 0x87, 0x98, 0xA9, 0xBA, 0xCB, 0xDC, 0xED,
        0xFE, 0x0F, 0x20]]
      [.d 0 0xEDA96521DD995511, .d 1 0xFEBA7632EEAA6622, .d 2 0x0FCB8743FFBB7733,
        .d 3 0x20DC985410CC8844] = true := by decide

/-- T40.9: `VST1.32 {D0}, [R0]`. -/
theorem test_vst1 :
    gives 0x0A000000 [.r 0 0x00000100, .d 0 0x0807060504030201]
      [.m 0x100 [0x01, 0x02, 0x03, 0x04, 0x05, 0x06, 0x07, 0x08]] = true := by decide

/-- TS.17: `VST2.32 {Q0, Q1}, [R1]`. -/
theorem test_vst2 :
    gives 0x0A804040 [.r 1 0x00000200, .d 0 0xA2020202A0000000, .d 1 0xA6060606A4040404, .d 2 0xA3030303A1010101,
        .d 3 0xA7070707A5050505]
      [.m 0x200 [0x00, 0x00, 0x00, 0xA0, 0x01, 0x01, 0x01, 0xA1, 0x02, 0x02, 0x02, 0xA2, 0x03, 0x03, 0x03, 0xA3,
        0x04, 0x04, 0x04, 0xA4, 0x05, 0x05, 0x05, 0xA5, 0x06, 0x06, 0x06, 0xA6, 0x07, 0x07, 0x07,
        0xA7]] = true := by decide

/-- TS.19: `VST3.16 {D0, D1, D2}, [R1]`. -/
theorem test_vst3 :
    gives 0x09004080 [.r 1 0x00000200, .d 0 0x1999166613331000, .d 1 0x1AAA177714441111, .d 2 0x1BBB188815551222]
      [.m 0x200 [0x00, 0x10, 0x11, 0x11, 0x22, 0x12, 0x33, 0x13, 0x44, 0x14, 0x55, 0x15, 0x66, 0x16, 0x77, 0x17,
        0x88, 0x18, 0x99, 0x19, 0xAA, 0x1A, 0xBB, 0x1B]] = true := by decide

/-- TS.21: `VST4.8 {D0, D1, D2, D3}, [R1]`. -/
theorem test_vst4 :
    gives 0x080040C0 [.r 1 0x00000200, .d 0 0xEDA96521DD995511, .d 1 0xFEBA7632EEAA6622, .d 2 0x0FCB8743FFBB7733,
        .d 3 0x20DC985410CC8844]
      [.m 0x200 [0x11, 0x22, 0x33, 0x44, 0x55, 0x66, 0x77, 0x88, 0x99, 0xAA, 0xBB, 0xCC, 0xDD, 0xEE, 0xFF, 0x10,
        0x21, 0x32, 0x43, 0x54, 0x65, 0x76, 0x87, 0x98, 0xA9, 0xBA, 0xCB, 0xDC, 0xED, 0xFE, 0x0F,
        0x20]] = true := by decide

/-- T40.13: `VLDDUP.16 D4, [R1]+`. -/
theorem test_vlddup :
    gives 0x0D105000 [.r 1 0x00000206, .m 0x206 [0x00, 0x40]]
      [.d 4 0x4000400040004000, .r 1 0x00000208] = true := by decide

/-- T41.1: `VADD.8 D0, D1, D2`. -/
theorem test_vadd :
    gives 0x20002200 [.d 1 0x7FFE10000180FF7F, .d 2 0x7FFE2000FF800101]
      [.d 0 0xFEFC300000000080] = true := by decide

/-- T41.4: `VSUB.16 D0, D1, D2`. -/
theorem test_vsub :
    gives 0x25002200 [.d 1 0x7FFF000500008000, .d 2 0xFFFF000500010001]
      [.d 0 0x80000000FFFF7FFF] = true := by decide

/-- TS.2: `VQADD.32 D0, D1, D2`. -/
theorem test_vqadd :
    gives 0x2A002200 [.d 1 0x7FFFFFFF7FFFFFFF, .d 2 0x0000000100000001]
      [.d 0 0x7FFFFFFF7FFFFFFF] = true := by decide

/-- TS.7: `VQSUB.32 Q0, Q1, Q2`. -/
theorem test_vqsub :
    gives 0x2E804400 [.d 2 0x7FFFFFFF80000000, .d 3 0xFFFFFFFF00000000, .d 4 0xFFFFFFFF00000001,
        .d 5 0x8000000080000000]
      [.d 0 0x7FFFFFFF80000000, .d 1 0x7FFFFFFF7FFFFFFF] = true := by decide

/-- T41.10: `VNEG.16 D0, D1`. -/
theorem test_vneg :
    gives 0x31000100 [.d 1 0xFFFF000080000001]
      [.d 0 0x000100008000FFFF] = true := by decide

/-- T41.11: `VABS.8 D0, D1`. -/
theorem test_vabs :
    gives 0x34000100 [.d 1 0x40C00181007F80FF]
      [.d 0 0x4040017F007F8001] = true := by decide

/-- T41.12: `VQNEG.16 D0, D1`. -/
theorem test_vqneg :
    gives 0x39000100 [.d 1 0x0000000180018000]
      [.d 0 0x0000FFFF7FFF7FFF] = true := by decide

/-- T41.13: `VQABS.8 D0, D1`. -/
theorem test_vqabs :
    gives 0x3C000100 [.d 1 0x40C00100FF7F8180]
      [.d 0 0x40400100017F7F7F] = true := by decide

/-- T41.15: `VQSHL.32 Q0, Q1, #31`. -/
theorem test_vqshl :
    gives 0x4280021F [.d 2 0xFFFFFFFF00000001, .d 3 0x8000000000000000]
      [.d 0 0x800000007FFFFFFF, .d 1 0x8000000000000000] = true := by decide

/-- T41.22: `VQSHLR.16 D0, D1, R5`. -/
theorem test_vqshlr :
    gives 0x4500A100 [.r 5 0xFFFFFFFE, .d 1 0x0004FFFF80007FFF]
      [.d 0 0x0001FFFFE0001FFF] = true := by decide

/-- T41.26: `VRSHR.32 Q0, Q1, #1`. -/
theorem test_vrshr :
    gives 0x4A800201 [.d 2 0x00000003FFFFFFFD, .d 3 0x800000007FFFFFFF]
      [.d 0 0x00000002FFFFFFFF, .d 1 0xC000000040000000] = true := by decide

/-- T41.29: `VMIN.8 D0, D1, D2`. -/
theorem test_vmin :
    gives 0x4C002200 [.d 1 0x7F800505FF007F80, .d 2 0x7F80060500FF807F]
      [.d 0 0x7F800505FFFF8080] = true := by decide

/-- T41.30: `VMAX.8 D0, D1, D2`. -/
theorem test_vmax :
    gives 0x50002200 [.d 1 0x7F800505FF007F80, .d 2 0x7F80060500FF807F]
      [.d 0 0x7F80060500007F7F] = true := by decide

/-- T41.31: `VPADD.16 D0, D1, D2`. -/
theorem test_vpadd :
    gives 0x55002200 [.d 1 0x0004000300020001, .d 2 0x0028001E0014000A]
      [.d 0 0x0046001E00070003] = true := by decide

/-- T41.35: `VPMAX.16 D0, D1, D2`. -/
theorem test_vpmax :
    gives 0x59002200 [.d 1 0x00040003FFFE0001, .d 2 0xFFD8001EFFECFFF6]
      [.d 0 0x001EFFF600040001] = true := by decide

/-- T41.36: `VPMIN.16 D0, D1, D2`. -/
theorem test_vpmin :
    gives 0x5D002200 [.d 1 0x00040003FFFE0001, .d 2 0xFFD8001EFFECFFF6]
      [.d 0 0xFFD8FFEC0003FFFE] = true := by decide

/-- T42.1: `VMUL.16 D0, D1, D2`. -/
theorem test_vmul :
    gives 0x61002200 [.d 1 0x7FFF8000FFFF0100, .d 2 0x7FFFFFFF00030100]
      [.d 0 0x00018000FFFD0000] = true := by decide

/-- T42.4: `VMLA.32 D0, D1, D2`. -/
theorem test_vmla :
    gives 0x66002200 [.d 0 0x7FFFFFFF0000000A, .d 1 0x0000000100000003, .d 2 0x00000001FFFFFFFC]
      [.d 0 0x80000000FFFFFFFE] = true := by decide

/-- T42.5: `VMLS.32 D0, D1, D2`. -/
theorem test_vmls :
    gives 0x6A002200 [.d 0 0x800000000000000A, .d 1 0x0000000100000003, .d 2 0x00000001FFFFFFFC]
      [.d 0 0x7FFFFFFF00000016] = true := by decide

/-- T42.6: `VMULL.16 Q0, D2, D3`. -/
theorem test_vmull :
    gives 0x6D004300 [.d 2 0xFFFF40007FFF8000, .d 3 0xFFFFC000FFFF8000]
      [.d 0 0xFFFF800140000000, .d 1 0x00000001F0000000] = true := by decide

/-- T42.9: `VMLAL.16 Q0, D2, D3`. -/
theorem test_vmlal :
    gives 0x71004300 [.d 0 0x000000007FFFFFFF, .d 1 0xFFFFFFFF00000064, .d 2 0x7FFFFFFD80000001,
        .d 3 0x7FFF000580000001]
      [.d 0 0x4000000080000000, .d 1 0x3FFF000000000055] = true := by decide

/-- T42.10: `VMLSL.16 Q0, D2, D3`. -/
theorem test_vmlsl :
    gives 0x75004300 [.d 0 0x8000000000000000, .d 1 0x0000000000000064, .d 2 0x8000FFFD00010002,
        .d 3 0x8000000500010003]
      [.d 0 0x7FFFFFFFFFFFFFFA, .d 1 0xC000000000000073] = true := by decide

/-- TS.3: `VQDMULH.32 D0, D1, D2`. -/
theorem test_vqdmulh :
    gives 0x7A002200 [.d 1 0x8000000080000000, .d 2 0x8000000080000000]
      [.d 0 0x7FFFFFFF7FFFFFFF] = true := by decide

/-- TS.9: `VQRDMULH.32 Q0, Q1, Q2`. -/
theorem test_vqrdmulh :
    gives 0x7E804400 [.d 2 0x8000000080000000, .d 3 0x400000007FFFFFFF, .d 4 0x7FFFFFFF80000000,
        .d 5 0x400000007FFFFFFF]
      [.d 0 0x800000017FFFFFFF, .d 1 0x200000007FFFFFFE] = true := by decide

/-- T42.16: `VQDMULH.32 Q0, Q1, D4[1]`. -/
theorem test_vqdmulhLane :
    gives 0x82804401 [.d 2 0xFFFFFFFD00000003, .d 3 0x1234567880000000, .d 4 0x4000000000000000]
      [.d 0 0xFFFFFFFE00000001, .d 1 0x091A2B3CC0000000] = true := by decide

/-- T42.17: `VQRDMULH.32 Q0, Q1, D4[1]`. -/
theorem test_vqrdmulhLane :
    gives 0x86804401 [.d 2 0xFFFFFFFD00000003, .d 3 0x1234567880000000, .d 4 0x4000000000000000]
      [.d 0 0xFFFFFFFF00000002, .d 1 0x091A2B3CC0000000] = true := by decide

/-- T43.1: `VREV.16 D0, D1, #4`. -/
theorem test_vrev :
    gives 0x91000104 [.d 1 0x0004000300020001]
      [.d 0 0x0001000200030004] = true := by decide

/-- TS.12: `VZIP.16 D0, D1`. -/
theorem test_vzip :
    gives 0x95000100 [.d 0 0x0004000300020001, .d 1 0x0008000700060005]
      [.d 0 0x0006000200050001, .d 1 0x0008000400070003] = true := by decide

/-- TS.13: `VUZP.16 D0, D1`. -/
theorem test_vuzp :
    gives 0x99000100 [.d 0 0x0006000200050001, .d 1 0x0008000400070003]
      [.d 0 0x0004000300020001, .d 1 0x0008000700060005] = true := by decide

/-- T43.12: `VTRN.16 D0, D1`. -/
theorem test_vtrn :
    gives 0x9D000100 [.d 0 0x0004000300020001, .d 1 0x0008000700060005]
      [.d 0 0x0007000300050001, .d 1 0x0008000400060002] = true := by decide

/-- TS.14: `VEXT.16 D0, D1, D2, #0`. -/
theorem test_vext :
    gives 0xA1002200 [.d 1 0x0004000300020001, .d 2 0x0008000700060005]
      [.d 0 0x0004000300020001] = true := by decide

/-- T43.21: `VDUP.32 Q0, D3[1]`. -/
theorem test_vdup :
    gives 0xA6800301 [.d 3 0xAAAAAAAA55555555]
      [.d 0 0xAAAAAAAAAAAAAAAA, .d 1 0xAAAAAAAAAAAAAAAA] = true := by decide

/-- T43.25: `VSWP D0, D1`. -/
theorem test_vswp :
    gives 0xA8000100 [.d 0 0x0000000000000001, .d 1 0x0000000000000002]
      [.d 0 0x0000000000000002, .d 1 0x0000000000000001] = true := by decide

/-- T44.1: `VCGE.16 D0, D1, D2`. -/
theorem test_vcge :
    gives 0xB1002200 [.d 1 0x7FFF80000005FFFF, .d 2 0x80007FFF00050001]
      [.d 0 0xFFFF0000FFFF0000] = true := by decide

/-- T44.2: `VCGT.32 D0, D1, D2`. -/
theorem test_vcgt :
    gives 0xB6002200 [.d 1 0x0000000700000001, .d 2 0x00000007FFFFFFFF]
      [.d 0 0x00000000FFFFFFFF] = true := by decide

/-- T44.5: `VCEQ.8 D0, D1, D2`. -/
theorem test_vceq :
    gives 0xB8002200 [.d 1 0x00FF00FF12345678, .d 2 0x00FF01FF12345678]
      [.d 0 0xFFFF00FFFFFFFFFF] = true := by decide

/-- T44.8: `VCGEZ.16 D0, D1`. -/
theorem test_vcgez :
    gives 0xBD000100 [.d 1 0x80000001FFFF0000]
      [.d 0 0x0000FFFF0000FFFF] = true := by decide

/-- T44.9: `VCGTZ.16 D0, D1`. -/
theorem test_vcgtz :
    gives 0xC1000100 [.d 1 0x7FFF0001FFFF0000]
      [.d 0 0xFFFFFFFF00000000] = true := by decide

/-- T44.10: `VCEQZ.8 D0, D1`. -/
theorem test_vceqz :
    gives 0xC4000100 [.d 1 0x00100000FF018000]
      [.d 0 0xFF00FFFF000000FF] = true := by decide

/-- T44.11: `VTST.8 D0, D1, D2`. -/
theorem test_vtst :
    gives 0xC8002200 [.d 1 0xFFAA0180FF00180F, .d 2 0xFF55028000FF10F0]
      [.d 0 0xFF0000FF0000FF00] = true := by decide

/-- TS.4: `VBIT D0, D1, D2`. -/
theorem test_vbit :
    gives 0xCC002200 [.d 0 0xAAAAAAAAAAAAAAAA, .d 1 0x5555555555555555, .d 2 0xFFFF0000FFFF0000]
      [.d 0 0x5555AAAA5555AAAA] = true := by decide

/-- T45.1: `VCLZ.32 Q0, Q1`. -/
theorem test_vclz :
    gives 0xD2800200 [.d 2 0x0000000000010000, .d 3 0x8000000000000001]
      [.d 0 0x000000200000000F, .d 1 0x000000000000001F] = true := by decide

/-- TS.5: `VCLS.32 D0, D1`. -/
theorem test_vcls :
    gives 0xD6000100 [.d 1 0x0000000100000001]
      [.d 0 0x0000001E0000001E] = true := by decide

/-- T45.7: `VQRSHRN.16 D0, Q1, #15`. -/
theorem test_vqrshrn :
    gives 0xD900020F [.d 2 0x3FFFC00012348000, .d 3 0x00003FFFC0000000]
      [.d 0 0x000080007FFF2469] = true := by decide

/-- T45.13: `VCVT.F32.S32 D0, D1, #31`. -/
theorem test_vcvtF32S32 :
    gives 0xDE00011F [.d 1 0x8000000040000000]
      [.d 0 0xBF8000003F000000] = true := by decide

/-- T45.17: `VCVT.S32.F32 D0, D1, #31`. -/
theorem test_vcvtS32F32 :
    gives 0xE200011F [.d 1 0xBF8000003F000000]
      [.d 0 0x8000000040000000] = true := by decide

/-- T42.12. -/
theorem test_vqdmulh_2 :
    gives 0x79804400 [.d 2 0x8000C00040004000, .d 3 0xFFFF00007FFF8000, .d 4 0x8000C000C0004000,
        .d 5 0x000180007FFF7FFF]
      [.d 0 0x7FFF2000E0002000, .d 1 0xFFFF00007FFE8001] = true := by decide

/-- T41.25. -/
theorem test_vqshlr_2 :
    gives 0x4681E200 [.r 15 0x00000010, .d 2 0x0000800000007FFF, .d 3 0xFFFF7FFFFFFF8000]
      [.d 0 0x7FFFFFFF7FFF0000, .d 1 0x8000000080000000] = true := by decide

/-- T45.9. -/
theorem test_vqrshrn_2 :
    gives 0xD9000201 [.d 2 0x800000007FFFFFFF, .d 3 0xFFFF00000000FFFD]
      [.d 0 0x80007FFF80007FFF] = true := by decide

/-- T42.11. -/
theorem test_vmlal_overlap :
    gives 0x72100100 [.d 4 0x7FFFFFFFFFFFFFFF, .d 5 0x0000000000000005, .d 0 0xFFFFFFFE00000001,
        .d 1 0x0000000300000001]
      [.d 4 0x8000000000000000, .d 5 0xFFFFFFFFFFFFFFFF] = true := by decide

/-- T43.19. -/
theorem test_vext_64 :
    gives 0xA3002201 [.d 1 0x000000000000AAAA, .d 2 0x000000000000BBBB]
      [.d 0 0x000000000000BBBB] = true := by decide

/-- T40.8. -/
theorem test_vld4_backward :
    gives 0x06E030C0 [.r 0 0x00000400, .m 0x400 [0x00, 0x00, 0x00, 0x00, 0x01, 0x00, 0x00, 0x00, 0x02, 0x00, 0x00,
        0x00, 0x03, 0x00, 0x00, 0x00, 0x04, 0x00, 0x00, 0x00, 0x05, 0x00, 0x00, 0x00, 0x06, 0x00, 0x00, 0x00, 0x07,
        0x00, 0x00, 0x00, 0x08, 0x00, 0x00, 0x00, 0x09, 0x00, 0x00, 0x00, 0x0A, 0x00, 0x00, 0x00, 0x0B, 0x00, 0x00,
        0x00, 0x0C, 0x00, 0x00, 0x00, 0x0D, 0x00, 0x00, 0x00, 0x0E, 0x00, 0x00, 0x00, 0x0F, 0x00, 0x00, 0x00]]
      [.d 24 0x0000000400000000, .d 25 0x0000000C00000008, .d 26 0x0000000500000001, .d 27 0x0000000D00000009,
        .d 28 0x0000000600000002, .d 29 0x0000000E0000000A, .d 30 0x0000000700000003, .d 31 0x0000000F0000000B,
        .r 0 0x000003C0] = true := by decide +kernel

/-- T41.8. -/
theorem test_vqsub_2 :
    gives 0x2D002200 [.d 1 0x800000007FFF8000, .d 2 0x80008000FFFF0001]
      [.d 0 0x00007FFF7FFF8000] = true := by decide

/-- T41.14. -/
theorem test_vqabs_2 :
    gives 0x3E880200 [.d 2 0x8000000180000000, .d 3 0x00000005FFFFFFFB]
      [.d 2 0x7FFFFFFF7FFFFFFF, .d 3 0x0000000500000005] = true := by decide

/-- T41.27. -/
theorem test_vrshr_full :
    gives 0x49000110 [.d 1 0x0000FFFF80007FFF]
      [.d 0 0x0000000000000000] = true := by decide

/-- T45.6. -/
theorem test_vcls_64 :
    gives 0xD7000100 [.d 1 0x0000000000000001]
      [.d 0 0x000000000000003E] = true := by decide

/-- T41.18. -/
theorem test_vqshl_right :
    gives 0x410001F0 [.d 1 0x0001FFFF7FFF8000]
      [.d 0 0x0000FFFF0000FFFF] = true := by decide

/-- T43.9. -/
theorem test_vzip_8 :
    gives 0x94080300 [.d 2 0x0706050403020100, .d 3 0x1716151413121110]
      [.d 2 0x1303120211011000, .d 3 0x1707160615051404] = true := by decide

/-- T44.14. -/
theorem test_vbit_mask_is_destination :
    gives 0xCC002000 [.d 0 0x0000FFFFFF00FF00, .d 1 0x9ABCDEF012345678]
      [.d 0 0x0000DEF012005600] = true := by decide

/-- T42.13. -/
theorem test_vqrdmulh_2 :
    gives 0x7D804400 [.d 2 0x8000C00040004000, .d 3 0xFFFF00007FFF8000, .d 4 0x8000C000C0004000,
        .d 5 0x000180007FFF7FFF]
      [.d 0 0x7FFF2000E0002000, .d 1 0x000000007FFE8001] = true := by decide

/-- T40.11. -/
theorem test_vst3_2 :
    gives 0x09104080 [.r 1 0x00000200, .d 4 0x0009000600030000, .d 5 0x000A000700040001, .d 6 0x000B000800050002]
      [.m 0x200 [0x00, 0x00, 0x01, 0x00, 0x02, 0x00, 0x03, 0x00, 0x04, 0x00, 0x05, 0x00, 0x06, 0x00, 0x07, 0x00,
        0x08, 0x00, 0x09, 0x00, 0x0A, 0x00, 0x0B, 0x00]] = true := by decide

/-- The square root completes whatever `SQRT_FN` answers, and leaves its source alone (R278). -/
theorem test_vsqrt :
    gives 0xE6000102 [.d 0 0x2222222211111111, .d 1 0x0000000020000000] [.d 1 0x0000000020000000] = true := by
  decide

/-! Faults: 97_test_vectors_derived_b.md section 5. -/

/-- X1. -/
theorem test_fault_all_zero_word :
    faults 0x00000000 [] 1 0x0 = true := by decide

/-- X2. -/
theorem test_fault_all_ones_word :
    faults 0xFFFFFFFF [] 1 0x0 = true := by decide

/-- X12. -/
theorem test_fault_width_not_admitted :
    faults 0x7F804400 [] 1 0x0 = true := by decide

/-- X28. -/
theorem test_fault_vext_past_the_end :
    faults 0xA1002205 [] 1 0x0 = true := by decide

/-- X40. -/
theorem test_fault_v2r_bit_17 :
    faults 0x45020100 [] 1 0x0 = true := by decide

/-- X42. -/
theorem test_fault_step_register_without_mode_2 :
    faults 0x06001001 [] 1 0x0 = true := by decide

/-- X44. -/
theorem test_fault_odd_q_register :
    faults 0x2A844400 [] 2 0x0 = true := by decide

/-- X54. -/
theorem test_fault_illegal_before_register_group :
    faults 0x2A844401 [] 1 0x0 = true := by decide

/-- X48. -/
theorem test_fault_group_past_d31 :
    faults 0x05780080 [] 2 0x0 = true := by decide

/-- X53. -/
theorem test_fault_swap_with_itself :
    faults 0xA8140500 [] 2 0x0 = true := by decide

/-- X60. -/
theorem test_fault_alignment_before_access :
    faults 0x060C0000 [.r 0 0x00001002] 3 0x1002 = true := by decide

/-- X64. -/
theorem test_fault_store_past_memory :
    faults 0x0A805040 [.r 1 0x00000FF0, .d 0 0x0000000200000001, .d 1 0x0000000400000003, .d 2 0x0000000600000005,
        .d 3 0x0000000800000007, .m 0xFF0 [0xEE, 0xEE, 0xEE, 0xEE, 0xEE, 0xEE, 0xEE, 0xEE, 0xEE, 0xEE, 0xEE, 0xEE,
        0xEE, 0xEE, 0xEE, 0xEE]] 4 0xFF0 = true := by decide

/-- X66. -/
theorem test_fault_negative_square_root :
    faults 0xE6000101 [.d 0 0x0000000600000005, .d 1 0x8000000010000000] 5 0x0 = true := by decide

/-! The reference functions (T45.15, T45.18 to T45.21, T45.23). -/

/-- The exact scaled value is rounded to nearest, ties to even (T45.15). -/
theorem test_ref_fix_to_float : refFixToFloat 0x7FFFFFFF 31 = 0x3F800000 ∧ refFixToFloat 0x01000001 31 = 0x3C000000 := by
  decide

/-- Saturation, infinities, NaN, truncation toward zero, a subnormal (T45.18, T45.19). -/
theorem test_ref_float_to_fix :
    refFloatToFix 0x3F800000 31 = 0x7FFFFFFF ∧ refFloatToFix 0x7F800000 31 = 0x7FFFFFFF ∧
      refFloatToFix 0xFF800000 31 = 0x80000000 ∧ refFloatToFix 0x7FC00000 31 = 0 ∧
      refFloatToFix 0x3FC00000 0 = 1 ∧ refFloatToFix 0xBFC00000 0 = 0xFFFFFFFF ∧ refFloatToFix 0x00000001 0 = 0 := by
  decide

/-- `floor(sqrt(x * 2^31))` (T45.20, T45.21, T45.23). -/
theorem test_ref_sqrt :
    refSqrt 0x20000000 = 0x40000000 ∧ refSqrt 0x40000000 = 0x5A827999 ∧ refSqrt 0x7FFFFFFF = 0x7FFFFFFF := by
  decide

/-! Witnesses: for every statement with hypotheses, concrete values that meet them, for each clause at a boundary value. -/

/-- A state with the host's moves `ms` pending. -/
def pending (ms : List HostMove) : State := State.reset.setHost ms

/-- A state in FAULTED, as the all-zero word leaves it, with the host's moves `ms` pending. -/
def faultedState (ms : List HostMove) : State := (State.reset.setHost ms).takeFault .illegalInstruction 0 0

/-- A state whose `R1` is `a`. -/
def withBase (a : Word) : State := State.reset.writeR 1 a

/-- The legal and the illegal register fields of the templates: any D number, an even Q number, an odd one. -/
theorem witness_registers :
    (kindLegal false 31 ∧ kindLegal true 30 ∧ kindLegal true 0) ∧ ¬kindLegal true 31 ∧ ¬kindLegal true 1 := by
  unfold kindLegal; decide

theorem witness_DecodeOfEncode :
    (Instr.vqrshrn { sz := .s32, vd := 31, vm := 30, n := 64 }).wellFormed = true ∧
      (Instr.vext { sz := .s8, q := true, vd := 0, vn := 0, vm := 0, k := 16 }).wellFormed = true := by decide

theorem witness_EncodeOfDecode : decode 0xD900020F = .ok (.vqrshrn { sz := .s16, vd := 0, vm := 2, n := 15 }) := by rfl

theorem witness_DecodedFields :
    decode 0xD900020F = .ok (.vqrshrn { sz := .s16, vd := 0, vm := 2, n := 15 }) ∧
      (8, 5, 2) ∈ fieldsOf (.vqrshrn { sz := .s16, vd := 0, vm := 2, n := 15 }) := ⟨rfl, by decide⟩

theorem witness_ReservedEncodingsAreIllegal :
    State.reset.faulted = false ∧
      (reservedEncoding 0xE8000000 ∧ reservedEncoding 0x21002201 ∧ reservedEncoding 0x57002200 ∧
        reservedEncoding 0x41000110) ∧ ¬reservedEncoding 0x4100010F := by
  refine ⟨rfl, ⟨.inl (by decide), .inr (.inl (.inr (.inr (.inl ⟨by decide, by decide⟩)))),
    .inr (.inr (.inl (.inl ⟨by decide, by decide⟩))), .inr (.inr (.inr (.inl ⟨by decide, by decide⟩)))⟩, ?_⟩
  rintro (h | h | h | h) <;> revert h
  · decide
  · unfold fixedFieldWrong; decide
  · unfold widthNotAdmitted; decide
  · unfold immediateOutOfRange; decide

theorem witness_StepRunsDecoded :
    (pending [.issue 0x20002200]).host = .issue 0x20002200 :: [] ∧ (pending [.issue 0x20002200]).faulted = false ∧
      decode 0x20002200 = .ok (.vadd { sz := .s8, q := false, vd := 0, vn := 1, vm := 2 }) ∧
      (Instr.vadd { sz := .s8, q := false, vd := 0, vn := 1, vm := 2 }).wellFormed = true := ⟨rfl, rfl, rfl, rfl⟩

theorem witness_StepWithoutAcceptedWord :
    (faultedState [.issue 0x20002200]).host = .issue 0x20002200 :: [] ∧ (faultedState [.issue 0x20002200]).faulted = true ∧
      State.reset.host = [] := ⟨rfl, rfl, rfl⟩

theorem witness_HostWrites :
    (pending [.writeD 31 7]).host = .writeD 31 7 :: [] ∧ (faultedState [.writeR 15 7]).host = .writeR 15 7 :: [] ∧
      (pending [.writeByte 0xFFF 7]).host = .writeByte 0xFFF 7 :: [] ∧
      (0xFFF : Word).toNat < (pending [.writeByte 0xFFF 7]).memBytes := ⟨rfl, rfl, rfl, by decide⟩

theorem witness_ResetEvent :
    (pending [.reset]).host = .reset :: [] ∧ (faultedState [.reset]).host = .reset :: [] := ⟨rfl, rfl⟩

theorem witness_FaultsAreSticky :
    (faultedState []).faulted = true ∧ step (faultedState []) = .next (faultedState []) ∧
      (faultedState [.reset]).faulted = true ∧ (faultedState [.reset]).host = .reset :: [] ∧
      (faultedState [.writeByte 0xFFF 7]).host = .writeByte 0xFFF 7 :: [] ∧
      (0xFFF : Word).toNat < (faultedState [.writeByte 0xFFF 7]).memBytes := ⟨rfl, rfl, rfl, rfl, rfl, by decide⟩

theorem witness_StatusAfterReset : 0 < 6 ∧ 5 < 6 := by decide

theorem witness_QRegisterIsDPair : 0 < 16 ∧ 15 < 16 ∧ (31 : DReg).toNat / 2 ≠ 0 := by decide

theorem witness_WhoWritesWhat :
    (∃ t, exec (.vst1 { sz := .s32, q := false, vd := 0, rn := 1, wb := .postInc }) (withBase 0xFF8) = .next t) ∧
      (∃ t, exec (.vadd { sz := .s8, q := false, vd := 0, vn := 1, vm := 2 }) State.reset = .next t) ∧
      isStore (.vst1 { sz := .s32, q := false, vd := 0, rn := 1, wb := .postInc }) = true ∧
      isStore (.vadd { sz := .s8, q := false, vd := 0, vn := 1, vm := 2 }) = false ∧
      transferOf (.vadd { sz := .s8, q := false, vd := 0, vn := 1, vm := 2 }) = none ∧
      transferOf (.vlddup { sz := .s32, q := false, vd := 0, rn := 1, wb := .keep }) =
        some ({ sz := .s32, q := false, vd := 0, rn := 1, wb := .keep }, 1, 4) :=
  ⟨⟨_, rfl⟩, ⟨_, rfl⟩, rfl, rfl, rfl, rfl⟩

theorem witness_StepKeepsInv :
    Inv (pending [.issue 0]) ∧ step (pending [.issue 0]) = .next (faultedState []) ∧ Inv (faultedState [.writeR 0 1]) ∧
      step (faultedState [.writeR 0 1]) = .next ((faultedState []).writeR 0 1) := by
  refine ⟨⟨by decide, fun h => absurd h (by decide), by decide, by decide⟩, rfl, ⟨by decide, fun _ => ⟨by decide, by decide, by decide,
    by decide, ?_⟩, by decide, by decide⟩, rfl⟩
  exact ⟨fun _ => ⟨.reservedOpcode, rfl⟩, fun _ => rfl⟩

theorem witness_RunEnds :
    (pending [.issue 0x20002200, .issue 0]).faulted = false ∧
      (pending [.issue 0x20002200, .issue 0]).host = ([0x20002200, 0] : List Word).map .issue ∧
      (pending []).host = ([] : List Word).map .issue := ⟨rfl, rfl, rfl⟩

theorem witness_RegisterGroupFault :
    registersLegal (.vst4 { sz := .s8, q := true, vd := 24, rn := 0, wb := .keep }) ∧
      ¬registersLegal (.vst4 { sz := .s8, q := true, vd := 26, rn := 0, wb := .keep }) ∧
      ¬registersLegal (.vst4 { sz := .s8, q := true, vd := 23, rn := 0, wb := .keep }) ∧
      ¬registersLegal (.vswp { q := false, vd := 5, vm := 5 }) := by
  simp [registersLegal, groupLegal, kindLegal]

/-- A group that ends at `D31` and a transfer that ends at `MEM_BYTES`; then one register more, one byte off, one lane
further. -/
theorem witness_TransferFaults :
    transferOf (.vld4 { sz := .s32, q := false, vd := 28, rn := 1, wb := .keep }) =
        some ({ sz := .s32, q := false, vd := 28, rn := 1, wb := .keep }, 4, 32) ∧
      ¬groupLegal 29 false 4 ∧ groupLegal 28 false 4 ∧
      (LS.base { sz := .s32, q := false, vd := 28, rn := 1, wb := .keep } (withBase 0xFE1)).toNat % 4 ≠ 0 ∧
      (LS.base { sz := .s32, q := false, vd := 28, rn := 1, wb := .keep } (withBase 0xFE4)).toNat % 4 = 0 ∧
      (withBase 0xFE4).memBytes <
        (LS.base { sz := .s32, q := false, vd := 28, rn := 1, wb := .keep } (withBase 0xFE4)).toNat + 32 := by
  refine ⟨rfl, by simp [groupLegal, kindLegal], by simp [groupLegal, kindLegal], ?_, ?_, ?_⟩ <;> decide

/-- The legal transfer of each group size that uses the last register and the last byte. -/
theorem witness_StructuredLoads :
    (groupLegal 31 false 1 ∧ groupLegal 28 true 2 ∧ groupLegal 26 true 3 ∧ groupLegal 24 true 4) ∧
      transferLegal { sz := .s64, q := false, vd := 31, rn := 1, wb := .postInc }
        (groupBytes { sz := .s64, q := false, vd := 31, rn := 1, wb := .postInc } 1) (withBase 0xFF8) ∧
      transferLegal { sz := .s8, q := true, vd := 24, rn := 1, wb := .postDec }
        (groupBytes { sz := .s8, q := true, vd := 24, rn := 1, wb := .postDec } 4) (withBase 0xFC0) := by
  refine ⟨by simp [groupLegal, kindLegal], ?_, ?_⟩ <;> · unfold transferLegal; decide

theorem witness_StructuredStores :
    (groupLegal 31 false 1 ∧ groupLegal 30 false 2 ∧ groupLegal 29 false 3 ∧ groupLegal 28 false 4) ∧
      transferLegal { sz := .s16, q := false, vd := 29, rn := 1, wb := .postAdd 1 }
        (groupBytes { sz := .s16, q := false, vd := 29, rn := 1, wb := .postAdd 1 } 3) (withBase 0xFE8) := by
  refine ⟨by simp [groupLegal, kindLegal], ?_⟩
  unfold transferLegal; decide

theorem witness_DuplicateLoad :
    groupLegal 30 true 1 ∧
      transferLegal { sz := .s16, q := true, vd := 30, rn := 1, wb := .keep } 2 (withBase 0xFFE) ∧
      State.reset.faulted = false ∧ opcOf 0x0D000040 = 0x03 ∧ (0x0D000040 : Word).extractLsb' 6 2 ≠ 0 := by
  refine ⟨by simp [groupLegal, kindLegal], ?_, rfl, by decide, by decide⟩
  unfold transferLegal; decide

theorem witness_BaseWriteback :
    transferOf (.vlddup { sz := .s8, q := false, vd := 0, rn := 1, wb := .postAdd 1 }) =
        some ({ sz := .s8, q := false, vd := 0, rn := 1, wb := .postAdd 1 }, 1, 1) ∧
      registersLegal (.vlddup { sz := .s8, q := false, vd := 0, rn := 1, wb := .postAdd 1 }) ∧
      transferLegal { sz := .s8, q := false, vd := 0, rn := 1, wb := .postAdd 1 } 1 (withBase 0xFFF) ∧
      ¬transferLegal { sz := .s8, q := false, vd := 0, rn := 1, wb := .postAdd 1 } 1 (withBase 0x1000) := by
  refine ⟨rfl, by simp [registersLegal, groupLegal, kindLegal], ?_, ?_⟩ <;> · unfold transferLegal; decide

/-- The first and the last byte of memory are there for the host to read, the next address holds none (R59). -/
theorem test_host_read_byte : State.reset.readByte 0 = some 0 ∧ State.reset.readByte 0xFFF = some 0 ∧
    State.reset.readByte 0x1000 = none := by decide

/-- Two base registers for the round trips. -/
abbrev twoBases (a b : Word) : State := (withBase a).writeR 2 b

/-- `VLD3` and `VST3` of Q registers, the first with writeback: to the last bytes of memory, and to another place that overlaps. -/
theorem witness_LoadStoreRoundTrip :
    (Instr.vld3, Instr.vst3, 3) ∈ [(Instr.vld1, Instr.vst1, 1), (Instr.vld2, Instr.vst2, 2), (Instr.vld3, Instr.vst3, 3),
        (Instr.vld4, Instr.vst4, 4)] ∧
      ((2 : RReg) ≠ 1 ∧ groupLegal 26 true 3 ∧ groupLegal 0 true 3) ∧
      (transferLegal { sz := .s32, q := true, vd := 26, rn := 1, wb := .postInc }
          (groupBytes { sz := .s32, q := true, vd := 26, rn := 1, wb := .postInc } 3) (twoBases 0xFD0 0xFD0) ∧
        transferLegal { sz := .s32, q := true, vd := 0, rn := 2, wb := .postAdd 1 }
          (groupBytes { sz := .s32, q := true, vd := 0, rn := 2, wb := .postAdd 1 } 3) (twoBases 0xFD0 0xFD0) ∧
        LS.base { sz := .s32, q := true, vd := 0, rn := 2, wb := .postAdd 1 } (twoBases 0xFD0 0xFD0) =
          LS.base { sz := .s32, q := true, vd := 26, rn := 1, wb := .postInc } (twoBases 0xFD0 0xFD0)) ∧
      transferLegal { sz := .s32, q := true, vd := 26, rn := 1, wb := .postInc }
          (groupBytes { sz := .s32, q := true, vd := 26, rn := 1, wb := .postInc } 3) (twoBases 0 4) ∧
        transferLegal { sz := .s32, q := true, vd := 26, rn := 2, wb := .postDec }
          (groupBytes { sz := .s32, q := true, vd := 26, rn := 2, wb := .postDec } 3) (twoBases 0 4) := by
  refine ⟨by simp, ⟨by decide, by simp [groupLegal, kindLegal], by simp [groupLegal, kindLegal]⟩, ⟨?_, ?_, by decide⟩, ?_, ?_⟩ <;>
    · unfold transferLegal; decide

theorem witness_SingleTransfersIgnoreWidth :
    groupLegal 31 false 1 ∧
      transferLegal { sz := .s64, q := false, vd := 31, rn := 1, wb := .postInc }
        (groupBytes { sz := .s64, q := false, vd := 31, rn := 1, wb := .postInc } 1) (withBase 0xFF8) ∧
      transferLegal { sz := .s8, q := false, vd := 31, rn := 1, wb := .postInc }
        (groupBytes { sz := .s64, q := false, vd := 31, rn := 1, wb := .postInc } 1) (withBase 0xFF8) := by
  refine ⟨by simp [groupLegal, kindLegal], ?_, ?_⟩ <;> · unfold transferLegal; decide

/-- The register fields of a `V3` instruction: legal D and Q fields, and an odd Q field. -/
abbrev v3Witness : Prop :=
  (kindLegal false 31 ∧ kindLegal false 1 ∧ kindLegal false 0) ∧ (kindLegal true 30 ∧ kindLegal true 0 ∧ kindLegal true 2) ∧
    ¬(kindLegal true 30 ∧ kindLegal true 1 ∧ kindLegal true 2)

/-- The register fields of a two-register instruction. -/
abbrev v2Witness : Prop :=
  (kindLegal false 31 ∧ kindLegal false 1) ∧ (kindLegal true 30 ∧ kindLegal true 0) ∧ ¬(kindLegal true 30 ∧ kindLegal true 1)

theorem witness_WrappingAddSubtract : v3Witness := by simp [v3Witness, kindLegal]

theorem witness_SaturatingAddSubtract : v3Witness := by simp [v3Witness, kindLegal]

theorem witness_MultiplyAccumulate : v3Witness := by simp [v3Witness, kindLegal]

theorem witness_CompareVectors : v3Witness := by simp [v3Witness, kindLegal]

theorem witness_WrappingNegateAbsolute : v2Witness := by simp [v2Witness, kindLegal]

theorem witness_SaturatingNegateAbsolute : v2Witness := by simp [v2Witness, kindLegal]

theorem witness_CompareZero : v2Witness := by simp [v2Witness, kindLegal]

theorem witness_MinimumMaximum :
    v3Witness ∧ (127#8).toInt ≤ (127#8).toInt ∧ (127#8).toInt ≤ (127#8).toInt ∧ (128#8).toInt < (127#8).toInt := by
  refine ⟨by simp [v3Witness, kindLegal], ?_⟩
  decide

/-- Amounts 0 and -1 at the two sides of the sign, and the ends of the admitted range; then one past each end. -/
theorem witness_ShiftImmediate :
    v2Witness ∧
      ((Instr.vqshl { sz := .s16, q := false, vd := 31, vm := 1, imm := 15 }).wellFormed = true ∧
        (Instr.vqshl { sz := .s16, q := true, vd := 30, vm := 0, imm := 0xF0 }).wellFormed = true) ∧
      (0 ≤ (0 : Imm8).toInt ∧ (0xFF : Imm8).toInt < 0) ∧
      opcOf 0x410001EF = 0x10 ∧ ((0x410001EF : Word).extractLsb' 0 8).toInt < -(widthOf 0x410001EF : Int) ∧
      opcOf 0x41000110 = 0x10 ∧ (widthOf 0x41000110 : Int) - 1 < ((0x41000110 : Word).extractLsb' 0 8).toInt := by
  refine ⟨by simp [v2Witness, kindLegal], ?_⟩
  decide

theorem witness_ShiftRegister :
    v2Witness ∧ 0 ≤ ((withBase 0).readR 1).toInt ∧ ((withBase 0xFFFFFFFF).readR 1).toInt < 0 ∧
      ((withBase 0x80000000).readR 1).toInt < 0 := by
  refine ⟨by simp [v2Witness, kindLegal], ?_⟩
  decide

/-- A lane of headroom 0 shifted by 0 and by 1, positive and negative. -/
theorem witness_ShiftSaturatesPastHeadroom :
    kindLegal true 30 ∧ kindLegal true 0 ∧ kindLegal true 28 ∧ 0 ≤ ((withBase 1).readR 1).toInt ∧
      (cls (0x7F#8) = 0 ∧ 0 < (0x7F#8).toInt) ∧ (cls (0x80#8) = 0 ∧ (0x80#8).toInt < 0) := by
  refine ⟨by simp [kindLegal], by simp [kindLegal], by simp [kindLegal], ?_⟩
  decide

theorem witness_RoundingShift :
    v2Witness ∧
      ((Instr.vrshr { sz := .s32, q := false, vd := 31, vm := 1, imm := 1 }).wellFormed = true ∧
        (Instr.vrshr { sz := .s32, q := true, vd := 30, vm := 0, imm := 32 }).wellFormed = true) ∧
      (opcOf 0x4A000100 = 0x12 ∧ immOf 0x4A000100 = 0) ∧
      opcOf 0x4A000121 = 0x12 ∧ widthOf 0x4A000121 < immOf 0x4A000121 := by
  refine ⟨by simp [v2Witness, kindLegal], ?_⟩
  decide

theorem witness_PairwiseReduce :
    v3Witness ∧ hasLanePairs false .s32 = true ∧ hasLanePairs true .s64 = true ∧
      opcOf 0x57002200 = 0x15 ∧ szOf 0x57002200 = 3 ∧ qOf 0x57002200 = 0 := by
  refine ⟨by simp [v3Witness, kindLegal], ?_⟩
  decide

theorem witness_WideningMultiply :
    (kindLegal true 30 ∧ ¬kindLegal true 31) ∧ Sz.isNarrow .s8 = true ∧ Sz.isNarrow .s32 = true ∧
      opcOf 0x6F004300 = 0x1B ∧ szOf 0x6F004300 = 3 ∧ qOf 0x6D804300 = 1 ∧ immOf 0x6D004301 ≠ 0 := by
  refine ⟨by simp [kindLegal], ?_⟩
  decide

theorem witness_DoublingMultiplyHigh :
    v3Witness ∧ Sz.isFractional .s16 = true ∧ Sz.isFractional .s32 = true ∧
      (opcOf 0x78002200 = 0x1E ∧ szOf 0x78002200 = 0) ∧ opcOf 0x7F804400 = 0x1F ∧ szOf 0x7F804400 = 3 := by
  refine ⟨by simp [v3Witness, kindLegal], ?_⟩
  decide

theorem witness_DoublingMultiplyHighByLane :
    v2Witness ∧ (Instr.vqdmulhLane { sz := .s16, q := true, vd := 30, vn := 0, vm := 31, idx := 3 }).wellFormed = true ∧
      (opcOf 0x81002204 = 0x20 ∧ 64 / widthOf 0x81002204 ≤ immOf 0x81002204) ∧
      opcOf 0x80002200 = 0x20 ∧ szOf 0x80002200 = 0 := by
  refine ⟨by simp [v2Witness, kindLegal], ?_⟩
  decide

/-- `MIN * MIN` and `MIN * (MIN + 1)`. -/
theorem witness_DoublingSaturatesOnlyAtMinimum :
    v3Witness ∧ Sz.isFractional .s16 = true ∧ (0x8000#16).toInt = -(2 ^ 15) ∧ (0x8001#16).toInt ≠ -(2 ^ 15) := by
  refine ⟨by simp [v3Witness, kindLegal], ?_⟩
  decide

theorem witness_ReverseLanes :
    v2Witness ∧
      ((Instr.vrev { sz := .s64, q := true, vd := 30, vm := 0, imm := 2 }).wellFormed = true ∧
        (Instr.vrev { sz := .s8, q := false, vd := 31, vm := 1, imm := 8 }).wellFormed = true) ∧
      (opcOf 0x91000103 = 0x24 ∧ immOf 0x91000103 = 3) ∧
      opcOf 0x92000104 = 0x24 ∧ lanesOf 0x92000104 < immOf 0x92000104 := by
  refine ⟨by simp [v2Witness, kindLegal], ?_⟩
  decide

/-- The register fields of a two-destination instruction: legal and different, equal, odd. -/
abbrev inPlaceWitness : Prop :=
  (kindLegal true 30 ∧ kindLegal true 0 ∧ (30 : DReg) ≠ 0) ∧ ¬(kindLegal false 3 ∧ kindLegal false 3 ∧ (3 : DReg) ≠ 3) ∧
    ¬(kindLegal true 2 ∧ kindLegal true 5 ∧ (2 : DReg) ≠ 5)

theorem witness_ZipUnzip :
    inPlaceWitness ∧ hasLanePairs false .s32 = true ∧ hasLanePairs true .s64 = true ∧
      opcOf 0x97000100 = 0x25 ∧ szOf 0x97000100 = 3 ∧ qOf 0x97000100 = 0 := by
  refine ⟨by simp [inPlaceWitness, kindLegal], ?_⟩
  decide

theorem witness_ZipUnzipRoundTrip :
    hasLanePairs false .s8 = true ∧ kindLegal false 31 ∧ kindLegal false 0 ∧ (31 : DReg) ≠ 0 := by simp [kindLegal]; decide

theorem witness_Transpose :
    inPlaceWitness ∧ hasLanePairs true .s64 = true ∧ opcOf 0x9F000100 = 0x27 ∧ szOf 0x9F000100 = 3 ∧ qOf 0x9F000100 = 0 := by
  refine ⟨by simp [inPlaceWitness, kindLegal], ?_⟩
  decide

theorem witness_TransposeReverseTwice :
    (hasLanePairs true .s64 = true ∧ kindLegal true 30 ∧ kindLegal true 0 ∧ (30 : DReg) ≠ 0) ∧
      ((Instr.vrev { sz := .s16, q := false, vd := 31, vm := 31, imm := 4 }).wellFormed = true ∧ kindLegal false 31) ∧
      (Instr.vrev { sz := .s8, q := true, vd := 30, vm := 0, imm := 8 }).wellFormed = true ∧ kindLegal true 2 := by
  simp [kindLegal]; decide

/-- Offsets 0 and `ec`, and one past it. -/
theorem witness_ExtractWindow :
    v3Witness ∧ (Instr.vext { sz := .s16, q := false, vd := 31, vn := 1, vm := 0, k := 0 }).wellFormed = true ∧
      (Instr.vext { sz := .s16, q := false, vd := 31, vn := 1, vm := 0, k := 4 }).wellFormed = true ∧
      (4 : Imm8).toNat = laneCount false .s16 ∧ opcOf 0xA1002205 = 0x28 ∧ lanesOf 0xA1002205 < immOf 0xA1002205 := by
  refine ⟨by simp [v3Witness, kindLegal], ?_⟩
  decide

theorem witness_Broadcast :
    (kindLegal true 30 ∧ ¬kindLegal true 31) ∧
      (Instr.vdup { sz := .s32, q := true, vd := 30, vm := 31, imm := 1 }).wellFormed = true ∧
      opcOf 0xA6800102 = 0x29 ∧ 64 / widthOf 0xA6800102 ≤ immOf 0xA6800102 := by
  refine ⟨by simp [kindLegal], ?_⟩
  decide

theorem witness_Swap : inPlaceWitness ∧ opcOf 0xAB000100 = 0x2A ∧ szOf 0xAB000100 ≠ 0 := by
  refine ⟨by simp [inPlaceWitness, kindLegal], ?_⟩
  decide

theorem witness_BitMerge : v3Witness ∧ opcOf 0xCD002200 = 0x33 ∧ szOf 0xCD002200 ≠ 0 := by
  refine ⟨by simp [v3Witness, kindLegal], ?_⟩
  decide

/-- `Q0` and `Q1` compared, `Q2` the destination, `Q3` the mask. -/
theorem witness_SelectIdiom :
    kindLegal true 0 ∧ kindLegal true 2 ∧ kindLegal true 4 ∧ kindLegal true 6 ∧
      (∀ j, inOperand 4 true j → ¬inOperand 0 true j ∧ ¬inOperand 2 true j ∧ ¬inOperand 6 true j) ∧
      ∀ j, inOperand 6 true j → ¬inOperand 0 true j ∧ ¬inOperand 2 true j := by
  simp only [kindLegal, inOperand]; decide

/-- The lanes 0 and 1 for `VCLZ`, with the highest bit of 1 at 0. -/
theorem witness_LeadingBitCounts :
    v2Witness ∧ (1#8).getLsbD 0 = true ∧ (∀ j, 0 < j → (1#8).getLsbD j = false) := by
  refine ⟨by simp [v2Witness, kindLegal], by decide, fun j hj => ?_⟩
  by_cases h : j < 8
  · interval_cases j <;> decide
  · exact BitVec.getLsbD_of_ge _ _ (by omega)

theorem witness_SaturatingNarrow :
    (kindLegal true 30 ∧ ¬kindLegal true 31) ∧
      ((Instr.vqrshrn { sz := .s16, vd := 31, vm := 30, n := 1 }).wellFormed = true ∧
        (Instr.vqrshrn { sz := .s16, vd := 31, vm := 30, n := 32 }).wellFormed = true) ∧
      (opcOf 0xD9000200 = 0x36 ∧ immOf 0xD9000200 = 0) ∧
      (opcOf 0xD9000221 = 0x36 ∧ 2 * widthOf 0xD9000221 < immOf 0xD9000221) ∧ szOf 0xDB000201 = 3 ∧ qOf 0xD9800208 = 1 := by
  refine ⟨by simp [kindLegal], ?_⟩
  decide

/-- `2^30 * 2^(-31)` is 0.5, whose encoding is `0x3F000000`; the other clause is about a zero lane. -/
theorem witness_FixedToFloatExact :
    v2Witness ∧ (Instr.vcvtF32S32 { q := true, vd := 30, vm := 0, fbits := 31 }).wellFormed = true ∧
      floatValue 0x3F000000 = some (((0x40000000 : Word).toInt : ℚ) / 2 ^ (31 : Imm8).toNat) ∧
      (opcOf 0xDE000121 = 0x37 ∧ 32 < immOf 0xDE000121) ∧ szOf 0xDD000120 ≠ 2 := by
  refine ⟨by simp [v2Witness, kindLegal], by decide, ?_, by decide, by decide⟩
  have h1 : ((0x3F000000 : Word).extractLsb' 23 8).toNat = 126 := by decide
  have h2 : ((0x3F000000 : Word).extractLsb' 0 23).toNat = 0 := by decide
  have h3 : (0x3F000000 : Word).msb = false := by decide
  have h4 : (0x40000000 : Word).toInt = 1073741824 := by decide
  have h5 : (31 : Imm8).toNat = 31 := by decide
  simp only [floatValue, h1, h2, h3, h4, h5]
  norm_num

/-- -1.0 with 31 fractional bits is `MIN_32`. -/
theorem witness_FloatToFixedExact :
    v2Witness ∧ (Instr.vcvtS32F32 { q := false, vd := 31, vm := 1, fbits := 31 }).wellFormed = true ∧
      floatValue 0xBF800000 = some (-1) ∧ (-1 : ℚ) * 2 ^ (31 : Imm8).toNat = ((-(2 ^ 31) : Int) : ℚ) ∧
      opcOf 0xE2000121 = 0x38 ∧ 32 < immOf 0xE2000121 := by
  refine ⟨by simp [v2Witness, kindLegal], by decide, ?_, ?_, by decide, by decide⟩
  · have h1 : ((0xBF800000 : Word).extractLsb' 23 8).toNat = 127 := by decide
    have h2 : ((0xBF800000 : Word).extractLsb' 0 23).toNat = 0 := by decide
    have h3 : (0xBF800000 : Word).msb = true := by decide
    simp only [floatValue, h1, h2, h3]
    norm_num
  · have h5 : (31 : Imm8).toNat = 31 := by decide
    rw [h5]
    norm_num

/-- Lanes of 0, which is a binary32 number, in one register, and from `Q0` by `Q15` to `Q1`. -/
theorem witness_ConversionRoundTrip :
    (Instr.vcvtF32S32 { q := true, vd := 30, vm := 30, fbits := 31 }).wellFormed = true ∧
      (Instr.vcvtF32S32 { q := true, vd := 30, vm := 0, fbits := 31 }).wellFormed = true ∧
      (kindLegal true 30 ∧ kindLegal true 0 ∧ kindLegal true 2) ∧
      ∀ r ∈ [(30 : DReg), 0], ∀ k, k < laneCount true .s32 → ∃ f : Word,
        floatValue f = some (((lane 32 (State.reset.readV r true) k).toInt : ℚ) / 2 ^ (31 : Imm8).toNat) := by
  refine ⟨by decide, by decide, by simp [kindLegal], fun r hr k hk => ⟨0, ?_⟩⟩
  have h : ∀ r ∈ [(30 : DReg), 0], ∀ k, k < laneCount true .s32 → (lane 32 (State.reset.readV r true) k).toInt = 0 := by
    decide
  have h1 : ((0 : Word).extractLsb' 23 8).toNat = 0 := by decide
  have h2 : ((0 : Word).extractLsb' 0 23).toNat = 0 := by decide
  simp only [h r hr k hk, floatValue, h1, h2]
  norm_num

/-- A source lane of 0 and one of -1. -/
theorem witness_SquareRoot :
    0 ≤ (lane 32 (State.reset.readV 1 false) 0).toInt ∧
      (lane 32 ((start [.d 1 0xFFFFFFFF00000000]).readV 1 false) 1).toInt < 0 ∧
      opcOf 0xE6000104 = 0x39 ∧ 4 ≤ immOf 0xE6000104 ∧ qOf 0xE6800200 = 1 ∧ szOf 0xE5000100 ≠ 2 := by
  decide

end Sys2Proof.Tests
end

/-! Obligation O18 (R18): the two ends of a run. A word that decodes is the encoding of what it decodes to, so the word
that a fault records is the word that was issued; an instruction completes or takes a fault; a run is a list of such
steps. -/

namespace Sys2Proof

/-! What decodes is the encoding of what it decodes to. Each format's lemma asks of its constructor `mk` only which word
and which immediates and widths it has, so that one lemma serves every row of the format. -/

section formats

variable {w : Word} {i : Instr} {n : Nat}

/-- A decoder that gives an instruction has passed the check in front of it. -/
theorem ite_error_eq_ok_iff {c : Prop} [Decidable c] {e : DecodeError} {x : Except DecodeError Instr} :
    (if c then .error e else x) = .ok i ↔ ¬c ∧ x = .ok i := by
  split <;> simp_all

theorem fieldOpc_of_toNat (h : (fieldOpc w).toNat = n) : fieldOpc w = BitVec.ofNat 6 n := by simp [← h]

theorem fieldNm1_of_toNat (h : (fieldNm1 w).toNat = n) : fieldNm1 w = BitVec.ofNat 2 n := by simp [← h]

@[simp] theorem wordSz_field (w : Word) : (wordSz w).field = fieldSz w := Sz.field_ofField _

@[simp] theorem ofBool_wordQ (w : Word) : BitVec.ofBool (wordQ w) = fieldQ w := ofBool_bitSet _

/-- The writeback mode read from a word has the word's two fields, when the step register stands only where a mode
has one. -/
theorem decodeWriteback_fields (h : ¬(fieldRm w ≠ 0 ∧ fieldWb w ≠ 2)) :
    (decodeWriteback w).field = fieldWb w ∧ (decodeWriteback w).stepField = fieldRm w := by
  have hcases : ∀ b : BitVec 2, b = 0 ∨ b = 1 ∨ b = 2 ∨ b = 3 := by decide
  obtain hb | hb | hb | hb := hcases (fieldWb w) <;>
    simp_all [decodeWriteback, Writeback.field, Writeback.stepField]

/-! One lemma per format, for a word whose opcode is `n`. -/

section opcode

variable (hopc : (fieldOpc w).toNat = n)

include hopc

theorem encode_of_decodeLS {mk : LS → Instr} {m : Nat} (hnm1 : (fieldNm1 w).toNat = m)
    (h : decodeLS mk w = .ok i)
    (hmk : ∀ o, encode (mk o) = o.word (BitVec.ofNat 6 n) (BitVec.ofNat 2 m) ∧ (mk o).wellFormed = true) :
    encode i = w ∧ i.wellFormed = true := by
  simp only [decodeLS, ite_error_eq_ok_iff, Except.ok.injEq] at h
  obtain ⟨hlow, hstep, rfl⟩ := h
  obtain ⟨hwb, hrm⟩ := decodeWriteback_fields hstep
  obtain ⟨he, hwf⟩ := hmk _
  refine ⟨he.trans ?_, hwf⟩
  simpa [LS.word, hwb, hrm, ← fieldOpc_of_toNat hopc, ← fieldNm1_of_toNat hnm1] using packLS_fields w (not_not.mp hlow)

/-- Formats `V3` and `V2` leave `ok`, the widths that the row admits, to the constructor. -/
theorem encode_of_decodeV3 {mk : V3 → Instr} {ok : Bool → Sz → Bool} (h : decodeV3 mk ok w = .ok i)
    (hmk : ∀ o, ok o.q o.sz = true → encode (mk o) = o.word (BitVec.ofNat 6 n) ∧ (mk o).wellFormed = true) :
    encode i = w ∧ i.wellFormed = true := by
  simp only [decodeV3, ite_error_eq_ok_iff, Except.ok.injEq] at h
  obtain ⟨himm, hok, rfl⟩ := h
  obtain ⟨he, hwf⟩ := hmk ⟨wordSz w, wordQ w, fieldVd w, fieldVn w, fieldVm w⟩ (by simpa using hok)
  refine ⟨he.trans ?_, hwf⟩
  simpa [V3.word, ← fieldOpc_of_toNat hopc, not_not.mp himm] using packV_fields w

theorem encode_of_decodeV3B {mk : V3B → Instr} (h : decodeV3B mk w = .ok i)
    (hmk : ∀ o, encode (mk o) = o.word (BitVec.ofNat 6 n) ∧ (mk o).wellFormed = true) :
    encode i = w ∧ i.wellFormed = true := by
  simp only [decodeV3B, ite_error_eq_ok_iff, not_or, not_not, Except.ok.injEq] at h
  obtain ⟨⟨himm, hsz⟩, rfl⟩ := h
  obtain ⟨he, hwf⟩ := hmk _
  refine ⟨he.trans ?_, hwf⟩
  simpa [V3B.word, ← fieldOpc_of_toNat hopc, himm, hsz] using packV_fields w

theorem encode_of_decodeV3W {mk : V3W → Instr} (h : decodeV3W mk w = .ok i)
    (hmk : ∀ o, o.sz.isNarrow = true → encode (mk o) = o.word (BitVec.ofNat 6 n) ∧ (mk o).wellFormed = true) :
    encode i = w ∧ i.wellFormed = true := by
  simp only [decodeV3W, ite_error_eq_ok_iff, not_or, not_not, Except.ok.injEq] at h
  obtain ⟨⟨himm, hq⟩, hok, rfl⟩ := h
  obtain ⟨he, hwf⟩ := hmk ⟨wordSz w, fieldVd w, fieldVn w, fieldVm w⟩ (by simpa using hok)
  refine ⟨he.trans ?_, hwf⟩
  simpa [V3W.word, ← fieldOpc_of_toNat hopc, himm, hq] using packV_fields w

theorem encode_of_decodeV3X {mk : V3X → Instr} {immOk : Bool → Sz → Imm8 → Bool} (h : decodeV3X mk immOk w = .ok i)
    (hmk : ∀ o, immOk o.q o.sz o.k = true → encode (mk o) = o.word (BitVec.ofNat 6 n) ∧ (mk o).wellFormed = true) :
    encode i = w ∧ i.wellFormed = true := by
  simp only [decodeV3X, ite_error_eq_ok_iff, Except.ok.injEq] at h
  obtain ⟨hok, rfl⟩ := h
  obtain ⟨he, hwf⟩ := hmk ⟨wordSz w, wordQ w, fieldVd w, fieldVn w, fieldVm w, fieldImm w⟩ (by simpa using hok)
  refine ⟨he.trans ?_, hwf⟩
  simpa [V3X.word, ← fieldOpc_of_toNat hopc] using packV_fields w

theorem encode_of_decodeV3L {mk : V3L → Instr} (h : decodeV3L mk w = .ok i)
    (hmk : ∀ o, (o.sz.isFractional && laneIdxOk o.sz o.idx) = true →
      encode (mk o) = o.word (BitVec.ofNat 6 n) ∧ (mk o).wellFormed = true) :
    encode i = w ∧ i.wellFormed = true := by
  simp only [decodeV3L, ite_error_eq_ok_iff, Except.ok.injEq] at h
  obtain ⟨hsz, hidx, rfl⟩ := h
  obtain ⟨he, hwf⟩ := hmk ⟨wordSz w, wordQ w, fieldVd w, fieldVn w, fieldVm w, fieldImm w⟩ (by simp_all)
  refine ⟨he.trans ?_, hwf⟩
  simpa [V3L.word, ← fieldOpc_of_toNat hopc] using packV_fields w

theorem encode_of_decodeV2 {mk : V2 → Instr} {ok : Bool → Sz → Bool} (h : decodeV2 mk ok w = .ok i)
    (hmk : ∀ o, ok o.q o.sz = true → encode (mk o) = o.word (BitVec.ofNat 6 n) ∧ (mk o).wellFormed = true) :
    encode i = w ∧ i.wellFormed = true := by
  simp only [decodeV2, ite_error_eq_ok_iff, not_or, not_not, Except.ok.injEq] at h
  obtain ⟨⟨hvn, himm⟩, hok, rfl⟩ := h
  obtain ⟨he, hwf⟩ := hmk ⟨wordSz w, wordQ w, fieldVd w, fieldVm w⟩ (by simpa using hok)
  refine ⟨he.trans ?_, hwf⟩
  simpa [V2.word, ← fieldOpc_of_toNat hopc, hvn, himm] using packV_fields w

theorem encode_of_decodeV2B {mk : V2B → Instr} (h : decodeV2B mk w = .ok i)
    (hmk : ∀ o, encode (mk o) = o.word (BitVec.ofNat 6 n) ∧ (mk o).wellFormed = true) :
    encode i = w ∧ i.wellFormed = true := by
  simp only [decodeV2B, ite_error_eq_ok_iff, not_or, not_not, Except.ok.injEq] at h
  obtain ⟨⟨hvn, himm, hsz⟩, rfl⟩ := h
  obtain ⟨he, hwf⟩ := hmk _
  refine ⟨he.trans ?_, hwf⟩
  simpa [V2B.word, ← fieldOpc_of_toNat hopc, hvn, himm, hsz] using packV_fields w

theorem encode_of_decodeV2I {mk : V2I → Instr} {immOk : Bool → Sz → Imm8 → Bool} (h : decodeV2I mk immOk w = .ok i)
    (hmk : ∀ o, immOk o.q o.sz o.imm = true → encode (mk o) = o.word (BitVec.ofNat 6 n) ∧ (mk o).wellFormed = true) :
    encode i = w ∧ i.wellFormed = true := by
  simp only [decodeV2I, ite_error_eq_ok_iff, not_not, Except.ok.injEq] at h
  obtain ⟨hvn, hok, rfl⟩ := h
  obtain ⟨he, hwf⟩ := hmk ⟨wordSz w, wordQ w, fieldVd w, fieldVm w, fieldImm w⟩ (by simpa using hok)
  refine ⟨he.trans ?_, hwf⟩
  simpa [V2I.word, ← fieldOpc_of_toNat hopc, hvn] using packV_fields w

theorem encode_of_decodeV2N {mk : V2N → Instr} (h : decodeV2N mk w = .ok i)
    (hmk : ∀ o, (o.sz.isNarrow && vqrshrnImmOk o.sz o.n) = true →
      encode (mk o) = o.word (BitVec.ofNat 6 n) ∧ (mk o).wellFormed = true) :
    encode i = w ∧ i.wellFormed = true := by
  simp only [decodeV2N, ite_error_eq_ok_iff, not_or, not_not, Except.ok.injEq] at h
  obtain ⟨⟨hvn, hq⟩, hsz, himm, rfl⟩ := h
  obtain ⟨he, hwf⟩ := hmk ⟨wordSz w, fieldVd w, fieldVm w, fieldImm w⟩ (by simp_all)
  refine ⟨he.trans ?_, hwf⟩
  simpa [V2N.word, ← fieldOpc_of_toNat hopc, hvn, hq] using packV_fields w

theorem encode_of_decodeV2F {mk : V2F → Instr} (h : decodeV2F mk w = .ok i)
    (hmk : ∀ o, fbitsOk o.fbits = true → encode (mk o) = o.word (BitVec.ofNat 6 n) ∧ (mk o).wellFormed = true) :
    encode i = w ∧ i.wellFormed = true := by
  simp only [decodeV2F, ite_error_eq_ok_iff, not_or, not_not, Except.ok.injEq] at h
  obtain ⟨⟨hvn, hsz⟩, hok, rfl⟩ := h
  obtain ⟨he, hwf⟩ := hmk ⟨wordQ w, fieldVd w, fieldVm w, fieldImm w⟩ (by simpa using hok)
  refine ⟨he.trans ?_, hwf⟩
  simpa [V2F.word, ← fieldOpc_of_toNat hopc, hvn, hsz] using packV_fields w

theorem encode_of_decodeV2S {mk : V2S → Instr} (h : decodeV2S mk w = .ok i)
    (hmk : ∀ o, encode (mk o) = o.word (BitVec.ofNat 6 n) ∧ (mk o).wellFormed = true) :
    encode i = w ∧ i.wellFormed = true := by
  simp only [decodeV2S, ite_error_eq_ok_iff, not_or, not_not, Except.ok.injEq] at h
  obtain ⟨⟨hvn, hsz, hq, himm⟩, rfl⟩ := h
  obtain ⟨he, hwf⟩ := hmk _
  refine ⟨he.trans ?_, hwf⟩
  simpa [V2S.word, ← fieldOpc_of_toNat hopc, hvn, hsz, hq, fieldImm_eq, himm] using packV_fields w

theorem encode_of_decodeV2R {mk : V2R → Instr} (h : decodeV2R mk w = .ok i)
    (hmk : ∀ o, encode (mk o) = o.word (BitVec.ofNat 6 n) ∧ (mk o).wellFormed = true) :
    encode i = w ∧ i.wellFormed = true := by
  simp only [decodeV2R, ite_error_eq_ok_iff, not_or, not_not, Except.ok.injEq] at h
  obtain ⟨⟨hbit, himm⟩, rfl⟩ := h
  obtain ⟨he, hwf⟩ := hmk _
  refine ⟨he.trans ?_, hwf⟩
  simpa [V2R.word, ← fieldOpc_of_toNat hopc, himm, fieldVn_eq, hbit] using packV_fields w

end opcode

/-- The rows of opcodes `0x01` and `0x02` are told apart by `nm1`, whose last value is the match's default. -/
theorem fieldNm1_eq_three (h0 : (fieldNm1 w).toNat ≠ 0) (h1 : (fieldNm1 w).toNat ≠ 1) (h2 : (fieldNm1 w).toNat ≠ 2) :
    (fieldNm1 w).toNat = 3 := by
  have := (fieldNm1 w).isLt
  omega

theorem encode_of_decodeLoad (hopc : (fieldOpc w).toNat = 0x01) (h : decodeLoad w = .ok i) :
    encode i = w ∧ i.wellFormed = true := by
  unfold decodeLoad at h
  split at h
  case h_1 hnm1 | h_2 hnm1 | h_3 hnm1 => exact encode_of_decodeLS hopc hnm1 h fun _ => ⟨rfl, rfl⟩
  case h_4 h0 h1 h2 => exact encode_of_decodeLS hopc (fieldNm1_eq_three h0 h1 h2) h fun _ => ⟨rfl, rfl⟩

theorem encode_of_decodeStore (hopc : (fieldOpc w).toNat = 0x02) (h : decodeStore w = .ok i) :
    encode i = w ∧ i.wellFormed = true := by
  unfold decodeStore at h
  split at h
  case h_1 hnm1 | h_2 hnm1 | h_3 hnm1 => exact encode_of_decodeLS hopc hnm1 h fun _ => ⟨rfl, rfl⟩
  case h_4 h0 h1 h2 => exact encode_of_decodeLS hopc (fieldNm1_eq_three h0 h1 h2) h fun _ => ⟨rfl, rfl⟩

theorem encode_of_decodeDup (hopc : (fieldOpc w).toNat = 0x03) (h : decodeDup w = .ok i) :
    encode i = w ∧ i.wellFormed = true := by
  simp only [decodeDup, ite_error_eq_ok_iff, not_not] at h
  obtain ⟨hnm1, h⟩ := h
  exact encode_of_decodeLS hopc (by simp [hnm1]) h fun _ => ⟨rfl, rfl⟩

end formats

/-- The decoder by its opcodes (R86, R90): a word that decodes is the encoding of a well-formed instruction. -/
theorem encode_of_decode {w : Word} {i : Instr} (h : decode w = .ok i) :
    encode i = w ∧ i.wellFormed = true := by
  unfold decode at h
  split at h
  case h_1 hopc => exact encode_of_decodeLoad hopc h
  case h_2 hopc => exact encode_of_decodeStore hopc h
  case h_3 hopc => exact encode_of_decodeDup hopc h
  case h_4 hopc | h_5 hopc | h_6 hopc | h_7 hopc | h_15 hopc | h_16 hopc | h_17 hopc | h_18 hopc | h_19 hopc |
      h_20 hopc | h_21 hopc | h_22 hopc | h_26 hopc | h_27 hopc | h_37 hopc | h_38 hopc | h_39 hopc | h_43 hopc =>
    exact encode_of_decodeV3 hopc h fun _ hok => ⟨rfl, hok⟩
  case h_8 hopc | h_9 hopc | h_10 hopc | h_11 hopc | h_31 hopc | h_32 hopc | h_33 hopc | h_40 hopc | h_41 hopc |
      h_42 hopc | h_45 hopc | h_46 hopc =>
    exact encode_of_decodeV2 hopc h fun _ hok => ⟨rfl, hok⟩
  case h_12 hopc | h_14 hopc | h_30 hopc | h_35 hopc => exact encode_of_decodeV2I hopc h fun _ hok => ⟨rfl, hok⟩
  case h_13 hopc => exact encode_of_decodeV2R hopc h fun _ => ⟨rfl, rfl⟩
  case h_23 hopc | h_24 hopc | h_25 hopc => exact encode_of_decodeV3W hopc h fun _ hok => ⟨rfl, hok⟩
  case h_28 hopc | h_29 hopc => exact encode_of_decodeV3L hopc h fun _ hok => ⟨rfl, hok⟩
  case h_34 hopc => exact encode_of_decodeV3X hopc h fun _ hok => ⟨rfl, hok⟩
  case h_36 hopc => exact encode_of_decodeV2B hopc h fun _ => ⟨rfl, rfl⟩
  case h_44 hopc => exact encode_of_decodeV3B hopc h fun _ => ⟨rfl, rfl⟩
  case h_47 hopc => exact encode_of_decodeV2N hopc h fun _ hok => ⟨rfl, hok⟩
  case h_48 hopc | h_49 hopc => exact encode_of_decodeV2F hopc h fun _ hok => ⟨rfl, hok⟩
  case h_50 hopc => exact encode_of_decodeV2S hopc h fun _ => ⟨rfl, rfl⟩
  case h_51 => cases h

end Sys2Proof

namespace Sys2Proof.Machine

/-! What the execution of an instruction can end in. -/

/-- `u` is `s` but for registers and memory: `pc`, the fault record and the model's own fields are as in `s`. -/
def keepsControl (s u : State) : Prop := u.pc = s.pc ∧ sameControl s u

theorem keepsControl_writeV (s : State) (r : DReg) (q : Bool) (v : Vec) : keepsControl s (s.writeV r q v) := by
  simp [keepsControl, sameControl]

theorem keepsControl_writeV_writeV (s : State) (a b : DReg) (q : Bool) (u v : Vec) :
    keepsControl s ((s.writeV a q u).writeV b q v) := by
  simp [keepsControl, sameControl]

theorem keepsControl_writeD (s : State) (j : DReg) (v : DWord) : keepsControl s (s.writeD j v) := by
  simp [keepsControl, sameControl]

theorem keepsControl_writeGroup (s : State) (vd : DReg) (q : Bool) (n : Nat) (f : Nat → Vec) :
    keepsControl s (s.writeGroup vd q n f) := by
  simp [keepsControl, sameControl]

theorem keepsControl_setMem (s : State) (m : List Host.Cell) : keepsControl s (s.setMem m) := by
  simp [keepsControl, sameControl]

theorem keepsControl_writeback {s u : State} (h : keepsControl s u) (o : LS) (n : Nat) :
    keepsControl s (o.writeback n s u) := by
  simpa [keepsControl, sameControl] using h

/-- The two ends of the instruction with word `inst` from `s`: it completes, with `pc` one higher (R28), or it takes a
fault, with no other effect (R296, R297); not `IllegalInstruction`, which is raised when decoding fails. -/
inductive EndsPrecisely (inst : Word) (s : State) : Result → Prop where
  | completes {u : State} (h : keepsControl s u) : EndsPrecisely inst s (.next u.advance)
  | faults (c : Cause) (addr : Word) (h : c ≠ .illegalInstruction) :
      EndsPrecisely inst s (.next (s.takeFault c inst addr))

theorem completeIf_endsPrecisely {ok : Bool} {inst : Word} {s u : State} (h : keepsControl s u) :
    EndsPrecisely inst s (completeIf ok inst s u) := by
  obtain ⟨-, he⟩ | ⟨-, he⟩ := completeIf_cases ok inst s u
  · exact he ▸ .completes h
  · exact he ▸ .faults _ _ (by decide)

theorem transfer_endsPrecisely {inst : Word} {o : LS} {n bytes : Nat} {s u : State} (h : keepsControl s u) :
    EndsPrecisely inst s (transfer inst o n bytes s u) := by
  obtain ⟨-, -, he⟩ | ⟨-, he⟩ | ⟨-, c, -, hc, he⟩ := transfer_cases inst o n bytes s u
  · exact he ▸ .completes (keepsControl_writeback h o bytes)
  · exact he ▸ .faults _ _ (by decide)
  · exact he ▸ .faults _ _ (by rintro rfl; simp at hc)

theorem execVsqrt_endsPrecisely (o : V2S) (s : State) : EndsPrecisely (encode (.vsqrt o)) s (execVsqrt o s) := by
  unfold execVsqrt
  dsimp only
  split
  · exact .faults .domain 0 (by decide)
  · exact .completes (keepsControl_writeD ..)

/-- Every instruction ends in one of the two ways, its own word in the record of a fault: the transfers through
`transfer`, all others but `VSQRT` through `completeIf`. -/
theorem exec_endsPrecisely (i : Instr) (s : State) : EndsPrecisely (encode i) s (exec i s) := by
  cases i with
  | vld1 o | vld2 o | vld3 o | vld4 o => exact transfer_endsPrecisely (keepsControl_writeGroup ..)
  | vst1 o | vst2 o | vst3 o | vst4 o => exact transfer_endsPrecisely (keepsControl_setMem ..)
  | vlddup o => exact transfer_endsPrecisely (keepsControl_writeV ..)
  | vzip o | vuzp o | vtrn o | vswp o => exact completeIf_endsPrecisely (keepsControl_writeV_writeV ..)
  | vsqrt o => exact execVsqrt_endsPrecisely o s
  | vadd o | vsub o | vqadd o | vqsub o | vneg o | vabs o | vqneg o | vqabs o | vqshl o | vqshlr o | vrshr o | vmin o
  | vmax o | vpadd o | vpmax o | vpmin o | vmul o | vmla o | vmls o | vmull o | vmlal o | vmlsl o | vqdmulh o
  | vqrdmulh o | vqdmulhLane o | vqrdmulhLane o | vrev o | vext o | vdup o | vcge o | vcgt o | vceq o | vcgez o
  | vcgtz o | vceqz o | vtst o | vbit o | vclz o | vcls o | vqrshrn o | vcvtF32S32 o | vcvtS32F32 o =>
    exact completeIf_endsPrecisely (keepsControl_writeV ..)

/-! A run of issued words. -/

/-- A step that takes an issued word in READY executes it and stays READY, or enters FAULTED with that word in the
record and `pc` where it was. -/
theorem step_issue_cases {s : State} {w : Word} {ms : List HostMove} (hs : s.faulted = false)
    (hh : s.host = .issue w :: ms) :
    ∃ t, step s = .next t ∧ t.host = ms ∧
      ((t.faulted = false ∧ t.pc = s.pc + 1) ∨
        (t.faulted = true ∧ t.pc = s.pc ∧ t.fpc = s.pc ∧ t.finst = w)) := by
  have hready : (s.setHost ms).faulted = false := by simpa using hs
  rw [step_cons hh, hostMove]
  cases hd : decode w with
  | error e => exact ⟨_, issueWord_illegal hready hd, rfl, .inr ⟨rfl, rfl, rfl, rfl⟩⟩
  | ok i =>
    rw [issueWord_ok hready hd]
    have hends := exec_endsPrecisely i (s.setHost ms)
    generalize exec i (s.setHost ms) = r at hends
    cases hends with
    | @completes u h =>
      obtain ⟨hpc, hfaulted, -, -, -, -, -, hhost, -⟩ := h
      exact ⟨_, rfl, by simpa using hhost, .inl ⟨by simpa [hs] using hfaulted, by simp [hpc]⟩⟩
    | faults c addr _ => exact ⟨_, rfl, rfl, .inr ⟨rfl, rfl, rfl, (encode_of_decode hd).1⟩⟩

theorem run_succ {s t : State} (h : step s = .next t) (k : Nat) : core.run (k + 1) s = core.run k t := by
  simp only [Host.Core.run]
  rw [show core.step s = .next t from h]

theorem pc_add_succ {pc : Word} (k : Nat) : pc + 1 + BitVec.ofNat 32 k = pc + BitVec.ofNat 32 (k + 1) := by
  rw [Nat.add_comm k 1, BitVec.ofNat_add, BitVec.add_assoc]
  rfl

/-- A normal end after one executed word and a run of `n` more. -/
theorem endsNormally_succ {n : Nat} {s t u : State} (hpc : t.pc = s.pc + 1) (h : endsNormally n t u) :
    endsNormally (n + 1) s u := by
  obtain ⟨hready, hu, hhost⟩ := h
  exact ⟨hready, by rw [hu, hpc, pc_add_succ], hhost⟩

/-- A fault of word `k` of the rest is a fault of word `k + 1` of the whole. -/
theorem endsFaulted_cons {w : Word} {prog : List Word} {k : Nat} {s t u : State} (hpc : t.pc = s.pc + 1)
    (h : endsFaulted prog k t u) : endsFaulted (w :: prog) (k + 1) s u := by
  obtain ⟨hfaulted, hu, hfpc, hfinst, hhost⟩ := h
  exact ⟨hfaulted, by rw [hu, hpc, pc_add_succ], hfpc, by simpa using hfinst, by simpa using hhost⟩

/-- Settles O18, by induction on the words: the first ends the run in a fault, or leaves a READY state with the rest
pending. -/
theorem runEnds : Obligations.RunEnds := by
  intro prog
  induction prog with
  | nil => exact fun s hs hh => .inl ⟨s, rfl, hs, by simp, hh⟩
  | cons w prog ih =>
    intro s hs hh
    obtain ⟨t, hstep, hhost, ⟨hready, hpc⟩ | ⟨hfaulted, hpc, hfpc, hfinst⟩⟩ := step_issue_cases hs hh
    · obtain ⟨u, hrun, hu⟩ | ⟨k, u, hk, hrun, hu⟩ := ih t hready hhost
      · exact .inl ⟨u, (run_succ hstep _).trans hrun, endsNormally_succ hpc hu⟩
      · exact .inr ⟨k + 1, u, Nat.succ_lt_succ hk, (run_succ hstep _).trans hrun, endsFaulted_cons hpc hu⟩
    · exact .inr ⟨0, t, Nat.zero_lt_succ _, run_succ hstep 0, hfaulted, by simp [hpc], hfpc.trans hpc.symm,
        by simp [hfinst], by simpa using hhost⟩

end Sys2Proof.Machine

namespace Sys2Proof.Machine

/-! A Q register and its two D registers. -/

section qRegister

variable (s : State) (r : DReg)

theorem State.readV_true : s.readV r true = s.readD (r + 1#5) ++ s.readD r := rfl

theorem State.readD_writeV_append_low (hi lo : DWord) : (s.writeV r true (hi ++ lo)).readD r = lo := by
  rw [State.readD_writeV, if_pos rfl, BitVec.setWidth_append_eq_right]

theorem State.readD_writeV_append_high (hi lo : DWord) : (s.writeV r true (hi ++ lo)).readD (r + 1#5) = hi := by
  rw [State.readD_writeV, if_neg (DReg.succ_ne r), if_pos ⟨rfl, rfl⟩, BitVec.extractLsb'_append_eq_left]

theorem State.readV_writeD_low (v : DWord) : (s.writeD r v).readV r true = s.readD (r + 1#5) ++ v := by
  simp [State.readV_true, (DReg.succ_ne r).symm]

theorem State.readV_writeD_high (v : DWord) : (s.writeD (r + 1#5) v).readV r true = v ++ s.readD r := by
  simp [State.readV_true, DReg.succ_ne r]

end qRegister

/-- `Qk` consists of D registers whose number halves to `k`. -/
theorem toNat_half_of_inOperand_even {k : Nat} (hk : k < 16) {j : DReg}
    (hj : inOperand (BitVec.ofNat 5 (2 * k)) true j) : j.toNat / 2 = k := by
  rcases hj with rfl | ⟨-, rfl⟩
  · rw [BitVec.toNat_ofNat]
    omega
  · rw [BitVec.toNat_add, BitVec.toNat_ofNat, BitVec.toNat_ofNat]
    omega

/-- Settles O13: with `D(2k+1)` written as the successor of `D(2k)`, each part is a law of the operand `V(r, 1)` for
every `r`. -/
theorem qRegisterIsDPair : Obligations.QRegisterIsDPair := by
  intro s k hk
  rw [BitVec.ofNat_add (2 * k) 1]
  refine ⟨s.readV_true _, fun hi lo => ⟨?_, ?_, ?_⟩, fun v => ⟨?_, ?_⟩⟩
  · exact s.readD_writeV_append_low _ hi lo
  · exact s.readD_writeV_append_high _ hi lo
  · exact fun j hj =>
      s.readD_writeV_of_not_partOf (partOf_eq_false_iff.mpr (mt (toNat_half_of_inOperand_even hk) hj))
  · exact s.readV_writeD_low _ v
  · exact s.readV_writeD_high _ v

end Sys2Proof.Machine

/-! Obligations O3 to O5 (30_encoding.md): where the fields of a defined word stand, which words are reserved, and the
worked encodings. -/

namespace Sys2Proof.Machine

/-! The fields of an encoding (R81, R84, R86). Each position of a format is one of the decoder's fields, and a field of
an encoding is what the encoder packed there. -/

section fields

variable {w : Word} {v : Nat}

theorem hasField_iff {lo len : Nat} : hasField w (lo, len, v) ↔ (w.extractLsb' lo len).toNat = v := by
  rw [BitVec.extractLsb'_toNat, Nat.shiftRight_eq_div_pow]
  rfl

@[simp] theorem hasField_opc : hasField w (26, 6, v) ↔ (fieldOpc w).toNat = v := hasField_iff

@[simp] theorem hasField_sz : hasField w (24, 2, v) ↔ (fieldSz w).toNat = v := hasField_iff

@[simp] theorem hasField_q : hasField w (23, 1, v) ↔ (fieldQ w).toNat = v := hasField_iff

@[simp] theorem hasField_vd : hasField w (18, 5, v) ↔ (fieldVd w).toNat = v := hasField_iff

@[simp] theorem hasField_vn : hasField w (13, 5, v) ↔ (fieldVn w).toNat = v := hasField_iff

@[simp] theorem hasField_vm : hasField w (8, 5, v) ↔ (fieldVm w).toNat = v := hasField_iff

@[simp] theorem hasField_imm : hasField w (0, 8, v) ↔ (fieldImm w).toNat = v := hasField_iff

@[simp] theorem hasField_rn : hasField w (14, 4, v) ↔ (fieldRn w).toNat = v := hasField_iff

@[simp] theorem hasField_wb : hasField w (12, 2, v) ↔ (fieldWb w).toNat = v := hasField_iff

@[simp] theorem hasField_rm : hasField w (8, 4, v) ↔ (fieldRm w).toNat = v := hasField_iff

@[simp] theorem hasField_nm1 : hasField w (6, 2, v) ↔ (fieldNm1 w).toNat = v := hasField_iff

@[simp] theorem hasField_low : hasField w (0, 6, v) ↔ (fieldLow w).toNat = v := hasField_iff

@[simp] theorem hasField_bit17 : hasField w (17, 1, v) ↔ (fieldBit17 w).toNat = v := hasField_iff

@[simp] theorem hasField_rs : hasField w (13, 4, v) ↔ (fieldRs w).toNat = v := hasField_iff

end fields

theorem widthCode_eq (sz : Sz) : widthCode sz = sz.field.toNat := by cases sz <;> rfl

/-- The immediate of format `V2S` has the number that its two lane bits write. -/
theorem toNat_laneBits (di mi : Bool) :
    (0#6 ++ BitVec.ofBool di ++ BitVec.ofBool mi).toNat = 2 * di.toNat + mi.toNat := by
  cases di <;> cases mi <;> rfl

/-! One lemma per list of fields, for a word of its format; `n` is an opcode that fits its field. -/

theorem tailFields_packV (opc : BitVec 6) (sz : BitVec 2) (q : BitVec 1) (vd vn vm : DReg) (imm : Imm8) :
    ∀ f ∈ tailFields vn.toNat vm.toNat imm.toNat, hasField (packV opc sz q vd vn vm imm) f := by
  simp [tailFields]

section opcode

variable {n : Nat} (hn : n < 64)

include hn

theorem headFields_packV (sz : Sz) (q : Bool) (vd vn vm : DReg) (imm : Imm8) :
    ∀ f ∈ headFields n (widthCode sz) q vd,
      hasField (packV (BitVec.ofNat 6 n) sz.field (BitVec.ofBool q) vd vn vm imm) f := by
  simpa [headFields, widthCode_eq] using hn

/-- Every format with the three common fields below `Vd` has its fields at their places. -/
theorem fields_packV (sz : Sz) (q : Bool) (vd vn vm : DReg) (imm : Imm8) :
    ∀ f ∈ headFields n (widthCode sz) q vd ++ tailFields vn.toNat vm.toNat imm.toNat,
      hasField (packV (BitVec.ofNat 6 n) sz.field (BitVec.ofBool q) vd vn vm imm) f :=
  List.forall_mem_append.mpr ⟨headFields_packV hn sz q vd vn vm imm, tailFields_packV _ _ _ vd vn vm imm⟩

theorem fieldsV2R_word (o : V2R) :
    ∀ f ∈ headFields n (widthCode o.sz) o.q o.vd ++ [(17, 1, 0), (13, 4, o.rs.toNat), (8, 5, o.vm.toNat), (0, 8, 0)],
      hasField (o.word (BitVec.ofNat 6 n)) f := by
  refine List.forall_mem_append.mpr ⟨headFields_packV hn o.sz o.q o.vd _ o.vm _, ?_⟩
  simp [V2R.word]

theorem fieldsV2S_word (o : V2S) :
    ∀ f ∈ headFields n 2 false o.vd ++ tailFields 0 o.vm.toNat (2 * o.di.toNat + o.mi.toNat),
      hasField (o.word (BitVec.ofNat 6 n)) f := by
  rw [← toNat_laneBits]
  exact fields_packV hn .s32 false o.vd 0 o.vm _

theorem fieldsLS_word {m : Nat} (hm : m < 4) (o : LS) :
    ∀ f ∈ fieldsLS n m o, hasField (o.word (BitVec.ofNat 6 n) (BitVec.ofNat 2 m)) f := by
  refine List.forall_mem_append.mpr ⟨?_, ?_⟩
  · simpa [headFields, LS.word, widthCode_eq] using ⟨hn, hm⟩
  · obtain ⟨sz, q, vd, rn, wb⟩ := o
    cases wb <;> simp [LS.word, Writeback.field, Writeback.stepField]

end opcode

/-- R84 and R86 for the encoder: the row's opcode and every field of its format, by the format of the row. -/
theorem fieldsOf_encode (i : Instr) : ∀ f ∈ fieldsOf i, hasField (encode i) f := by
  cases i with
  | vld1 o | vld2 o | vld3 o | vld4 o | vst1 o | vst2 o | vst3 o | vst4 o | vlddup o =>
    exact fieldsLS_word (by decide) (by decide) o
  | vadd o | vsub o | vqadd o | vqsub o | vmin o | vmax o | vpadd o | vpmax o | vpmin o | vmul o | vmla o | vmls o
  | vqdmulh o | vqrdmulh o | vcge o | vcgt o | vceq o | vtst o =>
    exact fields_packV (by decide) o.sz o.q o.vd o.vn o.vm 0
  | vmull o | vmlal o | vmlsl o => exact fields_packV (by decide) o.sz false o.vd o.vn o.vm 0
  | vqdmulhLane o | vqrdmulhLane o => exact fields_packV (by decide) o.sz o.q o.vd o.vn o.vm o.idx
  | vext o => exact fields_packV (by decide) o.sz o.q o.vd o.vn o.vm o.k
  | vbit o => exact fields_packV (by decide) .s8 o.q o.vd o.vn o.vm 0
  | vneg o | vabs o | vqneg o | vqabs o | vzip o | vuzp o | vtrn o | vcgez o | vcgtz o | vceqz o | vclz o | vcls o =>
    exact fields_packV (by decide) o.sz o.q o.vd 0 o.vm 0
  | vswp o => exact fields_packV (by decide) .s8 o.q o.vd 0 o.vm 0
  | vqshl o | vrshr o | vrev o | vdup o => exact fields_packV (by decide) o.sz o.q o.vd 0 o.vm o.imm
  | vqrshrn o => exact fields_packV (by decide) o.sz false o.vd 0 o.vm o.n
  | vcvtF32S32 o | vcvtS32F32 o => exact fields_packV (by decide) .s32 o.q o.vd 0 o.vm o.fbits
  | vsqrt o => exact fieldsV2S_word (by decide) o
  | vqshlr o => exact fieldsV2R_word (by decide) o

/-- Settles O3: a word that decodes is the encoding of what it decodes to, so it has the fields of that encoding. -/
theorem decodedFields : Obligations.DecodedFields := by
  intro w i h
  rw [← (encode_of_decode h).1]
  exact fieldsOf_encode i

/-! What the decoder asks of a word, in the numbers that the reserved encodings are stated with (R81, R82). -/

section numbers

variable (w : Word)

theorem fieldImm_toNat : (fieldImm w).toNat = immOf w := rfl

theorem fieldImm_eq_zero_iff : fieldImm w = 0#8 ↔ immOf w = 0 := BitVec.toNat_eq

theorem fieldSz_eq_zero_iff : fieldSz w = 0#2 ↔ szOf w = 0 := BitVec.toNat_eq

theorem fieldSz_eq_two_iff : fieldSz w = 2#2 ↔ szOf w = 2 := BitVec.toNat_eq

theorem fieldQ_eq_zero_iff : fieldQ w = 0#1 ↔ ¬qOf w = 1 := by
  have h : ∀ b : BitVec 1, b = 0#1 ↔ ¬b.toNat = 1 := by decide
  exact h _

/-- Bits 7:2 are zero when `imm8` writes nothing but the two lane bits of `V2S`. -/
theorem fieldImmHigh_eq_zero_iff : fieldImmHigh w = 0#6 ↔ ¬4 ≤ immOf w := by
  have hhigh : (fieldImmHigh w).toNat = immOf w / 4 := by
    simp only [immOf, fieldImmHigh, BitVec.extractLsb'_toNat, Nat.shiftRight_eq_div_pow]
    omega
  rw [BitVec.toNat_eq, hhigh]
  simp

theorem bits_wordSz : (wordSz w).bits = widthOf w := by
  have h : ∀ b : BitVec 2, (Sz.ofField b).bits = 2 ^ (3 + b.toNat) := by decide
  exact h _

theorem regBits_wordQ : regBits (wordQ w) = if qOf w = 1 then 128 else 64 := by
  have h : ∀ b : BitVec 1, regBits (bitSet b) = if b.toNat = 1 then 128 else 64 := by decide
  exact h _

theorem laneCount_word : laneCount (wordQ w) (wordSz w) = lanesOf w := by
  rw [laneCount, regBits_wordQ, bits_wordSz, lanesOf]

end numbers

/-! When each format's decoder gives an instruction: its fixed fields (R84), the width and the immediate are right. -/

section decoders

variable {w : Word}

theorem exists_ite_error_iff {c : Prop} [Decidable c] {e : DecodeError} {x : Except DecodeError Instr} :
    (∃ i, (if c then .error e else x) = .ok i) ↔ ¬c ∧ ∃ i, x = .ok i := by
  simp only [ite_error_eq_ok_iff, exists_and_left]

theorem decodeLS_iff {mk : LS → Instr} :
    (∃ i, decodeLS mk w = .ok i) ↔ fieldLow w = 0#6 ∧ (fieldRm w = 0#4 ∨ fieldWb w = 2#2) := by
  simp only [decodeLS, exists_ite_error_iff]
  simp [or_iff_not_imp_left]

/-- In opcodes `0x01` and `0x02` `nm1` selects the row and is never wrong. -/
theorem decodeLoad_iff :
    (∃ i, decodeLoad w = .ok i) ↔ fieldLow w = 0#6 ∧ (fieldRm w = 0#4 ∨ fieldWb w = 2#2) := by
  unfold decodeLoad
  split <;> exact decodeLS_iff

theorem decodeStore_iff :
    (∃ i, decodeStore w = .ok i) ↔ fieldLow w = 0#6 ∧ (fieldRm w = 0#4 ∨ fieldWb w = 2#2) := by
  unfold decodeStore
  split <;> exact decodeLS_iff

theorem decodeDup_iff :
    (∃ i, decodeDup w = .ok i) ↔ fieldNm1 w = 0#2 ∧ fieldLow w = 0#6 ∧ (fieldRm w = 0#4 ∨ fieldWb w = 2#2) := by
  simp only [decodeDup, exists_ite_error_iff, decodeLS_iff]
  simp

theorem decodeV3_iff {mk : V3 → Instr} {ok : Bool → Sz → Bool} :
    (∃ i, decodeV3 mk ok w = .ok i) ↔ fieldImm w = 0#8 ∧ ok (wordQ w) (wordSz w) = true := by
  simp only [decodeV3, exists_ite_error_iff]
  simp

theorem decodeV3B_iff {mk : V3B → Instr} : (∃ i, decodeV3B mk w = .ok i) ↔ fieldImm w = 0#8 ∧ fieldSz w = 0#2 := by
  simp [decodeV3B, exists_ite_error_iff]

theorem decodeV3W_iff {mk : V3W → Instr} :
    (∃ i, decodeV3W mk w = .ok i) ↔ (fieldImm w = 0#8 ∧ fieldQ w = 0#1) ∧ (wordSz w).isNarrow = true := by
  simp [decodeV3W, exists_ite_error_iff]

theorem decodeV3X_iff {mk : V3X → Instr} {immOk : Bool → Sz → Imm8 → Bool} :
    (∃ i, decodeV3X mk immOk w = .ok i) ↔ immOk (wordQ w) (wordSz w) (fieldImm w) = true := by
  simp [decodeV3X, exists_ite_error_iff]

theorem decodeV3L_iff {mk : V3L → Instr} :
    (∃ i, decodeV3L mk w = .ok i) ↔ (wordSz w).isFractional = true ∧ laneIdxOk (wordSz w) (fieldImm w) = true := by
  simp [decodeV3L, exists_ite_error_iff]

theorem decodeV2_iff {mk : V2 → Instr} {ok : Bool → Sz → Bool} :
    (∃ i, decodeV2 mk ok w = .ok i) ↔
      (fieldVn w = 0#5 ∧ fieldImm w = 0#8) ∧ ok (wordQ w) (wordSz w) = true := by
  simp [decodeV2, exists_ite_error_iff]

theorem decodeV2B_iff {mk : V2B → Instr} :
    (∃ i, decodeV2B mk w = .ok i) ↔ fieldVn w = 0#5 ∧ fieldImm w = 0#8 ∧ fieldSz w = 0#2 := by
  simp [decodeV2B, exists_ite_error_iff]

theorem decodeV2I_iff {mk : V2I → Instr} {immOk : Bool → Sz → Imm8 → Bool} :
    (∃ i, decodeV2I mk immOk w = .ok i) ↔
      fieldVn w = 0#5 ∧ immOk (wordQ w) (wordSz w) (fieldImm w) = true := by
  simp only [decodeV2I, exists_ite_error_iff]
  simp

theorem decodeV2N_iff {mk : V2N → Instr} :
    (∃ i, decodeV2N mk w = .ok i) ↔
      (fieldVn w = 0#5 ∧ fieldQ w = 0#1) ∧ (wordSz w).isNarrow = true ∧
        vqrshrnImmOk (wordSz w) (fieldImm w) = true := by
  simp [decodeV2N, exists_ite_error_iff]

theorem decodeV2F_iff {mk : V2F → Instr} :
    (∃ i, decodeV2F mk w = .ok i) ↔ (fieldVn w = 0#5 ∧ fieldSz w = 2#2) ∧ fbitsOk (fieldImm w) = true := by
  simp [decodeV2F, exists_ite_error_iff]

theorem decodeV2S_iff {mk : V2S → Instr} :
    (∃ i, decodeV2S mk w = .ok i) ↔ fieldVn w = 0#5 ∧ fieldSz w = 2#2 ∧ fieldQ w = 0#1 ∧ fieldImmHigh w = 0#6 := by
  simp [decodeV2S, exists_ite_error_iff]

theorem decodeV2R_iff {mk : V2R → Instr} :
    (∃ i, decodeV2R mk w = .ok i) ↔ fieldBit17 w = 0#1 ∧ fieldImm w = 0#8 := by
  simp [decodeV2R, exists_ite_error_iff]

end decoders

/-! The widths and immediates that a row admits (R85, R87). -/

section admitted

variable (w : Word)

theorem isNarrow_word : (wordSz w).isNarrow = true ↔ ¬szOf w = 3 := by
  have h : ∀ b : BitVec 2, (Sz.ofField b).isNarrow = true ↔ ¬b.toNat = 3 := by decide
  exact h _

theorem isFractional_word : (wordSz w).isFractional = true ↔ (¬szOf w = 1 → szOf w = 2) := by
  have h : ∀ b : BitVec 2, (Sz.ofField b).isFractional = true ↔ (¬b.toNat = 1 → b.toNat = 2) := by decide
  exact h _

theorem fractionalWidth_word : fractionalWidth (wordQ w) (wordSz w) = true ↔ (¬szOf w = 1 → szOf w = 2) :=
  isFractional_word w

theorem anyWidth_word : anyWidth (wordQ w) (wordSz w) = true := rfl

theorem hasLanePairs_word : hasLanePairs (wordQ w) (wordSz w) = true ↔ 1 < lanesOf w := by
  rw [hasLanePairs, laneCount_word, decide_eq_true_iff, Nat.succ_le_iff]

theorem vqshlImmOk_word : vqshlImmOk (wordSz w) (fieldImm w) = true ↔
    ¬((w.extractLsb' 0 8).toInt < -(widthOf w : Int) ∨ (widthOf w : Int) - 1 < (w.extractLsb' 0 8).toInt) := by
  simp [vqshlImmOk, bits_wordSz, fieldImm]

theorem vrshrImmOk_word : vrshrImmOk (wordSz w) (fieldImm w) = true ↔ ¬(immOf w = 0 ∨ widthOf w < immOf w) := by
  simp [vrshrImmOk, bits_wordSz, fieldImm_toNat, Nat.one_le_iff_ne_zero]

theorem vqrshrnImmOk_word :
    vqrshrnImmOk (wordSz w) (fieldImm w) = true ↔ ¬(immOf w = 0 ∨ 2 * widthOf w < immOf w) := by
  simp [vqrshrnImmOk, bits_wordSz, fieldImm_toNat, Nat.one_le_iff_ne_zero]

theorem vrevImmOk_word : vrevImmOk (wordQ w) (wordSz w) (fieldImm w) = true ↔
    ¬((immOf w ≠ 2 ∧ immOf w ≠ 4 ∧ immOf w ≠ 8) ∨ lanesOf w < immOf w) := by
  simp [vrevImmOk, laneCount_word, fieldImm_toNat, or_iff_not_imp_left]

theorem vextImmOk_word : vextImmOk (wordQ w) (wordSz w) (fieldImm w) = true ↔ ¬lanesOf w < immOf w := by
  simp [vextImmOk, laneCount_word, fieldImm_toNat]

theorem laneIdxOk_word : laneIdxOk (wordSz w) (fieldImm w) = true ↔ ¬64 / widthOf w ≤ immOf w := by
  simp [laneIdxOk, bits_wordSz, fieldImm_toNat]

theorem fbitsOk_word : fbitsOk (fieldImm w) = true ↔ ¬32 < immOf w := by
  rw [fbitsOk, fieldImm_toNat, decide_eq_true_iff, Nat.not_lt]

end admitted

/-! Which words are reserved (R88), and what issuing one does (R291). -/

theorem fieldOpc_toNat (w : Word) : (fieldOpc w).toNat = opcOf w := rfl

/-- Opcode by opcode (R86): what `reservedEncoding` says of the opcode is what its format's decoder refuses. -/
theorem decode_iff_not_reserved (w : Word) : (∃ i, decode w = .ok i) ↔ ¬reservedEncoding w := by
  simp only [reservedEncoding, fixedFieldWrong, widthNotAdmitted, immediateOutOfRange, usedOpcodes, noImmediate,
    noSecondSource, List.cons_append, List.nil_append, List.mem_cons, List.not_mem_nil, or_false]
  unfold decode
  rw [fieldOpc_toNat]
  generalize opcOf w = n
  split
  -- No row has the opcode.
  case h_51 =>
    refine iff_of_false (by simp) (not_not.mpr (.inl ?_))
    simp only [not_or]
    and_intros <;> assumption
  -- On a given opcode only its own conditions are left of `reservedEncoding`.
  all_goals simp only [Nat.reduceEqDiff, or_false, false_or, false_and, or_true, true_and, not_true]
  -- Format `LS`.
  case h_1 => simp [decodeLoad_iff, fieldLow, fieldRm, fieldWb, or_iff_not_imp_left]
  case h_2 => simp [decodeStore_iff, fieldLow, fieldRm, fieldWb, or_iff_not_imp_left]
  case h_3 => simp [decodeDup_iff, fieldNm1, fieldLow, fieldRm, fieldWb, or_iff_not_imp_left, and_comm, and_left_comm]
  -- Formats `V3`, by their widths, and `V3B`.
  case h_4 | h_5 | h_6 | h_7 | h_15 | h_16 | h_20 | h_21 | h_22 | h_37 | h_38 | h_39 | h_43 =>
    simp [decodeV3_iff, fieldImm_eq_zero_iff, anyWidth_word]
  case h_17 | h_18 | h_19 => simp [decodeV3_iff, fieldImm_eq_zero_iff, hasLanePairs_word]
  case h_26 | h_27 => simp [decodeV3_iff, fieldImm_eq_zero_iff, fractionalWidth_word]
  case h_44 => simp [decodeV3B_iff, fieldImm_eq_zero_iff, fieldSz_eq_zero_iff]
  -- Formats `V3W`, `V3X` and `V3L`.
  case h_23 | h_24 | h_25 =>
    simp [decodeV3W_iff, fieldImm_eq_zero_iff, fieldQ_eq_zero_iff, isNarrow_word, and_assoc]
  case h_34 => simp [decodeV3X_iff, vextImmOk_word]
  case h_28 | h_29 => simp [decodeV3L_iff, isFractional_word, laneIdxOk_word]
  -- Formats `V2`, by their widths, and `V2B`.
  case h_8 | h_9 | h_10 | h_11 | h_40 | h_41 | h_42 | h_45 | h_46 =>
    simp [decodeV2_iff, fieldVn, fieldImm_eq_zero_iff, anyWidth_word, and_comm]
  case h_31 | h_32 | h_33 =>
    simp [decodeV2_iff, fieldVn, fieldImm_eq_zero_iff, hasLanePairs_word, and_comm]
  case h_36 => simp [decodeV2B_iff, fieldVn, fieldImm_eq_zero_iff, fieldSz_eq_zero_iff, and_left_comm]
  -- Format `V2I`, by the row's range of immediates.
  case h_12 => simp [decodeV2I_iff, fieldVn, vqshlImmOk_word]
  case h_14 => simp [decodeV2I_iff, fieldVn, vrshrImmOk_word]
  case h_30 => simp [decodeV2I_iff, fieldVn, vrevImmOk_word]
  case h_35 => simp [decodeV2I_iff, fieldVn, laneIdxOk_word]
  -- Formats `V2N`, `V2F`, `V2S` and `V2R`.
  case h_47 => simp [decodeV2N_iff, fieldVn, fieldQ_eq_zero_iff, isNarrow_word, vqrshrnImmOk_word, and_assoc]
  case h_48 | h_49 => simp [decodeV2F_iff, fieldVn, fieldSz_eq_two_iff, fbitsOk_word, and_assoc]
  case h_50 =>
    simp [decodeV2S_iff, fieldVn, fieldSz_eq_two_iff, fieldQ_eq_zero_iff, fieldImmHigh_eq_zero_iff, and_left_comm]
  case h_13 => simp [decodeV2R_iff, fieldBit17, fieldImm_eq_zero_iff, and_comm]

/-- Settles O4: a reserved word is one that does not decode, so the issue port raises `IllegalInstruction`; any other
decodes to a well-formed instruction. -/
theorem reservedEncodingsAreIllegal : Obligations.ReservedEncodingsAreIllegal := by
  refine ⟨fun w s hs => ⟨fun hres => ?_, fun hdef => ?_⟩, .inl (by decide), .inl (by decide)⟩
  · cases hd : decode w with
    | error e => exact ⟨_, issueWord_illegal hs hd, faultEntered_takeFault .illegalInstruction w 0 s⟩
    | ok i => exact absurd hres ((decode_iff_not_reserved w).mp ⟨i, hd⟩)
  · obtain ⟨i, hi⟩ := (decode_iff_not_reserved w).mpr hdef
    exact ⟨i, hi, (encode_of_decode hi).2, issueWord_ok hs hi⟩

/-! The worked encodings (R93). -/

/-- Settles O5: the decoder run on the three words; what each decodes to has that word as its encoding. -/
theorem workedEncodings : Obligations.WorkedEncodings := by
  have hvqadd : decode 0x2A804400 = .ok (.vqadd { sz := .s32, q := true, vd := 0, vn := 2, vm := 4 }) := rfl
  have hvld2 : decode 0x06801040 = .ok (.vld2 { sz := .s32, q := true, vd := 0, rn := 0, wb := .postInc }) := rfl
  have hvqshl : decode 0x410C05FE = .ok (.vqshl { sz := .s16, q := false, vd := 3, vm := 5, imm := 0xFE }) := rfl
  exact ⟨hvqadd, hvld2, hvqshl, (encode_of_decode hvqadd).1, (encode_of_decode hvld2).1, (encode_of_decode hvqshl).1⟩

end Sys2Proof.Machine

/-! Obligations O21 to O24 (40_load_store.md): what the structured loads and stores, the duplicate load and the base
writeback do. -/

namespace Sys2Proof.Machine

/-! The structured loads and stores. -/

/-- Settles O21: each is the load of its group size. -/
theorem structuredLoads : Obligations.StructuredLoads := fun _ _ =>
  ⟨ruleLoad_of_loadGroup rfl, ruleLoad_of_loadGroup rfl, ruleLoad_of_loadGroup rfl, ruleLoad_of_loadGroup rfl⟩

/-- Settles O22: each is the store of its group size. -/
theorem structuredStores : Obligations.StructuredStores := fun _ _ =>
  ⟨ruleStore_of_storeGroup rfl, ruleStore_of_storeGroup rfl, ruleStore_of_storeGroup rfl, ruleStore_of_storeGroup rfl⟩

/-! The duplicate load (R132). -/

section duplicate

variable {o : LS} {s u : State}

/-- An effect that completes, followed by the base writeback, completes with the base register as one more destination. -/
theorem completed_writeback {dst : DReg → Prop} {bytes : Nat → Prop} {T : Nat}
    (h : completed dst (fun _ => False) bytes s u.advance) :
    completed dst (fun j => j = o.rn) bytes s (o.writeback T s u).advance := by
  obtain ⟨hpc, hcontrol, hD, hR, hmem⟩ := h
  refine ⟨by simpa using hpc, by simpa [sameControl] using hcontrol, fun j hj => by simpa using hD j hj, ?_,
    fun a ha => by simpa using hmem a ha⟩
  have hR' : ∀ k, u.readR k = s.readR k := fun k => hR k not_false
  exact fun j hj => readR_writeback_of_ne hR' hj

/-- With legal registers and a legal transfer, `VLDDUP` puts the element at the base address in every lane of its
register, byte by byte (R52). -/
theorem execVlddup_completes (hg : groupLegal o.vd o.q 1) (ht : transferLegal o o.sz.bytes s) :
    ∃ t, exec (.vlddup o) s = .next t ∧ completed (inOperand o.vd o.q) (fun j => j = o.rn) (fun _ => False) s t ∧
      writtenBack o o.sz.bytes s t ∧
      ∀ k b, k < laneCount o.q o.sz → b < o.sz.bytes →
        (lane o.sz.bits (t.readV o.vd o.q) k).extractLsb' (8 * b) 8 = s.readMem ((o.base s).toNat + b) := by
  refine ⟨_, transfer_ok _ hg ht, completed_writeback (completedD_writeV ..), writtenBack_writeback (by simp), ?_⟩
  intro k b hk hb
  rw [State.advance_readV, LS.writeback_readV, State.lane_readV_writeV _ _ _ _ _ hk, extractLsb'_readElem _ _ _ hb,
    State.readMem]

/-- To refuse a word it is enough that its encoding is reserved (R88, R291). -/
theorem refuses_of_reserved {opc : Nat} {bad : Word → Prop} (h : ∀ w, opcOf w = opc → bad w → reservedEncoding w) :
    refuses opc bad :=
  fun w s hs hopc hbad => (reservedEncodingsAreIllegal.1 w s hs).1 (h w hopc hbad)

/-- The fields that format `LS` fixes, and the `nm1` of `VLDDUP` (R84, R88). -/
theorem reservedEncoding_of_vlddup {w : Word} (hopc : opcOf w = 0x03)
    (h : w.extractLsb' 6 2 ≠ 0 ∨ (w.extractLsb' 8 4 ≠ 0 ∧ w.extractLsb' 12 2 ≠ 2) ∨ w.extractLsb' 0 6 ≠ 0) :
    reservedEncoding w := by
  have hLS : opcOf w ∈ [0x01, 0x02, 0x03] := by simp [hopc]
  refine .inr (.inl ?_)
  obtain hnm1 | hstep | hlow := h
  · exact .inr (.inl ⟨hopc, hnm1⟩)
  · exact .inl ⟨hLS, .inr hstep⟩
  · exact .inl ⟨hLS, .inl hlow⟩

end duplicate

/-- Settles O23: the effect, the faults every transfer has, and the reserved encodings. -/
theorem duplicateLoad : Obligations.DuplicateLoad :=
  ⟨fun _ _ => ⟨execVlddup_completes, ruleTransferFaults_of_transfer rfl⟩,
    refuses_of_reserved fun _ => reservedEncoding_of_vlddup⟩

/-! The base writeback (R122). -/

section baseRegister

variable {i : Instr} {o : LS} {n T : Nat} {s u : State}

/-- `i` executes as a transfer of `T` bytes for a group of `n`, whose effect `u` has the `pc` and the R registers of `s`:
what happens to them is left to `transfer`. -/
def ExecTransfers (i : Instr) (o : LS) (n T : Nat) (s : State) : Prop :=
  ∃ u, exec i s = transfer (encode i) o n T s u ∧ u.pc = s.pc ∧ ∀ j, u.readR j = s.readR j

theorem execTransfers_of_loadGroup (he : exec i s = loadGroup (encode i) o n s) :
    ExecTransfers i o n (groupBytes o n) s := by
  rw [loadGroup, bytes_eq] at he
  exact ⟨_, he, by simp, by simp⟩

theorem execTransfers_of_storeGroup (he : exec i s = storeGroup (encode i) o n s) :
    ExecTransfers i o n (groupBytes o n) s := by
  rw [storeGroup, bytes_eq] at he
  exact ⟨_, he, by simp, by simp⟩

/-- Every load and store executes as the transfer that `transferOf` names, and its registers are legal when the group
is. -/
theorem execTransfers_of_transferOf (h : transferOf i = some (o, n, T)) :
    ExecTransfers i o n T s ∧ (registersLegal i ↔ groupLegal o.vd o.q n) := by
  cases i with
  | vld1 _ | vld2 _ | vld3 _ | vld4 _ => cases h; exact ⟨execTransfers_of_loadGroup rfl, .rfl⟩
  | vst1 _ | vst2 _ | vst3 _ | vst4 _ => cases h; exact ⟨execTransfers_of_storeGroup rfl, .rfl⟩
  | vlddup _ => cases h; exact ⟨⟨_, rfl, by simp, by simp⟩, .rfl⟩
  | _ => cases h

/-- A transfer that is not legal takes a fault, which leaves `pc` and the R registers as they were (R296, R297). -/
theorem transfer_faults {inst : Word} (h : ¬(groupLegal o.vd o.q n ∧ transferLegal o T s)) :
    ∃ t, transfer inst o n T s u = .next t ∧ t.pc = s.pc ∧ ∀ j, t.readR j = s.readR j := by
  obtain ⟨hok, hnone, -⟩ | ⟨-, he⟩ | ⟨-, c, -, -, he⟩ := transfer_cases inst o n T s u
  · exact absurd ⟨regsOk_iff.mp hok, transferFault_eq_none.mp hnone⟩ h
  · exact ⟨_, he, rfl, fun _ => rfl⟩
  · exact ⟨_, he, rfl, fun _ => rfl⟩

end baseRegister

/-- Settles O24: the writeback is `transfer`'s own, so it is the same for every load and store. -/
theorem baseWriteback : Obligations.BaseWriteback := by
  intro i s o n T h
  obtain ⟨⟨u, he, hpc, hR⟩, hlegal⟩ := execTransfers_of_transferOf (s := s) h
  rw [hlegal, he]
  refine ⟨fun ⟨hg, ht⟩ => ?_, transfer_faults⟩
  exact ⟨_, transfer_ok u hg ht, by simp [hpc], writtenBack_writeback hR, fun j => readR_writeback_of_ne hR⟩

end Sys2Proof.Machine

/-! Obligations O27 to O32 and O34 to O36 (41_arithmetic.md). The templates of R150 and R172 carry the registers, the frame
and the fault; what is left of each instruction is what its lane function computes. -/

namespace Sys2Proof.Machine

/-! The lane functions that the rules state by cases. -/

section laneFunctions

variable {w : Nat} (x y : BitVec w)

/-- The smaller lane, the first when they are equal (R170). -/
theorem laneMin_spec : (x.toInt ≤ y.toInt → laneMin x y = x) ∧ (y.toInt < x.toInt → laneMin x y = y) :=
  ⟨fun h => if_pos h, fun h => if_neg (not_le.mpr h)⟩

/-- The greater lane, the first when they are equal (R171). -/
theorem laneMax_spec : (y.toInt ≤ x.toInt → laneMax x y = x) ∧ (x.toInt < y.toInt → laneMax x y = y) :=
  ⟨fun h => if_pos h, fun h => if_neg (not_le.mpr h)⟩

/-- Both directions of the shift (R165), for every amount. -/
theorem shlSat_spec (hw : 0 < w) (s : Int) :
    (0 ≤ s → satsTo (shlSat x s) (x.toInt * 2 ^ s.toNat)) ∧
      (s < 0 → (shlSat x s).toInt = x.toInt / 2 ^ (-s).toNat) :=
  ⟨satsTo_shlSat hw x, toInt_shlSat_neg hw x⟩

end laneFunctions

/-! Immediates and widths (R85, R87). -/

/-- The amounts that `VRSHR` admits. -/
theorem vrshrImmOk_iff {sz : Sz} {imm : Imm8} :
    vrshrImmOk sz imm = true ↔ 1 ≤ imm.toNat ∧ imm.toNat ≤ sz.bits := by
  simp [vrshrImmOk]

theorem reservedEncoding_of_immediate {w : Word} (h : immediateOutOfRange w) : reservedEncoding w :=
  .inr (.inr (.inr h))

/-- A D register of 64-bit lanes has no pair of lanes, which the pairwise, zip, unzip and transpose instructions need. -/
theorem reservedEncoding_of_single_lane {w : Word} (hopc : opcOf w ∈ [0x15, 0x16, 0x17, 0x25, 0x26, 0x27])
    (hsz : szOf w = 3) (hq : qOf w = 0) : reservedEncoding w := by
  have hlanes : lanesOf w < 2 := by simp [lanesOf, widthOf, hsz, hq]
  exact .inr (.inr (.inl (.inl ⟨hopc, hlanes⟩)))

/-! Add, subtract, negate, absolute value. -/

/-- Settles O27: the three-register template with a lane function that is `wrap` of the sum, of the difference. -/
theorem wrappingAddSubtract : Obligations.WrappingAddSubtract := fun _ _ =>
  ⟨rule3_of_lanewise3 (g := laneAdd) rfl fun _ _ _ => wrapsTo_wrap _ _,
    rule3_of_lanewise3 (g := laneSub) rfl fun _ _ _ => wrapsTo_wrap _ _⟩

/-- Settles O28: the same with `sat`, whose clamp is the rule's at every lane width. -/
theorem saturatingAddSubtract : Obligations.SaturatingAddSubtract := fun o _ =>
  ⟨rule3_of_lanewise3 (g := laneQadd) rfl fun _ _ _ => satsTo_sat o.sz.bits_pos _,
    rule3_of_lanewise3 (g := laneQsub) rfl fun _ _ _ => satsTo_sat o.sz.bits_pos _⟩

/-- Settles O29: the two-register template with a lane function that is `wrap` of the exact value. -/
theorem wrappingNegateAbsolute : Obligations.WrappingNegateAbsolute := fun _ _ =>
  ⟨rule2_of_lanewise2 (g := laneNeg) V2.regsOk_iff rfl fun _ => wrapsTo_wrap _ _,
    rule2_of_lanewise2 (g := laneAbs) V2.regsOk_iff rfl fun _ => wrapsTo_wrap _ _⟩

/-- Settles O30: the same with `sat`. -/
theorem saturatingNegateAbsolute : Obligations.SaturatingNegateAbsolute := fun o _ =>
  ⟨rule2_of_lanewise2 (g := laneQneg) V2.regsOk_iff rfl fun _ => satsTo_sat o.sz.bits_pos _,
    rule2_of_lanewise2 (g := laneQabs) V2.regsOk_iff rfl fun _ => satsTo_sat o.sz.bits_pos _⟩

/-! Shifts. -/

/-- Settles O31: the effect, which needs no bound on the amount, and the reserved amounts. -/
theorem shiftImmediate : Obligations.ShiftImmediate :=
  ⟨fun o _ _ => rule2_of_lanewise2 (g := fun x => shlSat x o.imm.toInt) V2I.regsOk_iff rfl
      fun x => shlSat_spec x o.sz.bits_pos _,
    refuses_of_reserved fun _ hopc hbad => reservedEncoding_of_immediate (.inl ⟨hopc, hbad⟩)⟩

/-- Settles O32: the same shift, by the amount that the R register holds before the instruction. -/
theorem shiftRegister : Obligations.ShiftRegister := fun o s =>
  rule2_of_lanewise2 (g := fun x => shlSat x (s.readR o.rs).toInt) V2R.regsOk_iff rfl
    fun x => shlSat_spec x o.sz.bits_pos _

/-- Settles O34: an admitted amount is at least 1 and at most `w`, so the rounded lane fits and nothing wraps. -/
theorem roundingShift : Obligations.RoundingShift := by
  refine ⟨fun o s hwf => ?_, refuses_of_reserved fun w hopc hbad => ?_⟩
  · obtain ⟨hpos, hle⟩ := vrshrImmOk_iff.mp hwf
    exact rule2_of_lanewise2 (g := fun x => laneRshr x o.imm.toNat) V2I.regsOk_iff rfl
      fun x => toInt_laneRshr x hpos hle
  · exact reservedEncoding_of_immediate (.inr (.inl ⟨hopc, hbad⟩))

/-! Minimum, maximum and the pairwise instructions. -/

/-- Settles O35: the three-register template, whose lanes are the smaller, the greater. -/
theorem minimumMaximum : Obligations.MinimumMaximum := fun _ _ =>
  ⟨rule3_of_lanewise3 (g := laneMin) rfl fun _ => laneMin_spec,
    rule3_of_lanewise3 (g := laneMax) rfl fun _ => laneMax_spec⟩

/-- Settles O36: the pairwise template with the lane functions of `VADD`, `VMAX` and `VMIN`; a register of one lane is
reserved. -/
theorem pairwiseReduce : Obligations.PairwiseReduce := by
  refine ⟨fun o s hpairs => ⟨?_, ?_, ?_⟩, fun opc hmem => refuses_of_reserved fun w hopc ⟨hsz, hq⟩ => ?_⟩
  · exact rulePairs_of_pairwise3 (g := laneAdd) hpairs rfl fun _ _ => wrapsTo_wrap _ _
  · exact rulePairs_of_pairwise3 (g := laneMax) hpairs rfl laneMax_spec
  · exact rulePairs_of_pairwise3 (g := laneMin) hpairs rfl laneMin_spec
  · rw [← hopc] at hmem
    exact reservedEncoding_of_single_lane (List.mem_append_left [0x25, 0x26, 0x27] hmem) hsz hq

end Sys2Proof.Machine

/-! Obligations O37 to O41 (42_multiply.md). The templates of R150, R194 and R202 carry the registers, the frame and the
fault; what is left of each instruction is what its lane function computes. -/

namespace Sys2Proof.Machine

/-! The doubling multiplies on lanes (R198, R199). With `m = 2^(w-1)`, both are `sat` of `(x*y + c) / m` for a rounding term
`c` from 0 up to, but not including, `m`. -/

section doubling

/-- Doubling the product and dividing by `2^w` is dividing by `2^(w-1)` (R198). -/
theorem two_mul_ediv_two_pow {w : Nat} (hw : 0 < w) (z : Int) : 2 * z / 2 ^ w = z / 2 ^ (w - 1) := by
  obtain ⟨n, rfl⟩ : ∃ n, w = n + 1 := ⟨w - 1, by omega⟩
  rw [pow_succ', Nat.add_sub_cancel]
  exact Int.mul_ediv_mul_of_pos z _ two_pos

/-- `MIN * MIN` is `m * m`; every other product is at least `m` below it, and none is below `-(m * (m - 1))`. -/
theorem mul_bounds_of_not_both_min {m a b : Int} (ha : -m ≤ a ∧ a ≤ m - 1) (hb : -m ≤ b ∧ b ≤ m - 1)
    (h : ¬(a = -m ∧ b = -m)) : -(m * (m - 1)) ≤ a * b ∧ a * b ≤ m * (m - 1) := by
  obtain ⟨ha1, ha2⟩ := ha
  obtain ⟨hb1, hb2⟩ := hb
  have hm : 1 ≤ m := by omega
  constructor
  · obtain hsign | hsign := le_total 0 a <;> nlinarith
  · obtain rfl | ha' : a = -m ∨ -m + 1 ≤ a := by omega
    · have hb' : -m + 1 ≤ b := by omega
      nlinarith
    · nlinarith

/-- The lanes whose product the doubling multiplies cannot represent. -/
def bothMin {w : Nat} (x y : BitVec w) : Prop := x.toInt = -(2 ^ (w - 1)) ∧ y.toInt = -(2 ^ (w - 1))

variable {w : Nat} {x y : BitVec w}

theorem mul_toInt_bounds (h : ¬bothMin x y) :
    -(2 ^ (w - 1) * (2 ^ (w - 1) - 1)) ≤ x.toInt * y.toInt ∧ x.toInt * y.toInt ≤ 2 ^ (w - 1) * (2 ^ (w - 1) - 1) :=
  mul_bounds_of_not_both_min (toInt_bounds x) (toInt_bounds y) h

/-- For any other pair of lanes the high half with rounding term `c` fits and is exact. -/
theorem toInt_sat_high_of_not_bothMin (hw : 0 < w) (h : ¬bothMin x y) {c : Int} (hc : 0 ≤ c) (hcm : c < 2 ^ (w - 1)) :
    (sat w (asr (x.toInt * y.toInt + c) (w - 1))).toInt = (x.toInt * y.toInt + c) / 2 ^ (w - 1) := by
  obtain ⟨hlow, hhigh⟩ := mul_toInt_bounds h
  have hm : (0 : Int) < 2 ^ (w - 1) := by positivity
  refine toInt_sat_of_fits hw ?_ (Int.le_sub_one_of_lt ?_)
  · rw [asr, Int.le_ediv_iff_mul_le hm]; nlinarith
  · rw [asr, Int.ediv_lt_iff_lt_mul hm]; nlinarith

/-- `MIN * MIN` gives `m`, one more than `MAX`. -/
theorem toInt_sat_high_of_bothMin (hw : 0 < w) (h : bothMin x y) {c : Int} (hc : 0 ≤ c) (hcm : c < 2 ^ (w - 1)) :
    (sat w (asr (x.toInt * y.toInt + c) (w - 1))).toInt = 2 ^ (w - 1) - 1 := by
  have hm : (0 : Int) < 2 ^ (w - 1) := by positivity
  have hhigh : asr (x.toInt * y.toInt + c) (w - 1) = 2 ^ (w - 1) := by
    rw [asr, h.1, h.2, neg_mul_neg, Int.add_comm, Int.add_mul_ediv_right _ _ hm.ne', Int.ediv_eq_zero_of_lt hc hcm,
      zero_add]
  rw [hhigh, toInt_sat hw, minInt, maxInt]
  omega

/-! The two lane functions. -/

/-- The rounding term of R199 is half of `m`. -/
theorem two_mul_two_pow_sub_two (hw : 2 ≤ w) : (2 : Int) * 2 ^ (w - 2) = 2 ^ (w - 1) := by
  rw [← pow_succ']; congr 1; omega

theorem satsTo_qdmulh (hw : 0 < w) (x y : BitVec w) : satsTo (qdmulh x y) (2 * x.toInt * y.toInt / 2 ^ w) := by
  rw [mul_assoc, two_mul_ediv_two_pow hw]
  exact satsTo_sat hw _

theorem satsTo_qrdmulh (hw : 0 < w) (x y : BitVec w) :
    satsTo (qrdmulh x y) ((x.toInt * y.toInt + 2 ^ (w - 2)) / 2 ^ (w - 1)) :=
  satsTo_sat hw _

/-- The truncated form is the one with rounding term 0. -/
theorem qdmulh_spec (hw : 2 ≤ w) :
    (bothMin x y → (qdmulh x y).toInt = 2 ^ (w - 1) - 1) ∧
      (¬bothMin x y → (qdmulh x y).toInt = x.toInt * y.toInt / 2 ^ (w - 1)) := by
  have hpos : 0 < w := by omega
  have hm : (0 : Int) < 2 ^ (w - 1) := by positivity
  rw [qdmulh, ← Int.add_zero (x.toInt * y.toInt)]
  exact ⟨fun h => toInt_sat_high_of_bothMin hpos h le_rfl hm,
    fun h => toInt_sat_high_of_not_bothMin hpos h le_rfl hm⟩

theorem qrdmulh_spec (hw : 2 ≤ w) :
    (bothMin x y → (qrdmulh x y).toInt = 2 ^ (w - 1) - 1) ∧
      (¬bothMin x y → (qrdmulh x y).toInt = (x.toInt * y.toInt + 2 ^ (w - 2)) / 2 ^ (w - 1)) := by
  have hpos : 0 < w := by omega
  have hc : (0 : Int) < 2 ^ (w - 2) := by positivity
  have hcm : (2 : Int) ^ (w - 2) < 2 ^ (w - 1) := by have := two_mul_two_pow_sub_two hw; omega
  exact ⟨fun h => toInt_sat_high_of_bothMin hpos h hc.le hcm,
    fun h => toInt_sat_high_of_not_bothMin hpos h hc.le hcm⟩

/-- The doubled form of the rounded formula (R199). -/
theorem doubled_add_ediv_two_pow (hw : 2 ≤ w) (a b : Int) :
    (2 * a * b + 2 ^ (w - 1)) / 2 ^ w = (a * b + 2 ^ (w - 2)) / 2 ^ (w - 1) := by
  have hdouble : 2 * a * b + 2 ^ (w - 1) = 2 * (a * b + 2 ^ (w - 2)) := by
    rw [mul_add, two_mul_two_pow_sub_two hw, mul_assoc]
  rw [hdouble, two_mul_ediv_two_pow (by omega)]

end doubling

theorem two_le_bits (sz : Sz) : 2 ≤ sz.bits := by cases sz <;> decide

/-- An instruction of the three-register template, with legal registers, completes with its lane function in every
lane. -/
theorem lanes_of_lanewise3 {i : Instr} {o : V3} {s : State}
    {g : BitVec o.sz.bits → BitVec o.sz.bits → BitVec o.sz.bits} (he : exec i s = lanewise3 (encode i) o g s)
    (hlegal : kindLegal o.q o.vd ∧ kindLegal o.q o.vn ∧ kindLegal o.q o.vm) :
    ∃ t, exec i s = .next t ∧ ∀ k, k < laneCount o.q o.sz →
      lane o.sz.bits (t.readV o.vd o.q) k =
        g (lane o.sz.bits (s.readV o.vn o.q) k) (lane o.sz.bits (s.readV o.vm o.q) k) := by
  have hrule : rule3 i o s fun _ x y r => r = g x y := rule3_of_lanewise3 he fun _ _ _ => rfl
  obtain ⟨t, hnext, -, hlanes⟩ := hrule.1 hlegal
  exact ⟨t, hnext, hlanes⟩

/-! The reserved encodings (R84, R85, R87). -/

/-- The widening multiplies have no 64-bit form, no `Q` and no immediate. -/
theorem reservedEncoding_of_wide {w : Word} (hopc : opcOf w ∈ [0x1B, 0x1C, 0x1D])
    (h : szOf w = 3 ∨ qOf w = 1 ∨ immOf w ≠ 0) : reservedEncoding w := by
  obtain hsz | hq | himm := h
  · exact .inr (.inr (.inl (.inr (.inl ⟨List.mem_append_left [0x36] hopc, hsz⟩))))
  · exact .inr (.inl (.inr (.inr (.inr (.inr (.inr (.inl ⟨List.mem_append_left [0x36, 0x39] hopc, hq⟩)))))))
  · have hnoImm : [0x1B, 0x1C, 0x1D] ⊆ noImmediate := by decide
    exact .inr (.inl (.inr (.inr (.inl ⟨hnoImm hopc, himm⟩))))

/-- The doubling multiplies have neither an 8-bit nor a 64-bit form. -/
theorem reservedEncoding_of_not_fractional {w : Word} (hopc : opcOf w ∈ [0x1E, 0x1F, 0x20, 0x21])
    (h : szOf w = 0 ∨ szOf w = 3) : reservedEncoding w :=
  .inr (.inr (.inl (.inr (.inr ⟨hopc, by omega⟩))))

/-- A lane index past the D register. -/
theorem reservedEncoding_of_laneIndex {w : Word} (hopc : opcOf w ∈ [0x20, 0x21, 0x29]) (h : 64 / widthOf w ≤ immOf w) :
    reservedEncoding w :=
  reservedEncoding_of_immediate (.inr (.inr (.inr (.inr (.inr (.inl ⟨hopc, h⟩))))))

/-! Multiply and multiply-accumulate. -/

/-- Settles O37: the three-register template, plain and accumulating, with `wrap` of the exact value. -/
theorem multiplyAccumulate : Obligations.MultiplyAccumulate := fun _ _ =>
  ⟨rule3_of_lanewise3 (g := laneMul) rfl fun _ _ _ => wrapsTo_wrap _ _,
    rule3_of_accumulate3 (g := laneMla) rfl fun _ _ _ => wrapsTo_wrap _ _,
    rule3_of_accumulate3 (g := laneMls) rfl fun _ _ _ => wrapsTo_wrap _ _⟩

/-- Settles O38: the widening template; the product of two lanes fits the double width, so `VMULL` is exact. -/
theorem wideningMultiply : Obligations.WideningMultiply := by
  refine ⟨fun o s hnarrow => ⟨?_, ?_, ?_⟩, fun opc hmem => refuses_of_reserved fun w hopc hbad => ?_⟩
  · exact ruleWide_of_widening (g := fun _ => laneMull) hnarrow rfl fun _ => toInt_laneMull o.sz.bits_pos
  · exact ruleWide_of_widening (g := laneMlal) hnarrow rfl fun _ _ _ => wrapsTo_wrap _ _
  · exact ruleWide_of_widening (g := laneMlsl) hnarrow rfl fun _ _ _ => wrapsTo_wrap _ _
  · exact reservedEncoding_of_wide (hopc ▸ hmem) hbad

/-! The doubling multiplies. -/

/-- Settles O39: the three-register template with `sat` of the floor; the other widths are reserved. -/
theorem doublingMultiplyHigh : Obligations.DoublingMultiplyHigh := by
  refine ⟨fun o s _ => ⟨?_, ?_⟩, fun opc hmem => refuses_of_reserved fun w hopc hbad => ?_⟩
  · exact rule3_of_lanewise3 (g := qdmulh) rfl fun _ => satsTo_qdmulh o.sz.bits_pos
  · exact rule3_of_lanewise3 (g := qrdmulh) rfl fun _ => satsTo_qrdmulh o.sz.bits_pos
  · rw [← hopc] at hmem
    exact reservedEncoding_of_not_fractional (List.mem_append_left [0x20, 0x21] hmem) hbad

/-- Settles O40: the by-lane template with the same lane functions; the other widths and lane indices are reserved. -/
theorem doublingMultiplyHighByLane : Obligations.DoublingMultiplyHighByLane := by
  refine ⟨fun o s _ => ⟨?_, ?_⟩, fun opc hmem => refuses_of_reserved fun w hopc hbad => ?_⟩
  · exact ruleByLane_of_byLane (g := qdmulh) rfl (satsTo_qdmulh o.sz.bits_pos)
  · exact ruleByLane_of_byLane (g := qrdmulh) rfl (satsTo_qrdmulh o.sz.bits_pos)
  · rw [← hopc] at hmem
    obtain hwidth | hidx := or_assoc.mpr hbad
    · exact reservedEncoding_of_not_fractional (List.mem_append_right [0x1E, 0x1F] hmem) hwidth
    · exact reservedEncoding_of_laneIndex (List.mem_append_left [0x29] hmem) hidx

/-- Settles O41: the lanes of both results are the lane functions', which saturate for `MIN` and `MIN` alone; the doubled
forms of the formulas are the same floors. -/
theorem doublingSaturatesOnlyAtMinimum : Obligations.DoublingSaturatesOnlyAtMinimum := by
  intro o s _ hvd hvn hvm
  obtain ⟨t, ht, htrunc⟩ := lanes_of_lanewise3 (i := .vqdmulh o) (s := s) (g := qdmulh) rfl ⟨hvd, hvn, hvm⟩
  obtain ⟨u, hu, hround⟩ := lanes_of_lanewise3 (i := .vqrdmulh o) (s := s) (g := qrdmulh) rfl ⟨hvd, hvn, hvm⟩
  have hw := two_le_bits o.sz
  refine ⟨t, u, ht, hu, fun k hk => ?_⟩
  dsimp only
  rw [htrunc k hk, hround k hk, doubled_add_ediv_two_pow hw, mul_assoc 2, two_mul_ediv_two_pow o.sz.bits_pos]
  obtain ⟨htMin, htExact⟩ := qdmulh_spec hw
  obtain ⟨hrMin, hrExact⟩ := qrdmulh_spec hw
  exact ⟨fun h => ⟨htMin h, hrMin h⟩, fun h => ⟨htExact h, htExact h, hrExact h, hrExact h⟩⟩

end Sys2Proof.Machine

/-! Obligations O42 to O45 and O47 to O49 (43_shuffle.md). What an instruction does to the registers, its frame and its
fault come from how many operands it writes; what is left of each instruction is where every lane comes from. -/

namespace Sys2Proof.Machine

/-! One destination written from its lanes. -/

/-- An instruction that writes the operand `V(r, q)` lane by lane completes with those lanes. -/
theorem lanes_of_completeIf_writeV {i : Instr} {sz : Sz} {q : Bool} {r : DReg} {s : State} {ok : Bool} {legal : Prop}
    {f : Nat → BitVec sz.bits} (hok : ok = true ↔ legal)
    (he : exec i s = completeIf ok (encode i) s (s.writeV r q (ofLanes sz.bits (laneCount q sz) f))) :
    (legal → ∃ t, exec i s = .next t ∧ completedD (inOperand r q) s t ∧
      ∀ k, k < laneCount q sz → lane sz.bits (t.readV r q) k = f k) ∧
    (¬legal → endsInFault i 2 0 s) := by
  obtain ⟨hnext, hfault⟩ := completeIf_spec hok he
  exact ⟨fun h => ⟨_, hnext h, completedD_writeV .., fun _ hk => lane_readV_advance_writeV s r q sz f hk⟩, hfault⟩

/-! Two destinations. Legal operands of one kind are equal or have no D register in common, so both writes stand. -/

/-- A legal Q operand has the even one of the pair of D numbers that holds each of its registers. -/
theorem toNat_of_inOperand_true {r j : DReg} (hr : kindLegal true r) (hj : inOperand r true j) :
    r.toNat = 2 * (j.toNat / 2) := by
  have heven : r.toNat % 2 = 0 := hr rfl
  have hdouble : r = BitVec.ofNat 5 (2 * (r.toNat / 2)) := by
    rw [show 2 * (r.toNat / 2) = r.toNat by omega, BitVec.ofNat_toNat, BitVec.setWidth_eq]
  rw [hdouble] at hj
  have hhalf := toNat_half_of_inOperand_even (by omega) hj
  omega

/-- A D register belongs to one legal operand of a kind. -/
theorem eq_of_inOperand {q : Bool} {a b j : DReg} (ha : kindLegal q a) (hb : kindLegal q b) (hja : inOperand a q j)
    (hjb : inOperand b q j) : a = b := by
  cases q
  case false =>
    simp only [inOperand, Bool.false_eq_true, false_and, or_false] at hja hjb
    exact hja.symm.trans hjb
  case true =>
    exact BitVec.eq_of_toNat_eq
      ((toNat_of_inOperand_true ha hja).trans (toNat_of_inOperand_true hb hjb).symm)

/-- An operand holds what was written to it, whatever is then written to another. -/
theorem State.readV_writeV_writeV_fst (s : State) {q : Bool} {a b : DReg} (ha : kindLegal q a) (hb : kindLegal q b)
    (hab : a ≠ b) (u v : Vec) : ((s.writeV a q u).writeV b q v).readV a q = (s.writeV a q u).readV a q :=
  State.readV_writeV_disjoint _ fun _ hj =>
    partOf_eq_false_iff.mpr fun hjb => hab (eq_of_inOperand ha hb (partOf_iff.mp hj) hjb)

/-- What an operand holds after a write to it does not depend on the state before. -/
theorem State.readV_writeV_eq (s t : State) (r : DReg) (q : Bool) (v : Vec) :
    (t.writeV r q v).readV r q = (s.writeV r q v).readV r q := by
  rw [State.readV_writeV, State.readV_writeV]

/-- An operand written with what an operand of its kind holds, holds that. -/
theorem State.readV_writeV_readV (s t : State) (a b : DReg) (q : Bool) :
    (s.writeV a q (t.readV b q)).readV a q = t.readV b q := by
  rw [State.readV_writeV]
  cases q <;> simp [State.readV]

/-- An instruction that writes two operands follows the rule for two registers in place, with any relation that holds
whenever each register holds what was written to it. -/
theorem ruleInPlace_of_writeV_writeV {i : Instr} {q : Bool} {a b : DReg} {s : State} {ok : Bool} {u v : Vec}
    {f : State → State → Prop} (hok : ok = true ↔ kindLegal q a ∧ kindLegal q b ∧ a ≠ b)
    (he : exec i s = completeIf ok (encode i) s ((s.writeV a q u).writeV b q v))
    (hf : ∀ t, t.readV a q = (s.writeV a q u).readV a q → t.readV b q = (s.writeV b q v).readV b q → f s t) :
    ruleInPlace i q a b s f := by
  obtain ⟨hnext, hfault⟩ := completeIf_spec hok he
  refine ⟨fun h => ⟨_, hnext h, completedD_writeV_writeV .., hf _ ?_ ?_⟩, hfault⟩
  · obtain ⟨ha, hb, hab⟩ := h
    rw [State.advance_readV, s.readV_writeV_writeV_fst ha hb hab]
  · rw [State.advance_readV, State.readV_writeV_eq s]

/-- Two instructions that write the same two operands, the second undoing the first, restore every D register. -/
theorem readD_eq_of_readV_eq {s t u : State} {q : Bool} {a b : DReg}
    (hst : completedD (fun j => inOperand a q j ∨ inOperand b q j) s t)
    (htu : completedD (fun j => inOperand a q j ∨ inOperand b q j) t u)
    (h : u.readV a q = s.readV a q ∧ u.readV b q = s.readV b q) (j : DReg) : u.readD j = s.readD j := by
  obtain ⟨-, -, hDst, -⟩ := hst
  obtain ⟨-, -, hDtu, -⟩ := htu
  exact readD_of_operands (fun j hj => (hDtu j hj).trans (hDst j hj)) h.1 h.2 j

/-- The template of `VZIP`, `VUZP` and `VTRN`: the lanes of both destinations from the lanes of both registers before. -/
theorem ruleInPlace_of_shufflePair {i : Instr} {o : V2} {s : State}
    {ra rb : (Nat → BitVec o.sz.bits) → (Nat → BitVec o.sz.bits) → Nat → BitVec o.sz.bits} {f : State → State → Prop}
    (he : exec i s = shufflePair (encode i) o ra rb s)
    (hf : ∀ t,
      (∀ k, k < laneCount o.q o.sz → lane o.sz.bits (t.readV o.vd o.q) k =
        ra (lane o.sz.bits (s.readV o.vd o.q)) (lane o.sz.bits (s.readV o.vm o.q)) k) →
      (∀ k, k < laneCount o.q o.sz → lane o.sz.bits (t.readV o.vm o.q) k =
        rb (lane o.sz.bits (s.readV o.vd o.q)) (lane o.sz.bits (s.readV o.vm o.q)) k) → f s t) :
    ruleInPlace i o.q o.vd o.vm s f := by
  refine ruleInPlace_of_writeV_writeV V2.pairOk_iff he fun t hvd hvm => hf t (fun k hk => ?_) (fun k hk => ?_)
  · rw [hvd, s.lane_readV_writeV o.vd o.q o.sz _ hk]
  · rw [hvm, s.lane_readV_writeV o.vm o.q o.sz _ hk]

/-! The sequences of R222. -/

theorem zipSeq_two_mul {α : Type} (a b : Nat → α) (i : Nat) : zipSeq a b (2 * i) = a i := by
  simp [zipSeq]

theorem zipSeq_two_mul_add_one {α : Type} (a b : Nat → α) (i : Nat) : zipSeq a b (2 * i + 1) = b i := by
  simp [zipSeq, Nat.mul_add_div]

section cat

variable {s t : State} {sz : Sz} {q : Bool} {a b : DReg}

/-- The elements below the lane count are the lanes of the first register. -/
theorem catLane_of_lt {e : Nat} (he : e < laneCount q sz) : catLane s sz q a b e = lane sz.bits (s.readV a q) e :=
  if_pos he

/-- The elements from the lane count on are the lanes of the second. -/
theorem catLane_laneCount_add (e : Nat) :
    catLane s sz q a b (laneCount q sz + e) = lane sz.bits (s.readV b q) e := by
  rw [catLane, if_neg (by omega), Nat.add_sub_cancel_left]

/-- A pair of registers is a sequence when its first register is the lower half and its second the upper half. -/
theorem catLane_eq_of_halves {f : Nat → BitVec sz.bits}
    (ha : ∀ k, k < laneCount q sz → lane sz.bits (s.readV a q) k = f k)
    (hb : ∀ k, k < laneCount q sz → lane sz.bits (s.readV b q) k = f (laneCount q sz + k)) {e : Nat}
    (he : e < 2 * laneCount q sz) : catLane s sz q a b e = f e := by
  by_cases hlt : e < laneCount q sz
  · rw [catLane_of_lt hlt, ha e hlt]
  · obtain ⟨k, rfl⟩ := Nat.exists_eq_add_of_le (not_lt.mp hlt)
    rw [catLane_laneCount_add, hb k (by omega)]

/-- Two pairs of registers with the same elements hold the same. -/
theorem readV_eq_of_catLane_eq
    (h : ∀ e, e < 2 * laneCount q sz → catLane t sz q a b e = catLane s sz q a b e) :
    t.readV a q = s.readV a q ∧ t.readV b q = s.readV b q := by
  refine ⟨readV_ext sz fun k hk => ?_, readV_ext sz fun k hk => ?_⟩
  · have helem := h k (by omega)
    rwa [catLane_of_lt hk, catLane_of_lt hk] at helem
  · have helem := h (laneCount q sz + k) (by omega)
    rwa [catLane_laneCount_add, catLane_laneCount_add] at helem

end cat

/-! The instructions of the template. -/

theorem exec_vzip (o : V2) (s : State) : exec (.vzip o) s =
    shufflePair (encode (.vzip o)) o zipSeq (fun a b i => zipSeq a b (laneCount o.q o.sz + i)) s := rfl

theorem exec_vuzp (o : V2) (s : State) : exec (.vuzp o) s =
    shufflePair (encode (.vuzp o)) o (fun a b i => catSeq (laneCount o.q o.sz) a b (2 * i))
      (fun a b i => catSeq (laneCount o.q o.sz) a b (2 * i + 1)) s := rfl

theorem exec_vtrn (o : V2) (s : State) : exec (.vtrn o) s =
    shufflePair (encode (.vtrn o)) o (fun a b i => if i % 2 = 0 then a i else b (i - 1))
      (fun a b i => if i % 2 = 0 then a (i + 1) else b i) s := rfl

/-! Zip and unzip (R223 to R225). -/

section zip

variable {o : V2} {s t u : State}

/-- The pair of registers in `t` is the interleaving of its two registers in `s` (R223). -/
def Zipped (o : V2) (s t : State) : Prop :=
  ∀ i, i < laneCount o.q o.sz →
    catLane t o.sz o.q o.vd o.vm (2 * i) = lane o.sz.bits (s.readV o.vd o.q) i ∧
    catLane t o.sz o.q o.vd o.vm (2 * i + 1) = lane o.sz.bits (s.readV o.vm o.q) i

/-- The two registers in `t` are the even and the odd elements of the pair of registers in `s` (R224). -/
def Unzipped (o : V2) (s t : State) : Prop :=
  ∀ i, i < laneCount o.q o.sz →
    lane o.sz.bits (t.readV o.vd o.q) i = catLane s o.sz o.q o.vd o.vm (2 * i) ∧
    lane o.sz.bits (t.readV o.vm o.q) i = catLane s o.sz o.q o.vd o.vm (2 * i + 1)

theorem ruleInPlace_vzip (o : V2) (s : State) : ruleInPlace (.vzip o) o.q o.vd o.vm s (Zipped o) := by
  refine ruleInPlace_of_shufflePair (exec_vzip o s) fun t hvd hvm i hi => ⟨?_, ?_⟩
  · rw [catLane_eq_of_halves hvd hvm (by omega), zipSeq_two_mul]
  · rw [catLane_eq_of_halves hvd hvm (by omega), zipSeq_two_mul_add_one]

/-- The element of `cat` that `VUZP` puts in a lane is `catLane` of the state before, by definition. -/
theorem ruleInPlace_vuzp (o : V2) (s : State) : ruleInPlace (.vuzp o) o.q o.vd o.vm s (Unzipped o) :=
  ruleInPlace_of_shufflePair (exec_vuzp o s) fun _ hvd hvm i hi => ⟨hvd i hi, hvm i hi⟩

/-- Unzipping what was zipped gives both registers back. -/
theorem readV_eq_of_zipped_unzipped (hz : Zipped o s t) (hu : Unzipped o t u) :
    u.readV o.vd o.q = s.readV o.vd o.q ∧ u.readV o.vm o.q = s.readV o.vm o.q :=
  ⟨readV_ext o.sz fun i hi => (hu i hi).1.trans (hz i hi).1, readV_ext o.sz fun i hi => (hu i hi).2.trans (hz i hi).2⟩

/-- Zipping what was unzipped gives both registers back. -/
theorem readV_eq_of_unzipped_zipped (hu : Unzipped o s t) (hz : Zipped o t u) :
    u.readV o.vd o.q = s.readV o.vd o.q ∧ u.readV o.vm o.q = s.readV o.vm o.q := by
  refine readV_eq_of_catLane_eq (sz := o.sz) fun e he => ?_
  obtain ⟨i, rfl | rfl⟩ := Nat.even_or_odd' e
  · exact (hz i (by omega)).1.trans (hu i (by omega)).1
  · exact (hz i (by omega)).2.trans (hu i (by omega)).2

end zip

/-- Settles O43: a pair of registers is the interleaved sequence by its halves, which are what `VZIP` writes; `VUZP`
writes elements of the pair as they stand. -/
theorem zipUnzip : Obligations.ZipUnzip := by
  refine ⟨fun o s _ => ⟨ruleInPlace_vzip o s, ruleInPlace_vuzp o s⟩,
    fun opc hmem => refuses_of_reserved fun w hopc ⟨hsz, hq⟩ => ?_⟩
  rw [← hopc] at hmem
  have hpairs : [0x25, 0x26] ⊆ [0x15, 0x16, 0x17, 0x25, 0x26, 0x27] := by decide
  exact reservedEncoding_of_single_lane (hpairs hmem) hsz hq

/-- Settles O44: the second instruction's relation undoes the first's, in either order. -/
theorem zipUnzipRoundTrip : Obligations.ZipUnzipRoundTrip := by
  intro o s _ hvd hvm hne
  constructor
  · obtain ⟨t, hzip, hst, hz⟩ := (ruleInPlace_vzip o s).1 ⟨hvd, hvm, hne⟩
    obtain ⟨u, huzp, htu, hu⟩ := (ruleInPlace_vuzp o t).1 ⟨hvd, hvm, hne⟩
    exact ⟨t, u, hzip, hst, huzp, htu, hz, readD_eq_of_readV_eq hst htu (readV_eq_of_zipped_unzipped hz hu)⟩
  · obtain ⟨t, huzp, hst, hu⟩ := (ruleInPlace_vuzp o s).1 ⟨hvd, hvm, hne⟩
    obtain ⟨u, hzip, htu, hz⟩ := (ruleInPlace_vzip o t).1 ⟨hvd, hvm, hne⟩
    exact ⟨t, u, huzp, hst, hzip, htu, hu, readD_eq_of_readV_eq hst htu (readV_eq_of_unzipped_zipped hu hz)⟩

/-! Reverse (R221). -/

/-- Place `i` of group `j` takes the lane of the mirrored place of the same group. -/
theorem reverseIndex_mul_add {g i : Nat} (j : Nat) (hi : i < g) : reverseIndex g (j * g + i) = j * g + (g - 1 - i) := by
  have hdiv : (j * g + i) / g = j := by
    rw [Nat.mul_comm, Nat.mul_add_div (by omega), Nat.div_eq_of_lt hi, Nat.add_zero]
  rw [reverseIndex, hdiv, Nat.mul_add_mod_self_right, Nat.mod_eq_of_lt hi]

/-- A place of a group is a lane of the register. -/
theorem mul_add_lt_of_lt_div {n g i j : Nat} (hj : j < n / g) (hi : i < g) : j * g + i < n := by
  have hgroup : (j + 1) * g ≤ n := (Nat.le_div_iff_mul_le (by omega)).mp hj
  rw [Nat.succ_mul] at hgroup
  omega

/-- Settles O42: each lane is written from the mirrored lane of its group. -/
theorem reverseLanes : Obligations.ReverseLanes := by
  refine ⟨fun o s _ => ?_, refuses_of_reserved fun w hopc hbad => ?_⟩
  · obtain ⟨hlegal, hfault⟩ := lanes_of_completeIf_writeV (i := .vrev o) (s := s) V2I.regsOk_iff rfl
    refine ⟨fun h => ?_, hfault⟩
    obtain ⟨t, hnext, hframe, hlanes⟩ := hlegal h
    refine ⟨t, hnext, hframe, fun j i hj hi => ?_⟩
    rw [hlanes _ (mul_add_lt_of_lt_div hj hi), reverseIndex_mul_add j hi]
  · exact reservedEncoding_of_immediate (.inr (.inr (.inr (.inl ⟨hopc, hbad⟩))))

/-! Transpose (R226). -/

/-- Each 2x2 matrix of lanes `2j`, `2j + 1` of the two registers is in `t` the transpose of what it is in `s`. -/
def Transposed (o : V2) (s t : State) : Prop :=
  ∀ j, j < laneCount o.q o.sz / 2 →
    lane o.sz.bits (t.readV o.vd o.q) (2 * j) = lane o.sz.bits (s.readV o.vd o.q) (2 * j) ∧
    lane o.sz.bits (t.readV o.vd o.q) (2 * j + 1) = lane o.sz.bits (s.readV o.vm o.q) (2 * j) ∧
    lane o.sz.bits (t.readV o.vm o.q) (2 * j) = lane o.sz.bits (s.readV o.vd o.q) (2 * j + 1) ∧
    lane o.sz.bits (t.readV o.vm o.q) (2 * j + 1) = lane o.sz.bits (s.readV o.vm o.q) (2 * j + 1)

theorem ruleInPlace_vtrn (o : V2) (s : State) : ruleInPlace (.vtrn o) o.q o.vd o.vm s (Transposed o) := by
  refine ruleInPlace_of_shufflePair (exec_vtrn o s) fun t hvd hvm j hj => ⟨?_, ?_, ?_, ?_⟩
  · rw [hvd _ (by omega), if_pos (by omega)]
  · rw [hvd _ (by omega), if_neg (by omega), Nat.add_sub_cancel]
  · rw [hvm _ (by omega), if_pos (by omega)]
  · rw [hvm _ (by omega), if_neg (by omega)]

/-- Settles O45: the lanes of both registers by the parity of the lane. -/
theorem transpose : Obligations.Transpose :=
  ⟨fun o s _ => ruleInPlace_vtrn o s,
    refuses_of_reserved fun _ hopc ⟨hsz, hq⟩ => reservedEncoding_of_single_lane (by simp [hopc]) hsz hq⟩

/-! Extract (R227). -/

/-- Settles O47: the window of `cat(Vn, Vm)`; at offset 0 it is the lanes of `Vn`, at offset `ec` those of `Vm`. -/
theorem extractWindow : Obligations.ExtractWindow := by
  refine ⟨fun o s _ => ?_, refuses_of_reserved fun w hopc hbad => ?_⟩
  · obtain ⟨hlegal, hfault⟩ := lanes_of_completeIf_writeV (i := .vext o) (s := s) V3X.regsOk_iff rfl
    refine ⟨fun h => ?_, hfault⟩
    obtain ⟨t, hnext, hframe, hlanes⟩ := hlegal h
    have hwindow : ∀ k, k < laneCount o.q o.sz →
        lane o.sz.bits (t.readV o.vd o.q) k = catLane s o.sz o.q o.vn o.vm (o.k.toNat + k) := hlanes
    refine ⟨t, hnext, hframe, hwindow, fun hzero => readV_ext o.sz fun k hk => ?_,
      fun hlast => readV_ext o.sz fun k hk => ?_⟩
    · rw [hwindow k hk, hzero, show (0 : Imm8).toNat = 0 from rfl, Nat.zero_add, catLane_of_lt hk]
    · rw [hwindow k hk, hlast, catLane_laneCount_add]
  · exact reservedEncoding_of_immediate (.inr (.inr (.inr (.inr (.inl ⟨hopc, hbad⟩)))))

/-! Broadcast (R228). -/

theorem V2I.dupOk_iff {o : V2I} : o.dupOk = true ↔ kindLegal o.q o.vd := kindOk_iff

/-- Settles O48: every lane is written from the same lane of the D register `Vm`. -/
theorem broadcast : Obligations.Broadcast :=
  ⟨fun _ _ _ => lanes_of_completeIf_writeV V2I.dupOk_iff rfl,
    refuses_of_reserved fun _ hopc hbad =>
      reservedEncoding_of_laneIndex (List.mem_append_right [0x20, 0x21] (by simp [hopc])) hbad⟩

/-! Swap (R229). -/

/-- `VSWP` and `VBIT` have no lane width: their `sz` is fixed to zero (R84). -/
theorem reservedEncoding_of_sz {w : Word} (hopc : opcOf w ∈ [0x2A, 0x33]) (hsz : szOf w ≠ 0) : reservedEncoding w :=
  .inr (.inl (.inr (.inr (.inr (.inr (.inr (.inr (.inl ⟨hopc, hsz⟩))))))))

/-- Settles O49: each register is written with what the other held, which fits it whole. -/
theorem swap : Obligations.Swap := by
  refine ⟨fun o s => ruleInPlace_of_writeV_writeV V2B.pairOk_iff rfl fun t hvd hvm => ⟨?_, ?_⟩,
    refuses_of_reserved fun w hopc => reservedEncoding_of_sz (by simp [hopc])⟩
  · rw [hvd, State.readV_writeV_readV]
  · rw [hvm, State.readV_writeV_readV]

end Sys2Proof.Machine

/-! Obligations O50 to O52 (44_compare_select.md). The templates of R150 carry the registers, the frame and the fault; what
is left of a compare is which condition its mask carries, and of the bit merge where each bit comes from. -/

namespace Sys2Proof.Machine

/-! The lane functions whose condition the rules state bit by bit. -/

section conditions

variable {w : Nat} (x y : BitVec w)

/-- The zero pattern is the one without a set bit (R257). -/
theorem isMask_laneCeqz : isMask (laneCeqz x) (∀ b, x.getLsbD b = false) := by
  rw [← BitVec.zero_iff_eq_false]
  exact isMask_mask

theorem and_ne_zero_iff_exists_getLsbD : x &&& y ≠ 0 ↔ ∃ b, x.getLsbD b = true ∧ y.getLsbD b = true := by
  rw [Ne, BitVec.ofNat_eq_ofNat, BitVec.zero_iff_eq_false]
  simp

/-- The bitwise and is nonzero when the patterns meet in a set bit (R258). -/
theorem isMask_laneTst : isMask (laneTst x y) (∃ b, x.getLsbD b = true ∧ y.getLsbD b = true) := by
  rw [← and_ne_zero_iff_exists_getLsbD]
  exact isMask_mask

end conditions

/-! Compares (R252 to R258). -/

/-- Settles O50: the three-register template, whose lanes are the masks of the four conditions. -/
theorem compareVectors : Obligations.CompareVectors := fun _ _ =>
  ⟨rule3_of_lanewise3 (g := laneCge) rfl fun _ _ _ => isMask_mask,
    rule3_of_lanewise3 (g := laneCgt) rfl fun _ _ _ => isMask_mask,
    rule3_of_lanewise3 (g := laneCeq) rfl fun _ _ _ => isMask_mask,
    rule3_of_lanewise3 (g := laneTst) rfl fun _ => isMask_laneTst⟩

/-- Settles O51: the two-register template, whose lanes are the masks of the three conditions. -/
theorem compareZero : Obligations.CompareZero := fun _ _ =>
  ⟨rule2_of_lanewise2 (g := laneCgez) V2.regsOk_iff rfl fun _ => isMask_mask,
    rule2_of_lanewise2 (g := laneCgtz) V2.regsOk_iff rfl fun _ => isMask_mask,
    rule2_of_lanewise2 (g := laneCeqz) V2.regsOk_iff rfl isMask_laneCeqz⟩

/-! Bit merge (R259). -/

/-- Each bit of the merge comes from `src` under the mask and from `dst` elsewhere. -/
theorem getLsbD_bitSelect (dst src m : Vec) {b : Nat} (hb : b < 128) :
    (bitSelect dst src m).getLsbD b = if m.getLsbD b then src.getLsbD b else dst.getLsbD b := by
  rw [bitSelect, BitVec.getLsbD_or, BitVec.getLsbD_and, BitVec.getLsbD_and, BitVec.getLsbD_not]
  cases m.getLsbD b <;> simp [hb]

theorem regBits_le (q : Bool) : regBits q ≤ 128 := by cases q <;> decide

/-- An operand written reads back its own bits: all of a Q register, the low half of the vector for a D register. -/
theorem State.getLsbD_readV_writeV (s : State) (r : DReg) (q : Bool) (v : Vec) {b : Nat} (hb : b < regBits q) :
    ((s.writeV r q v).readV r q).getLsbD b = v.getLsbD b := by
  rw [State.readV_writeV]
  cases q
  · have h64 : b < 64 := hb
    simp [h64, hb.trans_le (regBits_le false)]
  · rfl

/-- Settles O52: the destination is written with the merge of the three registers, of which it keeps its own width. -/
theorem bitMerge : Obligations.BitMerge := by
  refine ⟨fun o s => ?_, refuses_of_reserved fun w hopc => reservedEncoding_of_sz (by simp [hopc])⟩
  obtain ⟨hnext, hfault⟩ := completeIf_spec (i := .vbit o) (s := s) V3B.regsOk_iff rfl
  refine ⟨fun h => ⟨_, hnext h, completedD_writeV .., fun b hb => ?_⟩, hfault⟩
  rw [State.advance_readV, s.getLsbD_readV_writeV o.vd o.q _ hb,
    getLsbD_bitSelect _ _ _ (hb.trans_le (regBits_le o.q))]

end Sys2Proof.Machine

/-! Obligations O54, O55 and O59 (45_conversion_misc.md): the leading-bit counts, the narrowing shift and the square root.
The counts rest on one fact about counting bits down; the registers, the frame and the fault come from the shared
operations. -/

namespace Sys2Proof.Machine

/-! Counting bits down. -/

section counting

variable {w : Nat} (x : BitVec w)

/-- The count from bit `n - 1` down reaches `m` when the `m` bits below `n` all equal `b`. -/
theorem le_countDown_iff (b : Bool) (m n : Nat) :
    m ≤ countDown x b n ↔ m ≤ n ∧ ∀ j, j < n → n - m ≤ j → x.getLsbD j = b := by
  induction n generalizing m with
  | zero => simp [countDown]
  | succ n ih =>
    cases m with
    | zero => simpa using fun j hj hj' => absurd hj (by omega)
    | succ m =>
      rw [countDown, Nat.succ_le_succ_iff, Nat.add_sub_add_right]
      split
      case isTrue htop =>
        rw [Nat.succ_le_succ_iff, ih]
        refine and_congr_right fun _ => ⟨fun h j hj hmj => ?_, fun h j hj => h j (by omega)⟩
        obtain hj | rfl : j < n ∨ j = n := by omega
        · exact h j hj hmj
        · exact htop
      case isFalse htop =>
        exact iff_of_false (by omega) fun h => htop (h.2 n (by omega) (by omega))

theorem countDown_le (b : Bool) (n : Nat) : countDown x b n ≤ n := ((le_countDown_iff x b _ n).mp le_rfl).1

/-- A count of at most `w` is kept by `wrap`. -/
theorem toNat_wrap_of_le {n : Nat} (h : n ≤ w) : (wrap w n).toNat = n := by
  rw [wrap, BitVec.ofInt_natCast, BitVec.toNat_ofNat, Nat.mod_eq_of_lt (h.trans_lt Nat.lt_two_pow_self)]

theorem toNat_laneClz : (laneClz x).toNat = clz x := toNat_wrap_of_le (countDown_le x false w)

theorem cls_le : cls x ≤ w - 1 := countDown_le x x.msb (w - 1)

theorem toNat_laneCls : (laneCls x).toNat = cls x := toNat_wrap_of_le ((cls_le x).trans (Nat.sub_le w 1))

/-! Leading zeros (R271). -/

theorem clz_zero : clz (0 : BitVec w) = w :=
  le_antisymm (countDown_le _ false w) ((le_countDown_iff _ false w w).mpr ⟨le_rfl, by simp⟩)

theorem clz_of_highest {h : Nat} (hw : h < w) (hset : x.getLsbD h = true)
    (habove : ∀ j, h < j → x.getLsbD j = false) : clz x = w - 1 - h := by
  refine le_antisymm (not_lt.mp fun hlt => ?_) ((le_countDown_iff x false _ w).mpr ⟨by omega, fun j _ hj =>
    habove j (by omega)⟩)
  have hclear := ((le_countDown_iff x false _ w).mp (Nat.succ_le_of_lt hlt)).2 h hw (by omega)
  simp [hset] at hclear

/-! Redundant sign bits (R272). -/

/-- The count reaches `n` when the `n` bits below the sign bit, and so all bits from `w - 1 - n` up, equal it. -/
theorem le_cls_iff (hw : 0 < w) (n : Nat) :
    n ≤ cls x ↔ n < w ∧ ∀ j, j < w → w - 1 - n ≤ j → x.getLsbD j = x.msb := by
  rw [cls, le_countDown_iff, Nat.le_sub_one_iff_lt hw]
  refine and_congr_right fun _ => ⟨fun h j hj hnj => ?_, fun h j hj => h j (by omega)⟩
  obtain hj | rfl : j < w - 1 ∨ j = w - 1 := by omega
  · exact h j hj hnj
  · exact x.msb_eq_getLsbD_last.symm

/-- A count that is not complete ends at a bit that differs from the sign bit. -/
theorem getLsbD_ne_msb_of_cls_lt (h : cls x < w - 1) : x.getLsbD (w - 2 - cls x) ≠ x.msb := by
  intro heq
  have hmore : cls x + 1 ≤ cls x := by
    refine (le_cls_iff x (by omega) _).mpr ⟨by omega, fun j hj hmj => ?_⟩
    obtain rfl | hj' : j = w - 2 - cls x ∨ w - 1 - cls x ≤ j := by omega
    · exact heq
    · exact ((le_cls_iff x (by omega) _).mp le_rfl).2 j hj hj'
  omega

/-- The bits from `k` up are clear when the pattern is below `2^k`. -/
theorem toNat_lt_two_pow_iff {k : Nat} (hk : k < w) :
    x.toNat < 2 ^ k ↔ ∀ j, j < w → k ≤ j → x.getLsbD j = false := by
  rw [BitVec.toNat_lt_iff_getLsbD_eq_false k hk]
  refine ⟨fun h j _ hj => Nat.add_sub_cancel' hj ▸ h (j - k), fun h j => ?_⟩
  by_cases hj : k + j < w
  · exact h _ hj (by omega)
  · exact x.getLsbD_of_ge _ (by omega)

/-- The bits from `k` up equal the sign bit when the lane fits in `k + 1` bits. A negative lane is `-1 - y` for the
complement `y` of its pattern. -/
theorem signBits_iff_fits {k : Nat} (hk : k < w) :
    (∀ j, j < w → k ≤ j → x.getLsbD j = x.msb) ↔ -(2 ^ k) ≤ x.toInt ∧ x.toInt ≤ 2 ^ k - 1 := by
  have hpow : ((2 ^ k : Nat) : Int) = 2 ^ k := by push_cast; rfl
  cases hmsb : x.msb with
  | false =>
    rw [← toNat_lt_two_pow_iff x hk, BitVec.toInt_eq_toNat_of_msb hmsb]
    omega
  | true =>
    have hnot : (~~~x).toNat < 2 ^ k ↔ ∀ j, j < w → k ≤ j → x.getLsbD j = true := by
      rw [toNat_lt_two_pow_iff _ hk]
      exact forall₂_congr fun j hj => by simp [hj]
    have htoInt : x.toInt = -1 - (~~~x).toNat := by
      have := x.isLt
      rw [BitVec.toInt_eq_msb_cond, if_pos hmsb, BitVec.toNat_not]
      omega
    rw [← hnot, htoInt]
    omega

/-- The number of redundant sign bits is the largest shift that still fits (R272). -/
theorem le_cls_iff_fits (hw : 0 < w) (n : Nat) :
    n ≤ cls x ↔ n < w ∧ -(2 ^ (w - 1)) ≤ x.toInt * 2 ^ n ∧ x.toInt * 2 ^ n ≤ 2 ^ (w - 1) - 1 := by
  rw [le_cls_iff x hw]
  refine and_congr_right fun hn => ?_
  have hpos : (0 : Int) < 2 ^ n := by positivity
  have hsplit : (2 : Int) ^ (w - 1) = 2 ^ (w - 1 - n) * 2 ^ n := by rw [← pow_add, Nat.sub_add_cancel (by omega)]
  rw [signBits_iff_fits x (by omega), hsplit, ← neg_mul, mul_le_mul_iff_left₀ hpos, Int.le_sub_one_iff,
    Int.le_sub_one_iff, mul_lt_mul_iff_left₀ hpos]

end counting

/-- Settles O54: the two-register template with the two counts. -/
theorem leadingBitCounts : Obligations.LeadingBitCounts := by
  refine fun o s => ⟨rule2_of_lanewise2 (g := laneClz) V2.regsOk_iff rfl fun x => ?_,
    rule2_of_lanewise2 (g := laneCls) V2.regsOk_iff rfl fun x => ?_⟩
  · rw [toNat_laneClz]
    exact ⟨fun hx => hx ▸ clz_zero, fun h => clz_of_highest x⟩
  · rw [toNat_laneCls]
    have hw := o.sz.bits_pos
    exact ⟨cls_le x, ((le_cls_iff x hw _).mp le_rfl).2, getLsbD_ne_msb_of_cls_lt x, le_cls_iff_fits x hw⟩

/-! Narrowing (R273). -/

theorem V2N.regsOk_iff {o : V2N} : o.regsOk = true ↔ kindLegal true o.vm := kindOk_iff

/-- `VQRSHRN` has no 64-bit narrow lane, no `Q` and an amount from 1 to the wide width (R84, R85, R87). -/
theorem reservedEncoding_of_vqrshrn {w : Word} (hopc : opcOf w = 0x36)
    (h : szOf w = 3 ∨ qOf w = 1 ∨ immOf w = 0 ∨ 2 * widthOf w < immOf w) : reservedEncoding w := by
  obtain hsz | hq | himm := h
  · exact .inr (.inr (.inl (.inr (.inl ⟨by simp [hopc], hsz⟩))))
  · exact .inr (.inl (.inr (.inr (.inr (.inr (.inr (.inl ⟨by simp [hopc], hq⟩)))))))
  · exact reservedEncoding_of_immediate (.inr (.inr (.inl ⟨hopc, himm⟩)))

/-- Settles O55: a D register written lane by lane, each lane `sat` of the rounded shift. -/
theorem saturatingNarrow : Obligations.SaturatingNarrow := by
  refine ⟨fun o s _ => ?_, refuses_of_reserved fun _ => reservedEncoding_of_vqrshrn⟩
  obtain ⟨hlegal, hfault⟩ := lanes_of_completeIf_writeV (i := .vqrshrn o) (s := s) (q := false) V2N.regsOk_iff rfl
  refine ⟨fun h => ?_, hfault⟩
  obtain ⟨t, hnext, hframe, hlanes⟩ := hlegal h
  refine ⟨t, hnext, hframe, fun k hk => ?_⟩
  rw [hlanes k hk]
  exact satsTo_sat o.sz.bits_pos _

/-! The square root of one lane (R278). -/

/-- Writing a D register and advancing `pc` is a completion with that destination. -/
theorem completedD_writeD (s : State) (r : DReg) (v : DWord) :
    completedD (inOperand r false) s (s.writeD r v).advance := by
  have hwrite : s.writeV r false (v.setWidth 128) = s.writeD r v := by simp [State.writeV]
  exact hwrite ▸ completedD_writeV s r false (v.setWidth 128)

theorem State.readV_writeD (s : State) (r : DReg) (v : DWord) : (s.writeD r v).readV r false = v.setWidth 128 := by
  simp [State.readV]

theorem lane_zero_setWidth (v : DWord) : lane 32 (v.setWidth 128) 0 = v.extractLsb' 0 32 := by
  ext k hk
  simp [lane]
  omega

theorem lane_one_setWidth (v : DWord) : lane 32 (v.setWidth 128) 1 = v.extractLsb' 32 32 := by
  ext k hk
  simp [lane]
  omega

/-- The lane of `setlane_32` is the one put there, the other lane is the one before. -/
theorem lane_setLane32 (v : DWord) (i : Bool) (x : Word) :
    lane 32 ((setLane32 v i x).setWidth 128) i.toNat = x ∧
      lane 32 ((setLane32 v i x).setWidth 128) (1 - i.toNat) = lane 32 (v.setWidth 128) (1 - i.toNat) := by
  cases i with
  | false =>
    exact ⟨(lane_zero_setWidth _).trans BitVec.extractLsb'_append_eq_right,
      (lane_one_setWidth _).trans (BitVec.extractLsb'_append_eq_left.trans (lane_one_setWidth v).symm)⟩
  | true =>
    exact ⟨(lane_one_setWidth _).trans BitVec.extractLsb'_append_eq_left,
      (lane_zero_setWidth _).trans (BitVec.extractLsb'_append_eq_right.trans (lane_zero_setWidth v).symm)⟩

theorem exec_vsqrt_of_nonneg {o : V2S} {s : State} (h : 0 ≤ (lane 32 (s.readV o.vm false) o.mi.toNat).toInt) :
    exec (.vsqrt o) s = .next (s.writeD o.vd (setLane32 (s.readD o.vd) o.di
      (Config.sqrtFn ((lane 32 (s.readV o.vm false) o.mi.toNat).setWidth 31)))).advance :=
  if_neg (not_lt.mpr h)

theorem exec_vsqrt_of_neg {o : V2S} {s : State} (h : (lane 32 (s.readV o.vm false) o.mi.toNat).toInt < 0) :
    exec (.vsqrt o) s = .next (s.takeFault .domain (encode (.vsqrt o)) 0) :=
  if_pos h

/-- `VSQRT` has one lane width, no `Q` and two lane numbers of one bit each (R84). -/
theorem reservedEncoding_of_vsqrt {w : Word} (hopc : opcOf w = 0x39) (h : szOf w ≠ 2 ∨ qOf w = 1 ∨ 4 ≤ immOf w) :
    reservedEncoding w := by
  refine .inr (.inl (.inr (.inr (.inr (.inr (.inr ?_))))))
  obtain hsz | hq | himm := h
  · exact .inr (.inr (.inl ⟨by simp [hopc], hsz⟩))
  · exact .inl ⟨by simp [hopc], hq⟩
  · exact .inr (.inr (.inr ⟨hopc, himm⟩))

/-- Settles O59: one lane of a D register replaced, or the fault, by the sign of the source lane. -/
theorem squareRoot : Obligations.SquareRoot := by
  refine ⟨fun o s => ⟨fun h => ?_, fun h => ?_⟩, refuses_of_reserved fun _ => reservedEncoding_of_vsqrt⟩
  · refine ⟨_, exec_vsqrt_of_nonneg h, completedD_writeD .., ?_⟩
    rw [State.advance_readV, State.readV_writeD]
    exact lane_setLane32 (s.readD o.vd) o.di _
  · exact ⟨_, exec_vsqrt_of_neg h, faultEntered_takeFault .domain _ _ _⟩

end Sys2Proof.Machine

/-! Obligations O10, O14, O19 and O20 (60_exceptions.md): what an instruction that faults has done, which instructions
raise `RegisterGroupFault`, what stops a transfer, and what leaves FAULTED. -/

namespace Sys2Proof.Machine

/-! The ends of an instruction (R296, R297). -/

/-- The causes that an instruction raises have the codes 2 to 5 (R290). -/
theorem Cause.code_bounds {c : Cause} (h : c ≠ .illegalInstruction) : 2 ≤ c.code.toNat ∧ c.code.toNat ≤ 5 := by
  cases c with
  | illegalInstruction => exact absurd rfl h
  | registerGroup | alignment | access | domain => decide

/-- Settles O14: the two ends of an instruction, with the code of the fault's cause. -/
theorem completesOrFaultsPrecisely : Obligations.CompletesOrFaultsPrecisely := by
  intro i s
  have hends := exec_endsPrecisely i s
  generalize exec i s = r at hends ⊢
  cases hends with
  | completes h =>
    obtain ⟨hpc, hcontrol⟩ := h
    exact ⟨_, rfl, .inl ⟨by rw [State.advance_pc, hpc], hcontrol⟩⟩
  | faults c addr h =>
    obtain ⟨hlow, hhigh⟩ := Cause.code_bounds h
    exact ⟨_, rfl, .inr ⟨c.code, addr, hlow, hhigh, faultEntered_takeFault c _ addr s⟩⟩

/-! Which fault an instruction ends in, by the state it ends in. -/

section ends

variable {i : Instr} {s t u : State} {code : BitVec 3} {addr : Word}

theorem endsInFault_iff_of_next (he : exec i s = .next t) :
    endsInFault i code addr s ↔ faultEntered code (encode i) addr s t := by
  simp [endsInFault, he]

/-- An instruction that completes enters no fault, not even where one is recorded already: a fault leaves `pc`. -/
theorem not_endsInFault_of_advance (he : exec i s = .next u.advance) (hpc : u.pc = s.pc) :
    ¬endsInFault i code addr s := by
  rw [endsInFault_iff_of_next he]
  intro h
  obtain ⟨-, hsame, -⟩ := faultEntered_faulted h
  rw [State.advance_pc, hpc] at hsame
  bv_omega

/-- An instruction that takes a fault enters none with another code. -/
theorem not_endsInFault_of_takeFault {c : Cause} {inst a : Word} (he : exec i s = .next (s.takeFault c inst a))
    (hc : c.code ≠ code) : ¬endsInFault i code addr s := by
  rw [endsInFault_iff_of_next he]
  intro h
  obtain ⟨-, -, hcode⟩ := faultEntered_faulted h
  exact hc hcode

/-! `RegisterGroupFault` (R292). -/

/-- The instructions that complete or take `RegisterGroupFault` take it when their register condition fails. -/
theorem endsInFault_registerGroup_iff_of_completeIf {ok : Bool} {legal : Prop} (hok : ok = true ↔ legal)
    (hu : keepsControl s u) (he : exec i s = completeIf ok (encode i) s u) : endsInFault i 2 0 s ↔ ¬legal := by
  obtain ⟨hcompletes, hfaults⟩ := completeIf_spec hok he
  exact ⟨fun hf hl => not_endsInFault_of_advance (hcompletes hl) hu.1 hf, hfaults⟩

/-- A load or store takes it when its group is not legal; what else stops a transfer has another code. -/
theorem endsInFault_registerGroup_iff_of_transferOf {o : LS} {n T : Nat} (h : transferOf i = some (o, n, T)) :
    endsInFault i 2 0 s ↔ ¬registersLegal i := by
  obtain ⟨⟨u, he, hpc, -⟩, hlegal⟩ := execTransfers_of_transferOf (s := s) h
  rw [hlegal, ← regsOk_iff]
  obtain ⟨hok, -, ht⟩ | ⟨hok, ht⟩ | ⟨hok, c, -, hc, ht⟩ := transfer_cases (encode i) o n T s u
  · exact iff_of_false (not_endsInFault_of_advance (he.trans ht) (by simpa using hpc)) (not_not.mpr hok)
  · exact iff_of_true ⟨_, he.trans ht, faultEntered_takeFault .registerGroup _ 0 s⟩ (by simp [hok])
  · have hcode : c.code ≠ 2 := by obtain rfl | rfl := hc <;> decide
    exact iff_of_false (not_endsInFault_of_takeFault (he.trans ht) hcode) (not_not.mpr hok)

/-- `VSQRT` has D registers only: it completes or takes `DomainFault`. -/
theorem not_endsInFault_registerGroup_vsqrt (o : V2S) : ¬endsInFault (.vsqrt o) 2 0 s := by
  obtain hneg | hnonneg := lt_or_ge (lane 32 (s.readV o.vm false) o.mi.toNat).toInt 0
  · exact not_endsInFault_of_takeFault (exec_vsqrt_of_neg hneg) (by decide)
  · exact not_endsInFault_of_advance (exec_vsqrt_of_nonneg hnonneg) rfl

end ends

/-- R292 for every instruction, by the register condition of its format. -/
theorem endsInFault_registerGroup_iff (i : Instr) (s : State) : endsInFault i 2 0 s ↔ ¬registersLegal i := by
  cases i with
  | vld1 o | vld2 o | vld3 o | vld4 o | vst1 o | vst2 o | vst3 o | vst4 o | vlddup o =>
    exact endsInFault_registerGroup_iff_of_transferOf rfl
  | vadd o | vsub o | vqadd o | vqsub o | vmin o | vmax o | vpadd o | vpmax o | vpmin o | vmul o | vmla o | vmls o
  | vqdmulh o | vqrdmulh o | vcge o | vcgt o | vceq o | vtst o =>
    exact endsInFault_registerGroup_iff_of_completeIf V3.regsOk_iff (keepsControl_writeV ..) rfl
  | vbit o => exact endsInFault_registerGroup_iff_of_completeIf V3B.regsOk_iff (keepsControl_writeV ..) rfl
  | vext o => exact endsInFault_registerGroup_iff_of_completeIf V3X.regsOk_iff (keepsControl_writeV ..) rfl
  | vmull o | vmlal o | vmlsl o =>
    exact endsInFault_registerGroup_iff_of_completeIf kindOk_iff (keepsControl_writeV ..) rfl
  | vqdmulhLane o | vqrdmulhLane o =>
    exact endsInFault_registerGroup_iff_of_completeIf V3L.regsOk_iff (keepsControl_writeV ..) rfl
  | vneg o | vabs o | vqneg o | vqabs o | vcgez o | vcgtz o | vceqz o | vclz o | vcls o =>
    exact endsInFault_registerGroup_iff_of_completeIf V2.regsOk_iff (keepsControl_writeV ..) rfl
  | vqshl o | vrshr o | vrev o =>
    exact endsInFault_registerGroup_iff_of_completeIf V2I.regsOk_iff (keepsControl_writeV ..) rfl
  | vqshlr o => exact endsInFault_registerGroup_iff_of_completeIf V2R.regsOk_iff (keepsControl_writeV ..) rfl
  | vcvtF32S32 o | vcvtS32F32 o =>
    exact endsInFault_registerGroup_iff_of_completeIf V2F.regsOk_iff (keepsControl_writeV ..) rfl
  | vdup o => exact endsInFault_registerGroup_iff_of_completeIf V2I.dupOk_iff (keepsControl_writeV ..) rfl
  | vzip o | vuzp o | vtrn o =>
    exact endsInFault_registerGroup_iff_of_completeIf V2.pairOk_iff (keepsControl_writeV_writeV ..) rfl
  | vswp o => exact endsInFault_registerGroup_iff_of_completeIf V2B.pairOk_iff (keepsControl_writeV_writeV ..) rfl
  | vqrshrn o => exact endsInFault_registerGroup_iff_of_completeIf V2N.regsOk_iff (keepsControl_writeV ..) rfl
  | vsqrt o => exact iff_of_false (not_endsInFault_registerGroup_vsqrt o) (not_not.mpr trivial)

/-- Settles O19: the two directions of the equivalence. -/
theorem registerGroupFault : Obligations.RegisterGroupFault := fun i s =>
  ⟨(endsInFault_registerGroup_iff i s).mpr, fun hlegal hf => (endsInFault_registerGroup_iff i s).mp hf hlegal⟩

/-! The faults of the transfers (R293, R294, R299). -/

/-- Settles O20: every load and store executes as a transfer, whose faults come in this order. -/
theorem transferFaults : Obligations.TransferFaults := by
  intro i s o n T h
  obtain ⟨⟨u, he, -⟩, -⟩ := execTransfers_of_transferOf (s := s) h
  exact ruleTransferFaults_of_transfer he

/-! Faults are sticky (R298). -/

/-- The host writes a byte that exists (R16, R317). -/
theorem hostMove_writeByte {s : State} {a : Word} (b : Byte) (h : a.toNat < s.memBytes) :
    hostMove (.writeByte a b) s = .next (s.setMem (Memory.write s.mem a.toNat b)) :=
  if_pos h

/-- Settles O10: in FAULTED no word is accepted, and of the host's other moves only the reset touches `F`, the record or
`pc`. -/
theorem faultsAreSticky : Obligations.FaultsAreSticky := by
  refine fun s hs => ⟨fun t h => ?_, fun ms hmove => ?_⟩
  · obtain ⟨-, rfl⟩ | ⟨m, ms, hh, hmove⟩ := step_cases h
    · exact .inl ⟨hs, rfl, rfl, rfl, rfl, rfl⟩
    obtain ⟨w, -, hready, -⟩ | ⟨i, v, -, rfl⟩ | ⟨i, v, -, rfl⟩ | ⟨a, b, -, -, rfl⟩ | ⟨rfl, rfl⟩ := hmove
    case inl => rw [hs] at hready; cases hready
    case inr.inr.inr.inr => exact .inr ⟨by rw [hh]; rfl, rfl, rfl, rfl, rfl, rfl, rfl⟩
    all_goals exact .inl ⟨hs, rfl, rfl, rfl, rfl, rfl⟩
  · obtain ⟨i, v, hh⟩ | ⟨i, v, hh⟩ | ⟨a, b, hh, ha⟩ := hmove
    · exact ⟨_, step_cons hh, hs⟩
    · exact ⟨_, step_cons hh, hs⟩
    · exact ⟨_, (step_cons hh).trans (hostMove_writeByte b ha), hs⟩

end Sys2Proof.Machine

/-! Obligations O1 and O2 (30_encoding.md): the decoder and the encoder are inverse to each other. -/

namespace Sys2Proof

/-! Each format's decoder reads from the format's word the operands that were packed, when the row admits them. -/

section words

variable (opc : BitVec 6)

theorem LS.fieldOpc_word (o : LS) (nm1 : BitVec 2) : fieldOpc (o.word opc nm1) = opc := fieldOpc_packLS ..

theorem V3.fieldOpc_word (o : V3) : fieldOpc (o.word opc) = opc := fieldOpc_packV ..

theorem V3B.fieldOpc_word (o : V3B) : fieldOpc (o.word opc) = opc := fieldOpc_packV ..

theorem V3W.fieldOpc_word (o : V3W) : fieldOpc (o.word opc) = opc := fieldOpc_packV ..

theorem V3X.fieldOpc_word (o : V3X) : fieldOpc (o.word opc) = opc := fieldOpc_packV ..

theorem V3L.fieldOpc_word (o : V3L) : fieldOpc (o.word opc) = opc := fieldOpc_packV ..

theorem V2.fieldOpc_word (o : V2) : fieldOpc (o.word opc) = opc := fieldOpc_packV ..

theorem V2B.fieldOpc_word (o : V2B) : fieldOpc (o.word opc) = opc := fieldOpc_packV ..

theorem V2I.fieldOpc_word (o : V2I) : fieldOpc (o.word opc) = opc := fieldOpc_packV ..

theorem V2N.fieldOpc_word (o : V2N) : fieldOpc (o.word opc) = opc := fieldOpc_packV ..

theorem V2F.fieldOpc_word (o : V2F) : fieldOpc (o.word opc) = opc := fieldOpc_packV ..

theorem V2S.fieldOpc_word (o : V2S) : fieldOpc (o.word opc) = opc := fieldOpc_packV ..

theorem V2R.fieldOpc_word (o : V2R) : fieldOpc (o.word opc) = opc := fieldOpc_packV ..

theorem LS.fieldNm1_word (o : LS) (nm1 : BitVec 2) : fieldNm1 (o.word opc nm1) = nm1 := fieldNm1_packLS ..

theorem decodeLS_word (mk : LS → Instr) (o : LS) (nm1 : BitVec 2) : decodeLS mk (o.word opc nm1) = .ok (mk o) := by
  have hstep : o.wb.stepField = 0#4 ∨ o.wb.field = 2#2 := by cases o.wb <;> simp [Writeback.stepField, Writeback.field]
  have hwb : decodeWriteback (o.word opc nm1) = o.wb := decodeWriteback_packLS ..
  rw [decodeLS, ite_error_eq_ok_iff, ite_error_eq_ok_iff, hwb]
  simpa [LS.word, wordSz, wordQ, or_iff_not_imp_left] using hstep

theorem decodeV3_word {mk : V3 → Instr} {ok : Bool → Sz → Bool} {o : V3} (h : ok o.q o.sz = true) :
    decodeV3 mk ok (o.word opc) = .ok (mk o) := by
  simp [decodeV3, V3.word, wordSz, wordQ, h]

theorem decodeV3B_word (mk : V3B → Instr) (o : V3B) : decodeV3B mk (o.word opc) = .ok (mk o) := by
  simp [decodeV3B, V3B.word, wordQ]

theorem decodeV3W_word {mk : V3W → Instr} {o : V3W} (h : o.sz.isNarrow = true) :
    decodeV3W mk (o.word opc) = .ok (mk o) := by
  simp [decodeV3W, V3W.word, wordSz, h]

theorem decodeV3X_word {mk : V3X → Instr} {immOk : Bool → Sz → Imm8 → Bool} {o : V3X}
    (h : immOk o.q o.sz o.k = true) : decodeV3X mk immOk (o.word opc) = .ok (mk o) := by
  simp [decodeV3X, V3X.word, wordSz, wordQ, h]

theorem decodeV3L_word {mk : V3L → Instr} {o : V3L} (h : (o.sz.isFractional && laneIdxOk o.sz o.idx) = true) :
    decodeV3L mk (o.word opc) = .ok (mk o) := by
  obtain ⟨hsz, hidx⟩ := (Bool.and_eq_true ..).mp h
  simp [decodeV3L, V3L.word, wordSz, wordQ, hsz, hidx]

theorem decodeV2_word {mk : V2 → Instr} {ok : Bool → Sz → Bool} {o : V2} (h : ok o.q o.sz = true) :
    decodeV2 mk ok (o.word opc) = .ok (mk o) := by
  simp [decodeV2, V2.word, wordSz, wordQ, h]

theorem decodeV2B_word (mk : V2B → Instr) (o : V2B) : decodeV2B mk (o.word opc) = .ok (mk o) := by
  simp [decodeV2B, V2B.word, wordQ]

theorem decodeV2I_word {mk : V2I → Instr} {immOk : Bool → Sz → Imm8 → Bool} {o : V2I}
    (h : immOk o.q o.sz o.imm = true) : decodeV2I mk immOk (o.word opc) = .ok (mk o) := by
  simp [decodeV2I, V2I.word, wordSz, wordQ, h]

theorem decodeV2N_word {mk : V2N → Instr} {o : V2N} (h : (o.sz.isNarrow && vqrshrnImmOk o.sz o.n) = true) :
    decodeV2N mk (o.word opc) = .ok (mk o) := by
  obtain ⟨hsz, himm⟩ := (Bool.and_eq_true ..).mp h
  simp [decodeV2N, V2N.word, wordSz, hsz, himm]

theorem decodeV2F_word {mk : V2F → Instr} {o : V2F} (h : fbitsOk o.fbits = true) :
    decodeV2F mk (o.word opc) = .ok (mk o) := by
  simp [decodeV2F, V2F.word, wordQ, h]

theorem decodeV2S_word (mk : V2S → Instr) (o : V2S) : decodeV2S mk (o.word opc) = .ok (mk o) := by
  simp [decodeV2S, V2S.word]

theorem decodeV2R_word (mk : V2R → Instr) (o : V2R) : decodeV2R mk (o.word opc) = .ok (mk o) := by
  simp [decodeV2R, V2R.word, wordSz, wordQ]

end words

/-- The decoder looks at the opcode that the encoder wrote, and with opcodes `0x01` and `0x02` at `nm1`, and so comes to
the decoder of the instruction's own row. -/
theorem decode_encode {i : Instr} (h : i.wellFormed = true) : decode (encode i) = .ok i := by
  cases i with
  | vld1 o | vld2 o | vld3 o | vld4 o =>
    unfold encode decode
    rw [LS.fieldOpc_word]
    unfold decodeLoad
    rw [LS.fieldNm1_word]
    exact decodeLS_word _ _ o _
  | vst1 o | vst2 o | vst3 o | vst4 o =>
    unfold encode decode
    rw [LS.fieldOpc_word]
    unfold decodeStore
    rw [LS.fieldNm1_word]
    exact decodeLS_word _ _ o _
  | vlddup o =>
    unfold encode decode
    rw [LS.fieldOpc_word]
    unfold decodeDup
    rw [LS.fieldNm1_word]
    exact decodeLS_word _ _ o _
  | vadd o | vsub o | vqadd o | vqsub o | vmin o | vmax o | vpadd o | vpmax o | vpmin o | vmul o | vmla o
  | vmls o | vqdmulh o | vqrdmulh o | vcge o | vcgt o | vceq o | vtst o =>
    unfold encode decode
    rw [V3.fieldOpc_word]
    exact decodeV3_word _ h
  | vbit o =>
    unfold encode decode
    rw [V3B.fieldOpc_word]
    exact decodeV3B_word _ _ o
  | vmull o | vmlal o | vmlsl o =>
    unfold encode decode
    rw [V3W.fieldOpc_word]
    exact decodeV3W_word _ h
  | vext o =>
    unfold encode decode
    rw [V3X.fieldOpc_word]
    exact decodeV3X_word _ h
  | vqdmulhLane o | vqrdmulhLane o =>
    unfold encode decode
    rw [V3L.fieldOpc_word]
    exact decodeV3L_word _ h
  | vneg o | vabs o | vqneg o | vqabs o | vzip o | vuzp o | vtrn o | vcgez o | vcgtz o | vceqz o | vclz o
  | vcls o =>
    unfold encode decode
    rw [V2.fieldOpc_word]
    exact decodeV2_word _ h
  | vswp o =>
    unfold encode decode
    rw [V2B.fieldOpc_word]
    exact decodeV2B_word _ _ o
  | vqshl o | vrshr o | vrev o | vdup o =>
    unfold encode decode
    rw [V2I.fieldOpc_word]
    exact decodeV2I_word _ h
  | vqrshrn o =>
    unfold encode decode
    rw [V2N.fieldOpc_word]
    exact decodeV2N_word _ h
  | vcvtF32S32 o | vcvtS32F32 o =>
    unfold encode decode
    rw [V2F.fieldOpc_word]
    exact decodeV2F_word _ h
  | vsqrt o =>
    unfold encode decode
    rw [V2S.fieldOpc_word]
    exact decodeV2S_word _ _ o
  | vqshlr o =>
    unfold encode decode
    rw [V2R.fieldOpc_word]
    exact decodeV2R_word _ _ o

/-- Settles O1: the word's opcode leads back to the row, and the row's format reads back what was packed. -/
theorem decodeOfEncode : Obligations.DecodeOfEncode := fun _ => decode_encode

/-- Settles O2: the law by which a fault records the word that was issued. -/
theorem encodeOfDecode : Obligations.EncodeOfDecode := fun _ _ => encode_of_decode

end Sys2Proof

/-! Obligations O15 to O17 (10_state.md R29, 60_exceptions.md R290, R296): what an instruction can have changed in the state
it ends in, and from that what every step keeps. -/

namespace Sys2Proof.Machine

/-! What an instruction can have changed. -/

/-- `u` is `s` but for D registers. -/
def changesOnlyD (s u : State) : Prop := keepsControl s u ∧ u.mem = s.mem ∧ u.r = s.r

section onlyD

variable (s : State)

theorem changesOnlyD_writeV (r : DReg) (q : Bool) (v : Vec) : changesOnlyD s (s.writeV r q v) :=
  ⟨keepsControl_writeV .., by simp, by simp⟩

theorem changesOnlyD_writeV_writeV (a b : DReg) (q : Bool) (u v : Vec) :
    changesOnlyD s ((s.writeV a q u).writeV b q v) :=
  ⟨keepsControl_writeV_writeV .., by simp, by simp⟩

theorem changesOnlyD_writeD (j : DReg) (v : DWord) : changesOnlyD s (s.writeD j v) :=
  ⟨keepsControl_writeD .., rfl, rfl⟩

theorem changesOnlyD_writeGroup (vd : DReg) (q : Bool) (n : Nat) (f : Nat → Vec) :
    changesOnlyD s (s.writeGroup vd q n f) :=
  ⟨keepsControl_writeGroup .., by simp, by simp⟩

end onlyD

/-- Everything the instruction `i` can have done from `s`, by the state it ends in: it took a fault, with its own word and
an address only for a transfer; or it changed D registers; or it loaded, or stored the elements of a legal transfer, and
wrote the base back. -/
inductive Effect (i : Instr) (s : State) : State → Prop where
  | fault {c : Cause} {addr : Word} (hc : c ≠ .illegalInstruction) (haddr : addr ≠ 0 → c = .alignment ∨ c = .access) :
      Effect i s (s.takeFault c (encode i) addr)
  | registers {u : State} (ht : transferOf i = none) (hi : isStore i = false) (hu : changesOnlyD s u) :
      Effect i s u.advance
  | load {o : LS} {n T : Nat} {u : State} (ht : transferOf i = some (o, n, T)) (hi : isStore i = false)
      (hu : changesOnlyD s u) : Effect i s (o.writeback T s u).advance
  | store {o : LS} {n : Nat} {elem : Nat → BitVec o.sz.bits} (ht : transferOf i = some (o, n, groupBytes o n))
      (hi : isStore i = true) (hlegal : transferLegal o (groupBytes o n) s) :
      Effect i s (o.writeback (groupBytes o n) s (s.setMem
        (Memory.writeElems s.mem (o.base s).toNat o.sz.bits (n * laneCount o.q o.sz) elem))).advance

section effect

variable {i : Instr} {s t u : State}

theorem effect_of_completeIf {ok : Bool} (h : exec i s = .next t) (he : exec i s = completeIf ok (encode i) s u)
    (ht : transferOf i = none) (hi : isStore i = false) (hu : changesOnlyD s u) : Effect i s t := by
  rw [he] at h
  obtain ⟨-, hn⟩ | ⟨-, hn⟩ := completeIf_cases ok (encode i) s u <;> cases hn.symm.trans h
  · exact .registers ht hi hu
  · exact .fault (by decide) (absurd rfl)

/-- A transfer took a fault, or was legal and did its effect and the writeback. -/
theorem effect_of_transfer {o : LS} {n T : Nat} (h : exec i s = .next t)
    (he : exec i s = transfer (encode i) o n T s u)
    (hok : transferLegal o T s → Effect i s (o.writeback T s u).advance) : Effect i s t := by
  rw [he] at h
  obtain ⟨-, hnone, hn⟩ | ⟨-, hn⟩ | ⟨-, c, -, hc, hn⟩ := transfer_cases (encode i) o n T s u <;>
    cases hn.symm.trans h
  · exact hok (transferFault_eq_none.mp hnone)
  · exact .fault (by decide) (absurd rfl)
  · exact .fault (by obtain rfl | rfl := hc <;> decide) fun _ => hc

theorem effect_of_loadGroup {o : LS} {n : Nat} (h : exec i s = .next t) (he : exec i s = loadGroup (encode i) o n s)
    (ht : transferOf i = some (o, n, groupBytes o n)) (hi : isStore i = false) : Effect i s t := by
  rw [loadGroup, bytes_eq] at he
  exact effect_of_transfer h he fun _ => .load ht hi (changesOnlyD_writeGroup ..)

theorem effect_of_storeGroup {o : LS} {n : Nat} (h : exec i s = .next t) (he : exec i s = storeGroup (encode i) o n s)
    (ht : transferOf i = some (o, n, groupBytes o n)) (hi : isStore i = true) : Effect i s t := by
  rw [storeGroup, bytes_eq] at he
  exact effect_of_transfer h he (.store ht hi)

theorem effect_of_vsqrt {o : V2S} (h : exec (.vsqrt o) s = .next t) : Effect (.vsqrt o) s t := by
  obtain hneg | hnonneg := lt_or_ge (lane 32 (s.readV o.vm false) o.mi.toNat).toInt 0
  · cases (exec_vsqrt_of_neg hneg).symm.trans h
    exact .fault (by decide) (absurd rfl)
  · cases (exec_vsqrt_of_nonneg hnonneg).symm.trans h
    exact .registers rfl rfl (changesOnlyD_writeD ..)

/-- Every instruction, by the shared operation that it runs. -/
theorem effect_of_exec (h : exec i s = .next t) : Effect i s t := by
  cases i with
  | vld1 o | vld2 o | vld3 o | vld4 o => exact effect_of_loadGroup h rfl rfl rfl
  | vst1 o | vst2 o | vst3 o | vst4 o => exact effect_of_storeGroup h rfl rfl rfl
  | vlddup o => exact effect_of_transfer h rfl fun _ => .load rfl rfl (changesOnlyD_writeV ..)
  | vzip o | vuzp o | vtrn o | vswp o => exact effect_of_completeIf h rfl rfl rfl (changesOnlyD_writeV_writeV ..)
  | vsqrt o => exact effect_of_vsqrt h
  | vadd o | vsub o | vqadd o | vqsub o | vneg o | vabs o | vqneg o | vqabs o | vqshl o | vqshlr o | vrshr o | vmin o
  | vmax o | vpadd o | vpmax o | vpmin o | vmul o | vmla o | vmls o | vmull o | vmlal o | vmlsl o | vqdmulh o
  | vqrdmulh o | vqdmulhLane o | vqrdmulhLane o | vrev o | vext o | vdup o | vcge o | vcgt o | vceq o | vcgez o
  | vcgtz o | vceqz o | vtst o | vbit o | vclz o | vcls o | vqrshrn o | vcvtF32S32 o | vcvtS32F32 o =>
    exact effect_of_completeIf h rfl rfl rfl (changesOnlyD_writeV ..)

end effect

/-! Which instructions touch which state (R29). -/

section reads

variable {s u : State}

theorem readMem_of_changesOnlyD (hu : changesOnlyD s u) (a : Nat) : u.readMem a = s.readMem a := by
  rw [State.readMem, hu.2.1, State.readMem]

theorem readR_of_changesOnlyD (hu : changesOnlyD s u) (j : RReg) : u.readR j = s.readR j := by
  simp only [State.readR, hu.2.2]

/-- Without writeback no R register changes, and with it the base register alone. -/
theorem readR_writeback_of_keep_or_ne {o : LS} {T : Nat} (hu : ∀ j, u.readR j = s.readR j) {j : RReg}
    (hj : o.wb = .keep ∨ j ≠ o.rn) : (o.writeback T s u).advance.readR j = s.readR j := by
  obtain hkeep | hne := hj
  · rw [State.advance_readR, LS.writeback, if_pos hkeep, hu]
  · exact readR_writeback_of_ne hu hne

end reads

/-- Settles O15, by what the instruction has done. -/
theorem whoWritesWhat : Obligations.WhoWritesWhat := by
  intro i s t h
  cases effect_of_exec h with
  | fault _ _ => exact ⟨fun _ _ => rfl, fun _ _ => rfl, fun _ _ => rfl, fun _ _ _ _ _ _ => rfl⟩
  | registers ht hi hu =>
    refine ⟨fun _ a => ?_, by simp [hi], fun _ j => ?_, by simp [ht]⟩
    · rw [State.advance_readMem, readMem_of_changesOnlyD hu]
    · rw [State.advance_readR, readR_of_changesOnlyD hu]
  | @load o n T u ht hi hu =>
    refine ⟨fun _ a => ?_, by simp [hi], by simp [ht], fun o' n' T' ht' j hj => ?_⟩
    · rw [State.advance_readMem, LS.writeback_readMem, readMem_of_changesOnlyD hu]
    · cases ht.symm.trans ht'
      exact readR_writeback_of_keep_or_ne (readR_of_changesOnlyD hu) hj
  | store ht hi _ =>
    refine ⟨by simp [hi], fun _ j => by simp, by simp [ht], fun o' n' T' ht' j hj => ?_⟩
    cases ht.symm.trans ht'
    exact readR_writeback_of_keep_or_ne (fun _ => rfl) hj

/-! The cells of memory. -/

theorem Memory.mem_write {m : List Host.Cell} {a : Nat} {b : Byte} {c : Host.Cell} (h : c ∈ Memory.write m a b) :
    c.1 = a ∨ c ∈ m :=
  (Memory.mem_insert h).imp (congrArg Prod.fst) List.mem_of_mem_filter

theorem Memory.mem_writeBytes {m : List Host.Cell} {a n : Nat} {f : Nat → Byte} {c : Host.Cell}
    (h : c ∈ Memory.writeBytes m a n f) : c.1 < a + n ∨ c ∈ m := by
  induction n with
  | zero => exact .inr h
  | succ n ih =>
    obtain hc | hc := Memory.mem_write h
    · exact .inl (by omega)
    · exact (ih hc).imp_left fun hlt => by omega

/-- A run of elements lists no address past its end. -/
theorem Memory.mem_writeElems {m : List Host.Cell} {a w n : Nat} {elem : Nat → BitVec w} {c : Host.Cell}
    (h : c ∈ Memory.writeElems m a w n elem) : c.1 < a + n * (w / 8) ∨ c ∈ m := by
  induction n with
  | zero => exact .inr h
  | succ n ih =>
    rw [Nat.succ_mul]
    obtain hc | hc := Memory.mem_writeBytes h
    · exact .inl (by omega)
    · exact (ih hc).imp_left fun hlt => by omega

/-! The invariant, by its two parts. -/

/-- The fault record: zero in READY; in FAULTED a defined cause, the `pc` it stopped at, an address only for a transfer,
and an undefined word exactly for `IllegalInstruction`. -/
def RecordInv (s : State) : Prop :=
  (s.faulted = false → s.fcause = 0 ∧ s.fpc = 0 ∧ s.finst = 0 ∧ s.faddr = 0) ∧
  (s.faulted = true →
    1 ≤ s.fcause.toNat ∧ s.fcause.toNat ≤ 5 ∧ s.fpc = s.pc ∧ (s.faddr ≠ 0 → s.fcause = 3 ∨ s.fcause = 4) ∧
      (s.fcause = 1 ↔ ∃ e, decode s.finst = .error e))

/-- The memory list: canonical, no address at or past `MEM_BYTES`. -/
def MemInv (s : State) : Prop := Memory.wf s.mem = true ∧ ∀ c ∈ s.mem, c.1 < s.memBytes

theorem inv_iff {s : State} : Inv s ↔ RecordInv s ∧ MemInv s := by
  rw [Inv, RecordInv, MemInv, and_assoc]

section parts

variable {s u : State}

theorem recordInv_of_clear (hf : s.faulted = false) (h : s.fcause = 0 ∧ s.fpc = 0 ∧ s.finst = 0 ∧ s.faddr = 0) :
    RecordInv s :=
  ⟨fun _ => h, fun hf' => absurd (hf.symm.trans hf') (by decide)⟩

/-- An instruction that completes in READY leaves the zero record. -/
theorem recordInv_of_sameControl (hs : s.faulted = false) (h : RecordInv s) (hu : sameControl s u) : RecordInv u := by
  obtain ⟨hf, hcause, hpc, hinst, haddr, -⟩ := hu
  exact recordInv_of_clear (hf.trans hs) (by rw [hcause, hpc, hinst, haddr]; exact h.1 hs)

theorem recordInv_takeFault {c : Cause} {inst addr : Word} (haddr : addr ≠ 0 → c = .alignment ∨ c = .access)
    (hinst : c = .illegalInstruction ↔ ∃ e, decode inst = .error e) : RecordInv (s.takeFault c inst addr) := by
  have hbounds : 1 ≤ c.code.toNat ∧ c.code.toNat ≤ 5 := by cases c <;> decide
  have hillegal : c.code = 1 ↔ c = .illegalInstruction := by cases c <;> decide
  refine ⟨nofun, fun _ => ⟨hbounds.1, hbounds.2, rfl, fun h => ?_, hillegal.trans hinst⟩⟩
  obtain rfl | rfl := haddr h
  · exact .inl rfl
  · exact .inr rfl

theorem memTop_of_sameControl (h : sameControl s u) : u.memTop = s.memTop := by
  obtain ⟨-, -, -, -, -, htop, -⟩ := h
  exact htop

theorem memInv_congr (h : MemInv s) (hmem : u.mem = s.mem) (htop : u.memTop = s.memTop) : MemInv u := by
  rw [MemInv, hmem, State.memBytes, htop]
  exact h

/-- Cells below `MEM_BYTES` in a canonical list keep the invariant. -/
theorem memInv_setMem {m : List Host.Cell} {n : Nat} (h : MemInv s) (hwf : Memory.wf m = true)
    (hm : ∀ c ∈ m, c.1 < n ∨ c ∈ s.mem) (hn : n ≤ s.memBytes) : MemInv (s.setMem m) :=
  ⟨hwf, fun c hc => (hm c hc).elim (fun hlt => hlt.trans_le hn) (h.2 c)⟩

end parts

/-- An instruction that a READY block executes, of a word that decodes to it, keeps the invariant. -/
theorem inv_of_exec {i : Instr} {s t : State} (hs : s.faulted = false) (hi : ∃ j, decode (encode i) = .ok j)
    (hinv : Inv s) (h : exec i s = .next t) : Inv t := by
  obtain ⟨hrec, hmem⟩ := inv_iff.mp hinv
  rw [inv_iff]
  cases effect_of_exec h with
  | fault hc haddr => exact ⟨recordInv_takeFault haddr (by obtain ⟨j, hj⟩ := hi; simp [hc, hj]), hmem⟩
  | registers _ _ hu =>
    obtain ⟨⟨-, hcontrol⟩, humem, -⟩ := hu
    exact ⟨recordInv_of_sameControl hs hrec hcontrol, memInv_congr hmem humem (memTop_of_sameControl hcontrol)⟩
  | @load o n T u _ _ hu =>
    obtain ⟨hkeeps, humem, -⟩ := hu
    have hcontrol := (keepsControl_writeback hkeeps o T).2
    exact ⟨recordInv_of_sameControl hs hrec hcontrol, memInv_congr hmem (by simp [humem]) (memTop_of_sameControl hcontrol)⟩
  | @store o n elem _ _ hlegal =>
    have hcontrol := (keepsControl_writeback (keepsControl_setMem s (Memory.writeElems s.mem (o.base s).toNat o.sz.bits
      (n * laneCount o.q o.sz) elem)) o (groupBytes o n)).2
    have hstored := memInv_setMem (n := (o.base s).toNat + groupBytes o n) hmem
      (Memory.wf_writeElems hmem.1 (o.base s).toNat o.sz.bits (n * laneCount o.q o.sz) elem)
      (fun c hc => by rw [groupBytes_eq]; exact Memory.mem_writeElems hc) hlegal.2
    exact ⟨recordInv_of_sameControl hs hrec hcontrol, memInv_congr hstored (by simp) (by simp)⟩

/-- Settles O16, by the move that the step takes: the host's writes leave the record, its reset clears it, and a word is
refused, or decodes and is then the encoding of what it decodes to. -/
theorem stepKeepsInv : Obligations.StepKeepsInv := by
  intro s t hinv h
  obtain ⟨-, rfl⟩ | ⟨m, ms, -, hmove⟩ := step_cases h
  · exact hinv
  have hinv' : Inv (s.setHost ms) := hinv
  obtain ⟨hrec, hmem⟩ := inv_iff.mp hinv'
  obtain ⟨w, -, hs, ⟨e, hd, rfl⟩ | ⟨i, hd, he⟩⟩ | ⟨i, v, -, rfl⟩ |
      ⟨i, v, -, rfl⟩ | ⟨a, b, -, ha, rfl⟩ | ⟨-, rfl⟩ := hmove
  · exact inv_iff.mpr ⟨recordInv_takeFault (absurd rfl) (iff_of_true rfl ⟨e, hd⟩), hmem⟩
  · exact inv_of_exec (s := s.setHost ms) hs ⟨i, (encode_of_decode hd).1.symm ▸ hd⟩ hinv' he
  · exact hinv'
  · exact hinv'
  · have hwf : Memory.wf (Memory.write s.mem a.toNat b) = true := Memory.wf_write hmem.1 _ _
    exact inv_iff.mpr ⟨hrec, memInv_setMem (n := a.toNat + 1) hmem hwf
      (fun c hc => (Memory.mem_write hc).imp_left fun heq => by omega) ha⟩
  · exact inv_iff.mpr ⟨recordInv_of_clear rfl ⟨rfl, rfl, rfl, rfl⟩, memInv_congr hmem (by simp) (by simp)⟩

/-- Settles O17: no fault is recorded and no byte is listed. -/
theorem invAtReset : Obligations.InvAtReset :=
  inv_iff.mpr ⟨recordInv_of_clear rfl ⟨rfl, rfl, rfl, rfl⟩, rfl, by simp [State.reset]⟩

end Sys2Proof.Machine

/-! Obligations O6 to O9, O11 and O12 (00_scope.md R14, R16, R17, 10_state.md R32): the issue port, the host's other moves
and the status registers. -/

namespace Sys2Proof.Machine

/-- Settles O6: the move is taken from the list, and a READY issue port runs what the word decodes to. -/
theorem stepRunsDecoded : Obligations.StepRunsDecoded := fun s _ ms _ hh hs hd _ =>
  (step_cons hh).trans (issueWord_ok (s := s.setHost ms) hs hd)

/-- A word presented in FAULTED is not accepted (assumption log 13). -/
theorem issueWord_of_faulted {s : State} (hs : s.faulted = true) (w : Word) :
    issueWord w s = .fault .stoppedUntilReset :=
  if_pos hs

/-- Settles O7: the issue port in FAULTED, and a step without a move. -/
theorem stepWithoutAcceptedWord : Obligations.StepWithoutAcceptedWord :=
  ⟨fun s w ms hh hs => (step_cons hh).trans (issueWord_of_faulted (s := s.setHost ms) hs w), fun _ => step_nil⟩

/-- Settles O8: one register or one byte is written, which the laws of reading after writing describe. -/
theorem hostWrites : Obligations.HostWrites := by
  refine fun s ms => ⟨fun i v hh => ⟨_, step_cons hh, ?_⟩, fun i v hh => ⟨_, step_cons hh, ?_⟩,
    fun a b hh ha => ⟨_, (step_cons hh).trans (hostMove_writeByte b ha), ?_⟩⟩
  · refine ⟨by simp, rfl, ⟨rfl, rfl, rfl, rfl, rfl, rfl, rfl, rfl⟩, fun j hj => ?_, fun _ _ => rfl, fun _ _ => rfl⟩
    simp [Ne.symm hj]
  · refine ⟨by simp, rfl, ⟨rfl, rfl, rfl, rfl, rfl, rfl, rfl, rfl⟩, fun _ _ => rfl, fun j hj => ?_, fun _ _ => rfl⟩
    simp [Ne.symm hj]
  · refine ⟨by simp, rfl, ⟨rfl, rfl, rfl, rfl, rfl, rfl, rfl, rfl⟩, fun _ _ => rfl, fun _ _ => rfl, fun x hx => ?_⟩
    simp [Ne.symm hx, State.readMem]

/-- Settles O9: each field by its law of the reset event. -/
theorem resetEvent : Obligations.ResetEvent := fun s ms hh =>
  ⟨_, step_cons hh, rfl, rfl, rfl, rfl, rfl, rfl, fun a => (s.setHost ms).hostReset_readMem a,
    (s.setHost ms).hostReset_memTop, (s.setHost ms).hostReset_host⟩

/-- Settles O11: number 0 by the state bit, number 2 because three bits fit in 32. -/
theorem statusRegisters : Obligations.StatusRegisters := by
  refine fun s => ⟨?_, rfl, ⟨_, rfl, ?_⟩, rfl, rfl, rfl⟩
  · cases hf : s.faulted <;> simp [State.readStatus, hf]
  · exact BitVec.toNat_setWidth_of_le (by decide)

/-- Settles O12, by the number of the register. -/
theorem statusAfterReset : Obligations.StatusAfterReset := by
  intro n hn
  interval_cases n <;> rfl

end Sys2Proof.Machine

/-! Obligations O25 and O26 (20_memory.md R54, R65): a load and a store of the same bytes, and the bytes of a whole register
at different lane widths. -/

namespace Sys2Proof.Machine

/-! A load or store of a group after another transfer. -/

section roundTrip

variable {o p : LS} {n : Nat} {s t u : State}

/-- Two transfers of one shape find the same base and the same legality before and after the first of them. -/
theorem transferLegal_of_base {T : Nat} (hbase : p.base t = p.base s) (htop : t.memTop = s.memTop)
    (h : transferLegal p T s) : transferLegal p T t := by
  rwa [transferLegal, hbase, State.memBytes, htop]

/-- Memory at `a` holds the bytes of the group of `n` registers at `o.vd`, in the order of a structured transfer (R121). -/
def groupAt (o : LS) (n a : Nat) (mem regs : State) : Prop :=
  ∀ m k b, m < n → k < laneCount o.q o.sz → b < o.sz.bytes →
    mem.readMem (a + (k * n + m) * o.sz.bytes + b) =
      (lane o.sz.bits (regs.readV (groupMember o.vd o.q m) o.q) k).extractLsb' (8 * b) 8

/-- A group whose bytes stand at two places: the places hold the same bytes. -/
theorem readMem_eq_of_groupAt {a a' : Nat} {x y : State} (hn : 0 < n) (hx : groupAt o n a x t) (hy : groupAt o n a' y t)
    {b : Nat} (hb : b < groupBytes o n) : x.readMem (a + b) = y.readMem (a' + b) := by
  obtain ⟨m, k, c, hm, hk, hc, rfl⟩ := split_offset o hn hb
  rw [← Nat.add_assoc, ← Nat.add_assoc, hx m k c hm hk hc, hy m k c hm hk hc]

/-- Two groups whose bytes stand at one place hold the same. -/
theorem readV_eq_of_groupAt {a : Nat} {x y : State} (hsz : p.sz = o.sz) (hq : p.q = o.q) (hx : groupAt o n a t x)
    (hy : groupAt p n a t y) {m : Nat} (hm : m < n) :
    y.readV (groupMember p.vd p.q m) p.q = x.readV (groupMember o.vd o.q m) o.q := by
  obtain ⟨sz, q, vd, rn, wb⟩ := p
  subst hsz hq
  refine readV_ext o.sz fun k hk => lane_ext_bytes o.sz fun c hc => ?_
  exact (hy m k c hm hk hc).symm.trans (hx m k c hm hk hc)

/-- Only the shape of the group counts. -/
theorem groupAt_congr {a : Nat} {x y : State} (hsz : p.sz = o.sz) (hq : p.q = o.q) (hvd : p.vd = o.vd)
    (h : groupAt p n a x y) : groupAt o n a x y := by
  obtain ⟨sz, q, vd, rn, wb⟩ := p
  subst hsz hq hvd
  exact h

variable {i j : Instr}

/-- A group loaded and then stored: its bytes stand at both bases. -/
theorem load_then_store (hn : 0 < n) (hi : ruleLoad i o n s) (hj : ∀ t, ruleStore j p n t) (hsz : p.sz = o.sz)
    (hq : p.q = o.q) (hvd : p.vd = o.vd) (hwb : o.wb = .keep ∨ p.rn ≠ o.rn) (hgo : groupLegal o.vd o.q n)
    (hgp : groupLegal p.vd p.q n) (hto : transferLegal o (groupBytes o n) s)
    (htp : transferLegal p (groupBytes p n) s) :
    ∃ t u, exec i s = .next t ∧ loadCompleted o n s t ∧ exec j t = .next u ∧ storeCompleted p n t u ∧
      (∀ b, b < groupBytes o n → u.readMem ((p.base s).toNat + b) = s.readMem ((o.base s).toNat + b)) ∧
      (p.base s = o.base s → ∀ a, u.readMem a = s.readMem a) := by
  obtain ⟨t, hload, hloaded, hbytes⟩ := hi hgo hto
  obtain ⟨⟨-, ⟨-, -, -, -, -, htop, -⟩, -, hR, hM⟩, hback⟩ := id hloaded
  have hbase : p.base t = p.base s := base_of_writtenBack hR hback hwb
  obtain ⟨u, hstore, hstored, hbytes'⟩ := hj t hgp (transferLegal_of_base hbase htop htp)
  have hfirst : groupAt o n (o.base s).toNat s t := fun m k b hm hk hb => (hbytes m k b hm hk hb).symm
  have hsecond : groupAt o n (p.base s).toNat u t := groupAt_congr hsz hq hvd (hbase ▸ hbytes')
  have hsame := fun b (hb : b < groupBytes o n) => readMem_eq_of_groupAt hn hsecond hfirst hb
  refine ⟨t, u, hload, hloaded, hstore, hstored, hsame, fun heq a => ?_⟩
  obtain ⟨⟨-, -, -, -, hM'⟩, -⟩ := hstored
  rw [hbase, heq, groupBytes_congr hq] at hM'
  by_cases ha : (o.base s).toNat ≤ a ∧ a < (o.base s).toNat + groupBytes o n
  · obtain ⟨b, rfl⟩ := Nat.exists_eq_add_of_le ha.1
    rw [← hsame b (by omega), heq]
  · rw [hM' a ha, hM a not_false]

/-- A group stored and then loaded: its bytes stand at one base. -/
theorem store_then_load (hi : ruleStore i o n s) (hj : ∀ t, ruleLoad j p n t) (hsz : p.sz = o.sz) (hq : p.q = o.q)
    (hbases : p.base s = o.base s) (hwb : o.wb = .keep ∨ p.rn ≠ o.rn) (hgo : groupLegal o.vd o.q n)
    (hgp : groupLegal p.vd p.q n) (hto : transferLegal o (groupBytes o n) s)
    (htp : transferLegal p (groupBytes p n) s) :
    ∃ t u, exec i s = .next t ∧ storeCompleted o n s t ∧ exec j t = .next u ∧ loadCompleted p n t u ∧
      (∀ m, m < n → u.readV (groupMember p.vd p.q m) p.q = s.readV (groupMember o.vd o.q m) o.q) ∧
      (p.vd = o.vd → ∀ k, u.readD k = s.readD k) := by
  obtain ⟨t, hstore, hstored, hbytes⟩ := hi hgo hto
  obtain ⟨⟨-, ⟨-, -, -, -, -, htop, -⟩, hD, hR, -⟩, hback⟩ := id hstored
  have hbase : p.base t = p.base s := base_of_writtenBack hR hback hwb
  obtain ⟨u, hload, hloaded, hbytes'⟩ := hj t hgp (transferLegal_of_base hbase htop htp)
  have hsecond : groupAt p n (o.base s).toNat t u := by
    rw [← hbases, ← hbase]
    exact fun m k b hm hk hb => (hbytes' m k b hm hk hb).symm
  have hsame := fun m (hm : m < n) => readV_eq_of_groupAt hsz hq hbytes hsecond hm
  refine ⟨t, u, hstore, hstored, hload, hloaded, hsame, fun hvd k => ?_⟩
  obtain ⟨⟨-, -, hD', -⟩, -⟩ := hloaded
  by_cases hk : inGroup p.vd p.q n k
  · obtain ⟨m, hm, hk⟩ := hk
    refine readD_of_readV ?_ hk
    rw [hsame m hm, hvd, hq]
  · rw [hD' k hk, hD k not_false]

end roundTrip

/-- Settles O25, for each pair of a load and a store of one group size. -/
theorem loadStoreRoundTrip : Obligations.LoadStoreRoundTrip := by
  intro ld st n hmem o p s hsz hq hwb hgo hgp hto htp
  have hrules : 0 < n ∧ (∀ o s, ruleLoad (ld o) o n s) ∧ ∀ o s, ruleStore (st o) o n s := by
    simp only [List.mem_cons, Prod.mk.injEq, List.not_mem_nil, or_false] at hmem
    obtain ⟨rfl, rfl, rfl⟩ | ⟨rfl, rfl, rfl⟩ | ⟨rfl, rfl, rfl⟩ | ⟨rfl, rfl, rfl⟩ := hmem <;>
      exact ⟨by decide, fun _ _ => ruleLoad_of_loadGroup rfl, fun _ _ => ruleStore_of_storeGroup rfl⟩
  obtain ⟨hn, hload, hstore⟩ := hrules
  exact ⟨fun hvd => load_then_store hn (hload o s) (hstore p) hsz hq hvd hwb hgo hgp hto htp,
    fun hbases => store_then_load (hstore o s) (hload p) hsz hq hbases hwb hgo hgp hto htp⟩

/-! One register at two lane widths (R54). -/

/-- Bit `k` of a register loaded from `a` is bit `k % 8` of byte `k / 8`, at every lane width. -/
theorem getLsbD_loadedLanes (mem : List Host.Cell) (a : Nat) (q : Bool) (sz : Sz) (k : Nat) :
    (ofLanes sz.bits (laneCount q sz) fun i => Memory.readElem mem (a + (i * 1 + 0) * sz.bytes) sz.bits).getLsbD k =
      (decide (k < regBits q) && (Memory.read mem (a + k / 8)).getLsbD (k % 8)) := by
  have hbits := sz.bits_eq
  have hdiv : k / sz.bits * sz.bytes + k % sz.bits / 8 = k / 8 := by
    rw [hbits, ← Nat.div_div_eq_div_mul, Nat.mod_mul_right_div_self, Nat.mul_comm, Nat.div_add_mod]
  have hmod : k % sz.bits % 8 = k % 8 := by rw [hbits, Nat.mod_mul_right_mod]
  have h128 := regBits_le q
  rw [getLsbD_ofLanes sz.bits_pos, bits_mul_laneCount, Memory.getLsbD_readElem, hmod, Nat.mul_one, Nat.add_zero,
    Nat.add_assoc, hdiv, decide_eq_true (Nat.mod_lt k sz.bits_pos), Bool.true_and]
  by_cases hk : k < regBits q
  · simp [hk, hk.trans_le h128]
  · simp [hk]

/-- Byte `b` of lane `k` is byte `k * B + b` of the register. -/
theorem extractLsb'_lane (sz : Sz) (v : Vec) (k : Nat) {b : Nat} (hb : b < sz.bytes) :
    (lane sz.bits v k).extractLsb' (8 * b) 8 = lane 8 v (k * sz.bytes + b) := by
  have hbits := sz.bits_eq
  apply BitVec.eq_of_getLsbD_eq
  intro x hx
  have hin : 8 * b + x < sz.bits := by omega
  have hplace : sz.bits * k + (8 * b + x) = 8 * (k * sz.bytes + b) + x := by rw [hbits]; ring
  simp only [BitVec.getLsbD_extractLsb', getLsbD_lane, hx, hin, hplace, decide_true, Bool.true_and]

section widths

variable {o : LS} {s t u : State}

/-- After a store of one register its bytes stand at the base in order, whatever the lane width (R52, R54). -/
theorem readMem_of_vst1 (hbytes : groupAt o 1 (o.base s).toNat t s) {b : Nat} (hb : b < groupBytes o 1) :
    t.readMem ((o.base s).toNat + b) = lane 8 (s.readV (groupMember o.vd o.q 0) o.q) b := by
  obtain ⟨m, k, c, hm, hk, hc, rfl⟩ := split_offset o Nat.one_pos hb
  obtain rfl : m = 0 := by omega
  rw [← Nat.add_assoc, hbytes 0 k c hm hk hc, extractLsb'_lane _ _ _ hc, Nat.mul_one, Nat.add_zero]

/-- `VLD1` writes one register with the lanes at the base. -/
theorem exec_vld1 (hg : groupLegal o.vd o.q 1) (ht : transferLegal o (groupBytes o 1) s) :
    exec (.vld1 o) s = .next (o.writeback (groupBytes o 1) s (s.writeV (groupReg o.vd o.q 0) o.q
      (ofLanes o.sz.bits (laneCount o.q o.sz) fun i =>
        Memory.readElem s.mem ((o.base s).toNat + (i * 1 + 0) * o.sz.bytes) o.sz.bits))).advance := by
  rw [← bytes_eq] at ht ⊢
  exact transfer_ok _ hg ht

/-- Two stores from one state that change the same bytes and the same base register, by the same writeback, leave the
same R registers. -/
theorem r_eq_of_storeCompleted {p : LS} (hp : p = { o with sz := p.sz }) (ht : storeCompleted o 1 s t)
    (hu : storeCompleted p 1 s u) : t.r = u.r := by
  rw [hp] at hu
  obtain ⟨⟨-, -, -, hR, -⟩, hback⟩ := ht
  obtain ⟨⟨-, -, -, hR', -⟩, hback'⟩ := hu
  refine State.r_ext fun j => ?_
  by_cases hj : j = o.rn
  · subst hj
    exact BitVec.eq_of_toNat_eq (Int.ofNat_inj.mp (hback.trans hback'.symm))
  · rw [hR j hj, hR' j hj]

end widths

/-- Settles O26: the register loaded is the bytes at the base, and the bytes stored are those of the register, whatever
the lane width; the writeback does not look at it. -/
theorem singleTransfersIgnoreWidth : Obligations.SingleTransfersIgnoreWidth := by
  intro o sz s hg ht ht'
  constructor
  · refine ⟨_, _, exec_vld1 hg ht, exec_vld1 (o := { o with sz := sz }) hg ht', ?_⟩
    have hlanes : (ofLanes o.sz.bits (laneCount o.q o.sz) fun i =>
          Memory.readElem s.mem ((o.base s).toNat + (i * 1 + 0) * o.sz.bytes) o.sz.bits) =
        ofLanes sz.bits (laneCount o.q sz) fun i =>
          Memory.readElem s.mem ((o.base s).toNat + (i * 1 + 0) * sz.bytes) sz.bits :=
      BitVec.eq_of_getLsbD_eq fun k _ => by rw [getLsbD_loadedLanes, getLsbD_loadedLanes]
    rw [hlanes]
    rfl
  · obtain ⟨t, hstore, hstored, hbytes⟩ := ruleStore_of_storeGroup (i := .vst1 o) rfl hg ht
    obtain ⟨u, hstore', hstored', hbytes'⟩ := ruleStore_of_storeGroup (i := .vst1 { o with sz := sz }) rfl hg ht'
    refine ⟨t, u, hstore, hstore', fun a => ?_, r_eq_of_storeCompleted rfl hstored hstored'⟩
    by_cases ha : (o.base s).toNat ≤ a ∧ a < (o.base s).toNat + groupBytes o 1
    · obtain ⟨b, rfl⟩ := Nat.exists_eq_add_of_le ha.1
      have hb : b < groupBytes o 1 := by omega
      exact (readMem_of_vst1 hbytes hb).trans (readMem_of_vst1 hbytes' hb).symm
    · obtain ⟨⟨-, -, -, -, hM⟩, -⟩ := hstored
      obtain ⟨⟨-, -, -, -, hM'⟩, -⟩ := hstored'
      exact (hM a ha).trans (hM' a ha).symm

end Sys2Proof.Machine

/-! Obligation O33 (41_arithmetic.md R165, 45_conversion_misc.md R272): a left shift keeps a lane exactly while the amount is
within the headroom that `VCLS` counts. -/

namespace Sys2Proof.Machine

section headroom

variable {w n : Nat} {x r : BitVec w}

/-- An amount within the headroom shifts without saturation. -/
theorem toInt_of_satsTo_of_le_cls (hw : 0 < w) (hr : satsTo r (x.toInt * 2 ^ n)) (hn : n ≤ cls x) :
    r.toInt = x.toInt * 2 ^ n := by
  obtain ⟨-, hmin, hmax⟩ := (le_cls_iff_fits x hw n).mp hn
  rw [hr, max_eq_left hmin, min_eq_left hmax]

/-- A lane shifted past its headroom does not fit. An amount of `w` or more is no case of its own: a nonzero lane that
fits after the shift is shifted by less than `w`. -/
theorem not_fits_of_cls_lt (hw : 0 < w) (hx : x.toInt ≠ 0) (hn : cls x < n) :
    ¬(-(2 ^ (w - 1)) ≤ x.toInt * 2 ^ n ∧ x.toInt * 2 ^ n ≤ 2 ^ (w - 1) - 1) := by
  rintro ⟨hmin, hmax⟩
  have hpos : (0 : Int) < 2 ^ n := by positivity
  have hle : (2 : Int) ^ n ≤ 2 ^ (w - 1) := by
    obtain hneg | hpos' := lt_or_gt_of_ne hx <;> nlinarith
  have hnw : n ≤ w - 1 := (pow_le_pow_iff_right₀ (by norm_num : (1 : Int) < 2)).mp hle
  exact absurd ((le_cls_iff_fits x hw n).mpr ⟨by omega, hmin, hmax⟩) (by omega)

/-- A positive lane shifted past its headroom goes to `MAX_w`. -/
theorem toInt_of_satsTo_of_pos (hw : 0 < w) (hr : satsTo r (x.toInt * 2 ^ n)) (hx : 0 < x.toInt) (hn : cls x < n) :
    r.toInt = 2 ^ (w - 1) - 1 := by
  have hnot := not_fits_of_cls_lt hw hx.ne' hn
  have hprod : 0 < x.toInt * 2 ^ n := by positivity
  have hpow : (0 : Int) < 2 ^ (w - 1) := by positivity
  rw [hr]
  omega

/-- A negative lane shifted past its headroom goes to `MIN_w`. -/
theorem toInt_of_satsTo_of_neg (hw : 0 < w) (hr : satsTo r (x.toInt * 2 ^ n)) (hx : x.toInt < 0) (hn : cls x < n) :
    r.toInt = -(2 ^ (w - 1)) := by
  have hnot := not_fits_of_cls_lt hw hx.ne hn
  have hprod : x.toInt * 2 ^ n < 0 := mul_neg_of_neg_of_pos hx (by positivity)
  have hpow : (0 : Int) < 2 ^ (w - 1) := by positivity
  rw [hr]
  omega

theorem toInt_of_satsTo_zero (hr : satsTo r (x.toInt * 2 ^ n)) (hx : x.toInt = 0) : r.toInt = x.toInt * 2 ^ n := by
  have hpow : (0 : Int) < 2 ^ (w - 1) := by positivity
  rw [hx, zero_mul] at hr ⊢
  rw [hr]
  omega

end headroom

/-- Settles O33: lane by lane the shift of R165 against the count of R272. -/
theorem shiftSaturatesPastHeadroom : Obligations.ShiftSaturatesPastHeadroom := by
  rintro o ⟨sz, q, vd, vm⟩ s rfl rfl rfl hvd hvm hcd hamount
  obtain ⟨t, hshift, -, hlanes⟩ := (shiftRegister o s).1 ⟨hvd, hvm⟩
  obtain ⟨hlegal, -⟩ := rule2_of_lanewise2 (i := .vcls ⟨o.sz, o.q, vd, o.vm⟩) (s := s) (g := laneCls)
    (f := fun x r => r = laneCls x) V2.regsOk_iff rfl fun _ => rfl
  obtain ⟨u, hcount, -, hcounts⟩ := hlegal ⟨hcd, hvm⟩
  refine ⟨t, u, hshift, hcount, fun k hk => ?_⟩
  have hw := o.sz.bits_pos
  have hsats := (hlanes k hk).1 hamount
  have hcls : (lane o.sz.bits (u.readV vd o.q) k).toNat = cls (lane o.sz.bits (s.readV o.vm o.q) k) := by
    rw [hcounts k hk, toNat_laneCls]
  simp only [hcls]
  refine ⟨fun h => ?_, fun hpos hlt => toInt_of_satsTo_of_pos hw hsats hpos (by omega),
    fun hneg hlt => toInt_of_satsTo_of_neg hw hsats hneg (by omega)⟩
  obtain hzero | hle := h
  · exact toInt_of_satsTo_zero hsats hzero
  · exact toInt_of_satsTo_of_le_cls hw hsats (by omega)

end Sys2Proof.Machine

/-! Obligation O46 (43_shuffle.md R221, R226): the transpose and the reversal undo themselves. -/

namespace Sys2Proof.Machine

/-- The pairs of lanes transposed twice are the pairs of lanes. -/
theorem readV_eq_of_transposed_twice {o : V2} {s t u : State} (hpairs : hasLanePairs o.q o.sz = true)
    (hst : Transposed o s t) (htu : Transposed o t u) :
    u.readV o.vd o.q = s.readV o.vd o.q ∧ u.readV o.vm o.q = s.readV o.vm o.q := by
  have heven : laneCount o.q o.sz % 2 = 0 := by revert hpairs; cases o.q <;> cases o.sz <;> decide
  refine ⟨readV_ext o.sz fun k hk => ?_, readV_ext o.sz fun k hk => ?_⟩
  all_goals
    obtain ⟨j, hj⟩ := Nat.even_or_odd' k
    obtain ⟨hd0, hd1, hm0, hm1⟩ := hst j (by omega)
    obtain ⟨hd0', hd1', hm0', hm1'⟩ := htu j (by omega)
    obtain rfl | rfl := hj
  · exact hd0'.trans hd0
  · exact hd1'.trans hm0
  · exact hm0'.trans hd1
  · exact hm1'.trans hm1

section reverse

variable {sz : Sz} {q : Bool} {a b : DReg} {s t u : State} {g : Nat}

/-- The lanes of `V(a, q)` in `t` are those of `V(b, q)` in `s` with every group of `g` reversed (R221). -/
def Reversed (sz : Sz) (q : Bool) (g : Nat) (b : DReg) (s : State) (a : DReg) (t : State) : Prop :=
  ∀ j i, j < laneCount q sz / g → i < g →
    lane sz.bits (t.readV a q) (j * g + i) = lane sz.bits (s.readV b q) (j * g + (g - 1 - i))

/-- The groups that `VREV` admits fill the register. -/
theorem dvd_laneCount_of_vrevImmOk {g : Imm8} (h : vrevImmOk q sz g = true) :
    0 < g.toNat ∧ g.toNat ∣ laneCount q sz := by
  have hgroups : ∀ n ∈ [2, 4, 8], n ≤ laneCount q sz → 0 < n ∧ n ∣ laneCount q sz := by
    cases q <;> cases sz <;> decide
  simp only [vrevImmOk, Bool.and_eq_true, Bool.or_eq_true, beq_iff_eq, decide_eq_true_eq] at h
  obtain ⟨hg, hle⟩ := h
  exact hgroups _ (by simpa [or_assoc] using hg) hle

/-- Reversing every group twice gives the lanes back. -/
theorem readV_eq_of_reversed_twice {c : DReg} (hpos : 0 < g) (hdvd : g ∣ laneCount q sz)
    (hst : Reversed sz q g b s a t) (htu : Reversed sz q g a t c u) : u.readV c q = s.readV b q := by
  refine readV_ext sz fun k hk => ?_
  have hj : k / g < laneCount q sz / g := Nat.div_lt_div_of_lt_of_dvd hdvd hk
  have hi : k % g < g := Nat.mod_lt k hpos
  rw [← Nat.div_add_mod' k g, htu _ _ hj hi, hst _ _ hj (by omega)]
  congr 2
  omega

/-- An operand rewritten by two instructions, and at the end with what it held, leaves every D register as it was. -/
theorem readD_eq_of_readV_eq_single (hst : completedD (inOperand a q) s t) (htu : completedD (inOperand a q) t u)
    (h : u.readV a q = s.readV a q) (j : DReg) : u.readD j = s.readD j := by
  obtain ⟨-, -, hD, -⟩ := hst
  obtain ⟨-, -, hD', -⟩ := htu
  by_cases hj : inOperand a q j
  · exact readD_of_readV h hj
  · exact (hD' j hj).trans (hD j hj)

end reverse

/-- Settles O46: each instruction's relation, applied twice, is the identity on its operands. -/
theorem transposeReverseTwice : Obligations.TransposeReverseTwice := by
  constructor
  · intro o s hpairs hvd hvm hne
    obtain ⟨t, hexec, hst, hlanes⟩ := (ruleInPlace_vtrn o s).1 ⟨hvd, hvm, hne⟩
    obtain ⟨u, hexec', htu, hlanes'⟩ := (ruleInPlace_vtrn o t).1 ⟨hvd, hvm, hne⟩
    exact ⟨t, u, hexec, hst, hexec', htu, hlanes,
      readD_eq_of_readV_eq hst htu (readV_eq_of_transposed_twice hpairs hlanes hlanes')⟩
  · intro o c s hwf hvd hvm hc
    obtain ⟨t, hexec, hst, hlanes⟩ := (reverseLanes.1 o s hwf).1 ⟨hvd, hvm⟩
    obtain ⟨u, hexec', htu, hlanes'⟩ := (reverseLanes.1 { o with vd := c, vm := o.vd } t hwf).1 ⟨hc, hvd⟩
    obtain ⟨hpos, hdvd⟩ := dvd_laneCount_of_vrevImmOk hwf
    have hback : u.readV c o.q = s.readV o.vm o.q := readV_eq_of_reversed_twice hpos hdvd hlanes hlanes'
    refine ⟨t, u, hexec, hst, hexec', htu, hlanes, hback, fun hsame hcd => ?_⟩
    subst hcd
    exact readD_eq_of_readV_eq_single hst htu (by rw [hback, hsame])

end Sys2Proof.Machine

/-! Obligation O53 (44_compare_select.md R260): the select idiom. -/

namespace Sys2Proof.Machine

/-- Lane `k` of an operand is made of bits of the register. -/
theorem place_lt_regBits {q : Bool} {sz : Sz} {k j : Nat} (hk : k < laneCount q sz) (hj : j < sz.bits) :
    sz.bits * k + j < regBits q := by
  have hle : sz.bits * (k + 1) ≤ sz.bits * laneCount q sz := Nat.mul_le_mul_left _ hk
  rw [bits_mul_laneCount, Nat.mul_succ] at hle
  omega

/-- A bit merge under a mask that holds for the whole lane takes the lane from `src`, or keeps it. -/
theorem lane_of_bitMerge {q : Bool} {sz : Sz} {dst src m r : Vec} {p : Prop} [Decidable p] {k : Nat}
    (hr : ∀ b, b < regBits q → r.getLsbD b = if m.getLsbD b then src.getLsbD b else dst.getLsbD b)
    (hk : k < laneCount q sz) (hm : isMask (lane sz.bits m k) p) :
    lane sz.bits r k = if p then lane sz.bits src k else lane sz.bits dst k := by
  apply BitVec.eq_of_getLsbD_eq
  intro j hj
  have hmask := hm j hj
  rw [getLsbD_lane, decide_eq_true hj, Bool.true_and] at hmask
  rw [getLsbD_lane, hr _ (place_lt_regBits hk hj)]
  by_cases hp : p
  · rw [if_pos hp, if_pos (hmask.mpr hp), getLsbD_lane]
  · rw [if_neg hp, if_neg (mt hmask.mp hp), getLsbD_lane]

/-- The select of the greater lane is the maximum; where the two are equal as numbers they are the same lane. -/
theorem select_eq_of_max {w : Nat} {x y r : BitVec w} (hr : (y.toInt ≤ x.toInt → r = x) ∧ (x.toInt < y.toInt → r = y)) :
    (if y.toInt < x.toInt then x else y) = r := by
  obtain hlt | heq | hgt := lt_trichotomy y.toInt x.toInt
  · rw [if_pos hlt, hr.1 hlt.le]
  · rw [if_neg heq.not_lt, hr.1 heq.le, BitVec.toInt_inj.mp heq]
  · rw [if_neg hgt.not_gt, hr.2 hgt]

/-- An instruction leaves an operand apart from its destination as it was. -/
theorem readV_of_completedD {q : Bool} {r d : DReg} {s t : State} (h : completedD (inOperand d q) s t)
    (hapart : ∀ j, inOperand d q j → ¬inOperand r q j) : t.readV r q = s.readV r q := by
  obtain ⟨-, -, hD, -⟩ := h
  exact readV_of_readD fun j hj => hD j fun hd => hapart j hd hj

/-- Settles O53: the copy puts `b` in `d`, the mask says where `a` is greater, and the merge takes `a` there. -/
theorem selectIdiom : Obligations.SelectIdiom := by
  intro sz q a b d m s ha hb hd hm hdApart hmApart
  have hwf : (Instr.vext ⟨.s8, q, d, b, b, 0⟩).wellFormed = true := by simp [Instr.wellFormed, vextImmOk]
  obtain ⟨t, hcopy, hst, -, hcopied, -⟩ := (extractWindow.1 _ s hwf).1 ⟨hd, hb, hb⟩
  obtain ⟨u, hcompare, htu, hmask⟩ := (compareVectors ⟨sz, q, m, a, b⟩ t).2.1.1 ⟨hm, ha, hb⟩
  obtain ⟨v, hmerge, huv, hmerged⟩ := (bitMerge.1 ⟨q, d, a, m⟩ u).1 ⟨hd, ha, hm⟩
  obtain ⟨x, hmax, hsx, hgreater⟩ := (minimumMaximum ⟨sz, q, d, a, b⟩ s).2.1 ⟨hd, ha, hb⟩
  have hat : t.readV a q = s.readV a q := readV_of_completedD hst fun j hj => (hdApart j hj).1
  have hbt : t.readV b q = s.readV b q := readV_of_completedD hst fun j hj => (hdApart j hj).2.1
  have hau : u.readV a q = t.readV a q := readV_of_completedD htu fun j hj => (hmApart j hj).1
  have hdu : u.readV d q = t.readV d q := readV_of_completedD htu fun j hj hj' => (hdApart j hj').2.2 hj
  have hdt : t.readV d q = s.readV b q := hcopied rfl
  have hmask' : ∀ k, k < laneCount q sz → isMask (lane sz.bits (u.readV m q) k)
      ((lane sz.bits (s.readV b q) k).toInt < (lane sz.bits (s.readV a q) k).toInt) := by
    rw [← hat, ← hbt]
    exact hmask
  refine ⟨t, u, v, x, hcopy, hst, hcompare, htu, hmerge, huv, hmax, hsx, hdt, hmask', readV_ext sz fun k hk => ?_⟩
  rw [lane_of_bitMerge hmerged hk (hmask' k hk), hau, hat, hdu, hdt]
  exact select_eq_of_max (hgreater k hk)

end Sys2Proof.Machine

/-! Obligations O56 to O58 (45_conversion_misc.md R274): the conversions where (E1) and (E2) fix them. That a binary32 pattern
encodes `z * 2^(-fbits)` is one equation between integers, from which both conversions follow. -/

namespace Sys2Proof.Machine

/-! The number that a pattern encodes, as an integer significand, a sign and a place. -/

/-- The significand, with the leading one of a normal pattern. -/
def floatSignificand (f : Word) : Nat := if floatExp f = 0 then floatFrac f else floatFrac f + 2 ^ 23

/-- The place of the significand: it counts units of `2^(place - 150)`. -/
def floatPlace (f : Word) : Nat := if floatExp f = 0 then 1 else floatExp f

/-- The sign as a factor. -/
def floatFactor (f : Word) : Int := if floatSign f then -1 else 1

/-- `f` is finite and encodes `z * 2^(-fbits)`. -/
def floatEncodes (f : Word) (z : Int) (fbits : Nat) : Prop :=
  floatExp f ≠ 255 ∧ z * 2 ^ 150 = floatFactor f * floatSignificand f * 2 ^ (floatPlace f + fbits)

theorem mul_zpow_eq_iff {x v : ℚ} (p : Nat) : x * 2 ^ ((p : Int) - 150) = v ↔ v * 2 ^ 150 = x * 2 ^ p := by
  have hsplit : (2 : ℚ) ^ ((p : Int) - 150) = 2 ^ p / 2 ^ 150 := by
    rw [zpow_sub₀ two_ne_zero, zpow_natCast]
    rfl
  rw [hsplit, mul_div_assoc', div_eq_iff (by positivity), eq_comm]

/-- The value by significand, factor and place. -/
theorem floatValue_eq (f : Word) :
    floatValue f = if floatExp f = 255 then none
      else some ((floatFactor f : ℚ) * floatSignificand f * 2 ^ ((floatPlace f : Int) - 150)) := by
  have hdef : floatValue f = if floatExp f = 255 then none
      else if floatExp f = 0 then some ((if floatSign f then -1 else 1 : ℚ) * floatFrac f * 2 ^ (-149 : Int))
      else some ((if floatSign f then -1 else 1 : ℚ) * (2 ^ 23 + floatFrac f : Nat) *
        2 ^ ((floatExp f : Int) - 150)) := rfl
  rw [hdef, floatFactor, floatSignificand, floatPlace]
  by_cases h0 : floatExp f = 0
  · simp [h0]
  · simp [h0, add_comm]

theorem floatValue_eq_some_iff {f : Word} {v : ℚ} :
    floatValue f = some v ↔
      floatExp f ≠ 255 ∧ v * 2 ^ 150 = floatFactor f * floatSignificand f * 2 ^ floatPlace f := by
  rw [← mul_zpow_eq_iff, floatValue_eq]
  by_cases h : floatExp f = 255 <;> simp [h]

/-- What `floatEncodes` says is what `floatValue` says. -/
theorem floatValue_eq_div_iff {f : Word} {z : Int} {fbits : Nat} :
    floatValue f = some ((z : ℚ) / 2 ^ fbits) ↔ floatEncodes f z fbits := by
  rw [floatValue_eq_some_iff, floatEncodes, div_mul_eq_mul_div, div_eq_iff (by positivity), mul_assoc, ← pow_add]
  exact and_congr_right fun _ => by exact_mod_cast Iff.rfl

/-! (E2): from float to fixed. -/

theorem floatScaled_eq (f : Word) (fbits : Nat) :
    floatScaled f fbits = if floatExp f = 255 then none
      else if 150 ≤ floatPlace f + fbits then
        some (floatFactor f * (floatSignificand f * 2 ^ (floatPlace f + fbits - 150) : Nat))
      else if floatSignificand f % 2 ^ (150 - (floatPlace f + fbits)) = 0 then
        some (floatFactor f * (floatSignificand f / 2 ^ (150 - (floatPlace f + fbits)) : Nat))
      else none := rfl

theorem floatFactor_eq (f : Word) : floatFactor f = 1 ∨ floatFactor f = -1 := by
  cases h : floatSign f <;> simp [floatFactor, h]

theorem floatFactor_mul_self (f : Word) : floatFactor f * floatFactor f = 1 := by
  obtain h | h := floatFactor_eq f <;> rw [h] <;> rfl

/-- A pattern that encodes `z * 2^(-fbits)` scales to `z`. -/
theorem floatScaled_of_encodes {f : Word} {z : Int} {fbits : Nat} (h : floatEncodes f z fbits) :
    floatScaled f fbits = some z := by
  obtain ⟨hfinite, hz⟩ := h
  rw [floatScaled_eq, if_neg hfinite]
  by_cases hplace : 150 ≤ floatPlace f + fbits
  · obtain ⟨d, hd⟩ := Nat.exists_eq_add_of_le hplace
    rw [if_pos hplace, hd, Nat.add_sub_cancel_left]
    rw [hd, pow_add, mul_comm (2 ^ 150), ← mul_assoc] at hz
    have hz' := mul_right_cancel₀ (by positivity) hz
    rw [hz', mul_assoc]
    push_cast
    rfl
  · obtain ⟨d, hd⟩ := Nat.exists_eq_add_of_le (not_le.mp hplace).le
    have hd' : 150 - (floatPlace f + fbits) = d := by omega
    rw [if_neg hplace, hd']
    have hz' : z * 2 ^ d = floatFactor f * floatSignificand f := by
      rw [hd, add_comm, pow_add, ← mul_assoc] at hz
      exact mul_right_cancel₀ (by positivity) hz
    have hFz : floatFactor f * z * 2 ^ d = floatSignificand f := by
      rw [mul_assoc, hz', ← mul_assoc, floatFactor_mul_self, one_mul]
    obtain ⟨n, hn⟩ := Int.eq_ofNat_of_zero_le
      (nonneg_of_mul_nonneg_left (hFz ▸ Int.natCast_nonneg _) (by positivity : (0 : Int) < 2 ^ d))
    have hsig : floatSignificand f = n * 2 ^ d := by
      rw [hn] at hFz
      exact_mod_cast hFz.symm
    rw [hsig, if_pos (Nat.mul_mod_left ..), Nat.mul_div_cancel _ (by positivity), ← hn, ← mul_assoc,
      floatFactor_mul_self, one_mul]

/-- (E2) for an integer in range. -/
theorem toInt_floatToFix {f : Word} {z : Int} {fbits : Nat} (h : floatEncodes f z fbits) (hmin : -(2 ^ 31) ≤ z)
    (hmax : z ≤ 2 ^ 31 - 1) : (floatToFix f fbits).toInt = z := by
  have hfix : floatToFix f fbits = wrap 32 z := by
    rw [floatToFix, floatScaled_of_encodes h]
    exact if_pos ⟨hmin, hmax⟩
  rw [hfix, toInt_wrap (by decide) hmin hmax]

/-! (E1): from fixed to float. -/

/-- A normal pattern is its sign, its exponent and the low bits of its significand. -/
theorem floatPattern_fields (f : Word) : floatPattern (floatSign f) (floatExp f) (floatFrac f + 2 ^ 23) = f := by
  have hfrac : BitVec.ofNat 23 (floatFrac f + 2 ^ 23) = f.extractLsb' 0 23 := by
    rw [BitVec.ofNat_add, floatFrac, BitVec.ofNat_toNat, BitVec.setWidth_eq, show BitVec.ofNat 23 (2 ^ 23) = 0#23 from rfl,
      BitVec.add_zero]
  rw [floatPattern, hfrac, floatExp, BitVec.ofNat_toNat, BitVec.setWidth_eq]
  apply BitVec.eq_of_getLsbD_eq
  intro k hk
  simp only [BitVec.getLsbD_append, BitVec.getLsbD_extractLsb', floatSign, BitVec.msb_eq_getLsbD_last]
  interval_cases k <;> simp

/-- The magnitude of a lane that a pattern encodes, by the pattern's significand and place. -/
theorem natAbs_of_encodes {f : Word} {z : Int} {fbits : Nat} (h : floatEncodes f z fbits) :
    z.natAbs * 2 ^ 150 = floatSignificand f * 2 ^ (floatPlace f + fbits) := by
  have habs := congrArg Int.natAbs h.2
  obtain hF | hF := floatFactor_eq f <;> simpa [hF, Int.natAbs_mul, Int.natAbs_pow] using habs

/-- The sign of a nonzero lane is the pattern's sign. -/
theorem floatSign_of_encodes {f : Word} {z : Int} {fbits : Nat} (h : floatEncodes f z fbits) (hz : z ≠ 0) :
    decide (z < 0) = floatSign f := by
  have hsig : (0 : Int) ≤ floatSignificand f * 2 ^ (floatPlace f + fbits) := by positivity
  have heq := h.2
  rw [mul_assoc, floatFactor] at heq
  cases hsign : floatSign f
  case false =>
    rw [hsign, if_neg Bool.false_ne_true, one_mul] at heq
    exact decide_eq_false (by omega)
  case true =>
    rw [hsign, if_pos rfl, neg_one_mul] at heq
    exact decide_eq_true (by omega)

/-- A nonzero lane is not encoded by a subnormal pattern, which is too small for it. -/
theorem floatExp_ne_zero_of_encodes {f : Word} {z : Int} {fbits : Nat} (hfbits : fbits ≤ 32)
    (h : floatEncodes f z fbits) (hz : z ≠ 0) : floatExp f ≠ 0 := by
  intro h0
  have habs := natAbs_of_encodes h
  have hfrac : floatFrac f < 2 ^ 23 := (f.extractLsb' 0 23).isLt
  rw [floatSignificand, floatPlace, if_pos h0, if_pos h0] at habs
  have hsmall : floatFrac f * 2 ^ (1 + fbits) < 2 ^ 150 := calc
    floatFrac f * 2 ^ (1 + fbits) ≤ 2 ^ 23 * 2 ^ (1 + 32) := by gcongr; omega
    _ < 2 ^ 150 := by norm_num
  have hbig : 1 * 2 ^ 150 ≤ z.natAbs * 2 ^ 150 := Nat.mul_le_mul_right _ (Int.natAbs_pos.mpr hz)
  omega

/-- A magnitude has its highest bit where a significand of 24 bits at its place has it. -/
theorem log2_of_mul_two_pow_eq {mag sig p : Nat} (hmag : mag ≠ 0) (hlow : 2 ^ 23 ≤ sig) (hhigh : sig < 2 ^ 24)
    (h : mag * 2 ^ 150 = sig * 2 ^ p) : mag.log2 + 150 = 23 + p := by
  have hle := Nat.log2_self_le hmag
  have hlt := Nat.lt_log2_self (n := mag)
  have h1 : 2 ^ (mag.log2 + 150) < 2 ^ (24 + p) := calc
    2 ^ (mag.log2 + 150) = 2 ^ mag.log2 * 2 ^ 150 := pow_add ..
    _ ≤ mag * 2 ^ 150 := by gcongr
    _ = sig * 2 ^ p := h
    _ < 2 ^ 24 * 2 ^ p := by gcongr
    _ = 2 ^ (24 + p) := (pow_add ..).symm
  have h2 : 2 ^ (23 + p) < 2 ^ (mag.log2 + 1 + 150) := calc
    2 ^ (23 + p) = 2 ^ 23 * 2 ^ p := pow_add ..
    _ ≤ sig * 2 ^ p := by gcongr
    _ = mag * 2 ^ 150 := h.symm
    _ < 2 ^ (mag.log2 + 1) * 2 ^ 150 := by gcongr
    _ = 2 ^ (mag.log2 + 1 + 150) := (pow_add ..).symm
  have h1' := (Nat.pow_lt_pow_iff_right (by decide)).mp h1
  have h2' := (Nat.pow_lt_pow_iff_right (by decide)).mp h2
  omega

theorem fixToFloat_zero (fbits : Nat) : fixToFloat 0 fbits = 0 := rfl

/-- (E1) for a nonzero lane. With `l` the highest bit of the magnitude, the pattern's place is `l + 127 - fbits` and its
significand is the magnitude moved to 24 bits, of which no set bit is lost. -/
theorem fixToFloat_of_encodes {x f : Word} {fbits : Nat} (hfbits : fbits ≤ 32) (hx : x.toInt ≠ 0)
    (h : floatEncodes f x.toInt fbits) : fixToFloat x fbits = f := by
  have hnormal := floatExp_ne_zero_of_encodes hfbits h hx
  have habs := natAbs_of_encodes h
  have hfrac : floatFrac f < 2 ^ 23 := (f.extractLsb' 0 23).isLt
  have hmag : x.toInt.natAbs ≠ 0 := Int.natAbs_ne_zero.mpr hx
  rw [floatSignificand, floatPlace, if_neg hnormal, if_neg hnormal] at habs
  have hlog := log2_of_mul_two_pow_eq hmag (by omega) (by omega) habs
  unfold fixToFloat
  dsimp only
  rw [if_neg hmag]
  generalize x.toInt.natAbs = mag at *
  generalize hl : mag.log2 = l at *
  have hmove : mag * 2 ^ 23 = (floatFrac f + 2 ^ 23) * 2 ^ l := by
    have hexp : floatExp f + fbits = l + 127 := by omega
    rw [hexp, pow_add, ← mul_assoc, show 150 = 23 + 127 from rfl, pow_add, ← mul_assoc] at habs
    exact Nat.eq_of_mul_eq_mul_right (by positivity) habs
  have hexact : mag % 2 ^ (l - 23) = 0 := by
    obtain hlow | hhigh := le_total l 23
    · rw [Nat.sub_eq_zero_of_le hlow, pow_zero, Nat.mod_one]
    · obtain ⟨d, rfl⟩ := Nat.exists_eq_add_of_le' hhigh
      rw [pow_add, ← mul_assoc] at hmove
      rw [Nat.eq_of_mul_eq_mul_right (by positivity) hmove, Nat.add_sub_cancel, Nat.mul_mod_left]
  rw [if_pos hexact, hmove, Nat.mul_div_cancel _ (by positivity), floatSign_of_encodes h hx,
    show l + 127 - fbits = floatExp f by omega, floatPattern_fields]

/-! The conversions (R275, R276). -/

theorem fbitsOk_iff {fbits : Imm8} : fbitsOk fbits = true ↔ fbits.toNat ≤ 32 := decide_eq_true_iff

/-- The conversions have one lane width and at most 32 fractional bits (R84, R85). -/
theorem reservedEncoding_of_conversion {w : Word} (hopc : opcOf w ∈ [0x37, 0x38]) (h : szOf w ≠ 2 ∨ 32 < immOf w) :
    reservedEncoding w := by
  have hopc' : opcOf w ∈ [0x37, 0x38, 0x39] := List.mem_append_left [0x39] hopc
  obtain hsz | himm := h
  · exact .inr (.inl (.inr (.inr (.inr (.inr (.inr (.inr (.inr (.inl ⟨hopc', hsz⟩)))))))))
  · exact reservedEncoding_of_immediate (.inr (.inr (.inr (.inr (.inr (.inr ⟨hopc, himm⟩))))))

/-- (E1) of R274 for one lane. -/
theorem fixToFloat_spec {fbits : Nat} (hfbits : fbits ≤ 32) (x : Word) :
    (x = 0 → fixToFloat x fbits = 0) ∧
      (x ≠ 0 → ∀ f : Word, floatValue f = some ((x.toInt : ℚ) / 2 ^ fbits) → fixToFloat x fbits = f) := by
  refine ⟨fun hx => hx ▸ fixToFloat_zero fbits, fun hx f hf => ?_⟩
  have hx' : x.toInt ≠ 0 := fun h0 => hx (BitVec.toInt_inj.mp (h0.trans BitVec.toInt_zero.symm))
  exact fixToFloat_of_encodes hfbits hx' (floatValue_eq_div_iff.mp hf)

/-- (E2) of R274 for one lane. -/
theorem floatToFix_spec (fbits : Nat) (x : Word) (v : ℚ) (z : Int) (hv : floatValue x = some v) (hz : v * 2 ^ fbits = z)
    (hmin : -(2 ^ 31) ≤ z) (hmax : z ≤ 2 ^ 31 - 1) : (floatToFix x fbits).toInt = z := by
  rw [eq_div_of_mul_eq (by positivity) hz] at hv
  exact toInt_floatToFix (floatValue_eq_div_iff.mp hv) hmin hmax

/-- Settles O56: the two-register template with (E1), and the reserved encodings. -/
theorem fixedToFloatExact : Obligations.FixedToFloatExact :=
  ⟨fun o _ hwf => rule2_of_lanewise2 (sz := .s32) (g := fun x => fixToFloat x o.fbits.toNat) V2F.regsOk_iff rfl
      (fixToFloat_spec (fbitsOk_iff.mp hwf)),
    refuses_of_reserved fun _ hopc => reservedEncoding_of_conversion (by simp [hopc])⟩

/-- Settles O57: the two-register template with (E2), and the reserved encodings. -/
theorem floatToFixedExact : Obligations.FloatToFixedExact :=
  ⟨fun o _ _ => rule2_of_lanewise2 (sz := .s32) (g := fun x => floatToFix x o.fbits.toNat) V2F.regsOk_iff rfl
      (floatToFix_spec o.fbits.toNat),
    refuses_of_reserved fun _ hopc => reservedEncoding_of_conversion (by simp [hopc])⟩

/-- Where the scaled lane is a binary32 number, what (E1) fixes encodes it; zero is encoded by the zero pattern. -/
theorem floatValue_of_exact {fbits : Nat} {x r : Word} (hzero : x = 0 → r = 0)
    (hexact : x ≠ 0 → ∀ f : Word, floatValue f = some ((x.toInt : ℚ) / 2 ^ fbits) → r = f)
    (h : ∃ f : Word, floatValue f = some ((x.toInt : ℚ) / 2 ^ fbits)) :
    floatValue r = some ((x.toInt : ℚ) / 2 ^ fbits) := by
  by_cases hx : x = 0
  · rw [hzero hx, hx, floatValue_eq_div_iff]
    exact ⟨by decide, by simp [floatSignificand, floatFrac, floatExp]⟩
  · obtain ⟨f, hf⟩ := h
    rw [hexact hx f hf, hf]

/-- Settles O58: the lanes in between encode the scaled lanes, whose scaling back is the lane itself and so in range. -/
theorem conversionRoundTrip : Obligations.ConversionRoundTrip := by
  intro o c s hwf hvd hvm hc hnumbers
  obtain ⟨t, hexec, hst, hlanes⟩ := (fixedToFloatExact.1 o s hwf).1 ⟨hvd, hvm⟩
  obtain ⟨u, hexec', htu, hlanes'⟩ := (floatToFixedExact.1 { o with vd := c, vm := o.vd } t hwf).1 ⟨hc, hvd⟩
  have hvalues : ∀ k, k < laneCount o.q .s32 → floatValue (lane 32 (t.readV o.vd o.q) k) =
      some (((lane 32 (s.readV o.vm o.q) k).toInt : ℚ) / 2 ^ o.fbits.toNat) :=
    fun k hk => floatValue_of_exact (hlanes k hk).1 (hlanes k hk).2 (hnumbers k hk)
  have hback : u.readV c o.q = s.readV o.vm o.q := readV_ext .s32 fun k hk => by
    obtain ⟨hmin, hmax⟩ := toInt_bounds (lane 32 (s.readV o.vm o.q) k)
    exact BitVec.toInt_inj.mp
      (hlanes' k hk _ _ (hvalues k hk) (div_mul_cancel₀ _ (by positivity)) hmin hmax)
  refine ⟨t, u, hexec, hst, hexec', htu, hvalues, hback, fun hsame hcd => ?_⟩
  subst hcd
  exact readD_eq_of_readV_eq_single hst htu (by rw [hback, hsame])

end Sys2Proof.Machine
